-- ==== Sys2Proof/Config.lean ====
section
/-! DEFINITION. The parameters of the hardware (rule R8 of 00_scope.md), what an implementation fixes, and the
free values the spec leaves open. -/

namespace Sys2Proof.Config

/-- `N_EP`, the number of hardware endpoint slots (R8, D2). -/
abbrev nEp : Nat := 8

/-- `PMA_SIZE`, the bytes of packet memory (R8, D3). -/
abbrev pmaSize : Nat := 512

/-- `BD_ENTRY`, the bytes of one buffer-descriptor entry (R8, D11). -/
abbrev bdEntry : Nat := 8

/-- `BD_TABLE = N_EP * BD_ENTRY`, the bytes of the descriptor table (R8). -/
abbrev bdTable : Nat := 64

/-- `WORD`, the arena's granularity and the packet memory's access width in bytes (R8, D8). -/
abbrev wordBytes : Nat := 2

/-- `RX_COUNT_MASK`, the mask `read` applies to the received count (R8, R251). -/
abbrev rxCountMask : BitVec 16 := 0x003F

/-- `RX_FINE_MAX`, the largest size encoded in 2-byte blocks (R8, D10). -/
abbrev rxFineMax : Nat := 62

/-- `RX_COARSE_MAX`, the largest encodable receive size (R8, D10). -/
abbrev rxCoarseMax : Nat := 1024

/-- `ENABLE_CNTR_MASKS`, the interrupt masks `enable` sets: CTRM, WKUPM, SUSPM, RESETM (R8, D27). -/
abbrev enableCntrMasks : BitVec 16 := 0x9C00

/-- `BUS_RESET_CLEARS_REGS`, the parameter's default value (R8, R309, D32; log entry 15). -/
abbrev busResetClearsRegs : Bool := true

/-- `USB_BASE`, the CPU address of the register space (R80). -/
abbrev usbBase : Nat := 0x40005C00

/-- `PMA_BASE`, the CPU address of packet memory (R80, D7). -/
abbrev pmaBase : Nat := 0x40006000

/-- `BTABLE` as the driver takes it: the descriptor table stands at the arena's base (R192, D12; log entry 16). -/
abbrev driverBdBase : Nat := 0

/-- `STARTUP_DELAY_CYCLES`, OPEN in the spec (R8, D30): an uninterpreted number. No rule depends on it. -/
opaque startupDelayCycles : Nat

/-- The five low bits (DIR, EP_ID) a read of ISTR gives: any value on every read (R42, D46, I2; log entry 5). -/
opaque freeIstrLow : Nat → BitVec 5

/-- The fourteen low bits (LCK, LSOF, FN) a read of FNR gives: any value on every read (R313, I3; log entry 5). -/
opaque freeFnrLow : Nat → BitVec 14

end Sys2Proof.Config
end

