-- ==== Sys2Proof/Word.lean ====
section
/-! DEFINITION. The word types (rules R9, R10) and the operand types of the operations (rules R15, R33, R34, R51,
R124, R300): small closed types, all plain data. -/

namespace Sys2Proof

/-- The 16 meaningful bits of a register, or one packet-memory word (R9, R83). -/
abbrev Word := BitVec 16

/-- A byte. -/
abbrev Byte := BitVec 8

/-- One hardware endpoint index, `0 .. N_EP - 1` (R16). -/
abbrev Slot := Fin Config.nEp

/-- A direction (R15): `out` is host to device (the hardware's RX), `inn` is device to host (TX). -/
inductive Dir where
  | out
  | inn
  deriving DecidableEq, Repr

/-- The endpoint types (R34, R47). -/
inductive EpType where
  | control
  | bulk
  | interrupt
  | isochronous
  deriving DecidableEq, Repr

/-- The endpoint statuses (R33). -/
inductive Status where
  | disabled
  | stall
  | nak
  | valid
  deriving DecidableEq, Repr

/-- The events `bus_other_event` can latch (R313). -/
inductive OtherEvent where
  | pmaovr
  | err
  | sof
  | esof
  deriving DecidableEq, Repr

/-- The name of an injected output pin (R51; log entry 17). -/
abbrev Pin := Nat

/-- The reset capability `(Pin, delay)` (R51). -/
structure ResetCap where
  /-- The injected output. -/
  pin   : Pin
  /-- The cycle count `FORCE_RESET_DELAY_CYCLES`. -/
  delay : Nat
  deriving DecidableEq, Repr

/-- One atomic step of the bus engine, with its drawn arguments (R125, R300). -/
inductive BusStep where
  /-- `bus_reset` (R309). -/
  | reset
  /-- `bus_out(e, data, fresh)` (R303, R304). -/
  | out (e : BitVec 4) (data : List Byte) (fresh : Bool)
  /-- `bus_setup(e, data)`, 8 bytes (R305). -/
  | setup (e : BitVec 4) (data : Vector Byte 8)
  /-- `bus_in(e, acked)` (R306). -/
  | inn (e : BitVec 4) (acked : Bool)
  /-- `bus_suspend` (R310). -/
  | suspend
  /-- `bus_wakeup(dp, dm)` (R311). -/
  | wakeup (dp dm : Bool)
  /-- `bus_line(dp, dm)` (R312). -/
  | line (dp dm : Bool)
  /-- `bus_other_event(which)` (R313). -/
  | other (which : OtherEvent)
  deriving DecidableEq, Repr

/-- Which kind of item of a program an encoded command is: an operation call (F-CMD, F-BUS), whose first byte is its
selector, or a 16-bit word written to a register (F-EPW, F-ISTRW, F-DADDRW) (R110; log entry 2). -/
inductive Form where
  | call
  | word
  deriving DecidableEq, Repr

/-- One encoded item of a program: the bytes of a command (R31, R124; log entry 2). -/
structure Encoded where
  form  : Form
  bytes : List Byte
  deriving DecidableEq, Repr

/-- Why the decoder rejects an encoded command. -/
inductive Reject where
  /-- The selector is in no row of the command table (R125). -/
  | unknownSelector
  /-- The 16-bit word is in no row of the opcode table, or not in the row that was named. -/
  | unknownWord
  /-- The bytes end before the command does. -/
  | truncated
  /-- An operand byte is no value of its type (R124). -/
  | badOperand
  /-- Something other than padding zeros follows the command. -/
  | trailing
  deriving DecidableEq, Repr

end Sys2Proof
end

