-- ==== Sys2Proof/Syntax.lean ====
section
/-! DEFINITION. The instruction set: one constructor per row of spec/opcode_table.json (rules R124, R125 and R114,
R115, R117). -/

namespace Sys2Proof

/-- The operations of the block (R3). The first group is the command table of R125, the second the written words of
R114, R115 and R117, each taken as the write of that word to its register. -/
inductive Instr where
  /-- 0x00 `construct` (R381). -/
  | construct (resetCap : Option ResetCap)
  /-- 0x01 `pma_allocate` (R190). -/
  | pmaAllocate (size : Nat)
  /-- 0x02 `pma_descriptor` (R192). -/
  | pmaDescriptor (n : Nat)
  /-- 0x03 `pma_read` (R194). -/
  | pmaRead (off len : Nat)
  /-- 0x04 `pma_write` (R196). -/
  | pmaWrite (off : Nat) (src : List Byte)
  /-- 0x05 `encode_receive_size` (R200). -/
  | encodeReceiveSize (size : Nat)
  /-- 0x10 `ep_configure` (R170). -/
  | epConfigure (n : Nat) (t : EpType)
  /-- 0x11 `ep_set_status` (R172). -/
  | epSetStatus (n : Nat) (d : Dir) (st : Status)
  /-- 0x12 `ep_clear_ctr` (R174). -/
  | epClearCtr (n : Nat) (d : Dir)
  /-- 0x13 `ep_snapshot` (R176). -/
  | epSnapshot (n : Nat)
  /-- 0x18 `epr_write` (R150). -/
  | eprWrite (n : Nat) (w : Word)
  /-- 0x19 `istr_write` (R160). -/
  | istrWrite (w : Word)
  /-- 0x20 `allocate_endpoint` (R220). -/
  | allocateEndpoint (d : Dir) (req : Option Byte) (t : EpType) (mps : Nat)
  /-- 0x30 `reset` (R240). -/
  | reset
  /-- 0x31 `write` (R242). -/
  | write (addr : Byte) (src : List Byte)
  /-- 0x32 `read` (R250). -/
  | read (addr : Byte) (len : Nat)
  /-- 0x33 `stall` (R255). -/
  | stall (addr : Byte)
  /-- 0x34 `unstall` (R256). -/
  | unstall (addr : Byte)
  /-- 0x40 `poll` (R280). -/
  | poll
  /-- 0x50 `enable` (R331). -/
  | enable
  /-- 0x51 `set_device_address` (R333). -/
  | setDeviceAddress (a : Byte)
  /-- 0x52 `suspend` (R334). -/
  | suspend
  /-- 0x53 `resume` (R335). -/
  | resume
  /-- 0x54 `force_reset` (R336). -/
  | forceReset
  /-- 0x80 `bus_reset` (R309). -/
  | busReset
  /-- 0x81 `bus_out` (R304). -/
  | busOut (e : BitVec 4) (data : List Byte) (fresh : Bool)
  /-- 0x82 `bus_setup` (R305). -/
  | busSetup (e : BitVec 4) (data : Vector Byte 8)
  /-- 0x83 `bus_in` (R306). -/
  | busIn (e : BitVec 4) (acked : Bool)
  /-- 0x84 `bus_suspend` (R310). -/
  | busSuspend
  /-- 0x85 `bus_wakeup` (R311). -/
  | busWakeup (dp dm : Bool)
  /-- 0x86 `bus_line` (R312). -/
  | busLine (dp dm : Bool)
  /-- 0x87 `bus_other_event` (R313). -/
  | busOtherEvent (which : OtherEvent)
  /-- `epw.configure`: the word of `ep_configure`, written to the slot its EA field names (R114, R170). -/
  | epwConfigure (t : EpType) (k : Bool) (n : BitVec 4)
  /-- `epw.set_status_out`: the word of `ep_set_status(slot, Out, _)` (R114, R172). -/
  | epwSetStatusOut (slot : Nat) (ss : BitVec 2) (t : EpType) (k : Bool) (a : BitVec 4)
  /-- `epw.set_status_in`: the word of `ep_set_status(slot, In, _)` (R114, R172). -/
  | epwSetStatusIn (slot : Nat) (ss : BitVec 2) (t : EpType) (k : Bool) (a : BitVec 4)
  /-- `epw.clear_ctr_out`: the word of `ep_clear_ctr(slot, Out)` (R114, R174). -/
  | epwClearCtrOut (slot : Nat) (t : EpType) (k : Bool) (a : BitVec 4)
  /-- `epw.clear_ctr_in`: the word of `ep_clear_ctr(slot, In)` (R114, R174). -/
  | epwClearCtrIn (slot : Nat) (t : EpType) (k : Bool) (a : BitVec 4)
  /-- `istrw.clear_wkup`: `0xEFFF` written to ISTR (R115, R282). -/
  | istrwClearWkup
  /-- `istrw.clear_reset`: `0xFBFF` written to ISTR (R115, R283). -/
  | istrwClearReset
  /-- `istrw.clear_susp`: `0xF7FF` written to ISTR (R115, R284). -/
  | istrwClearSusp
  /-- `istrw.clear_all`: `0x0000` written to ISTR (R115). -/
  | istrwClearAll
  /-- `daddrw.set`: `0x0080 | a` written to DADDR (R117). -/
  | daddrwSet (a : BitVec 7)
  deriving DecidableEq, Repr

end Sys2Proof
end

