-- ==== Sys2Proof/WellFormed.lean ====
section
/-! DEFINITION. Well-formed commands: each argument has its type (rule R124). A precondition of an operation is no
part of this; the operation's rule checks it. -/

namespace Sys2Proof

/-- The argument type `u7`: an index `0 .. 127` (R124). -/
def isU7 (n : Nat) : Bool := decide (n < 128)

/-- A command is well-formed when each argument has its type (R124). Only the `u7` indexes need a check: every other
argument's type already admits exactly its values. -/
def Instr.wellFormed : Instr → Bool
  | .construct _ => true
  | .pmaAllocate _ => true
  | .pmaDescriptor n => isU7 n
  | .pmaRead _ _ => true
  | .pmaWrite _ _ => true
  | .encodeReceiveSize _ => true
  | .epConfigure n _ => isU7 n
  | .epSetStatus n _ _ => isU7 n
  | .epClearCtr n _ => isU7 n
  | .epSnapshot n => isU7 n
  | .eprWrite n _ => isU7 n
  | .istrWrite _ => true
  | .allocateEndpoint _ _ _ _ => true
  | .reset => true
  | .write _ _ => true
  | .read _ _ => true
  | .stall _ => true
  | .unstall _ => true
  | .poll => true
  | .enable => true
  | .setDeviceAddress _ => true
  | .suspend => true
  | .resume => true
  | .forceReset => true
  | .busReset => true
  | .busOut _ _ _ => true
  | .busSetup _ _ => true
  | .busIn _ _ => true
  | .busSuspend => true
  | .busWakeup _ _ => true
  | .busLine _ _ => true
  | .busOtherEvent _ => true
  | .epwConfigure _ _ _ => true
  | .epwSetStatusOut slot _ _ _ _ => isU7 slot
  | .epwSetStatusIn slot _ _ _ _ => isU7 slot
  | .epwClearCtrOut slot _ _ _ => isU7 slot
  | .epwClearCtrIn slot _ _ _ => isU7 slot
  | .istrwClearWkup => true
  | .istrwClearReset => true
  | .istrwClearSusp => true
  | .istrwClearAll => true
  | .daddrwSet _ => true

end Sys2Proof
end

