-- ==== Sys2Proof/Decode.lean ====
section
/-! DEFINITION. Field codes (rules R33, R34), the written words (R113 to R117), the decoder of an encoded command,
total on any bytes and rejecting by name, and after it the encoder. The selectors are the spec's (R125); how a
command's arguments lie behind its selector is the model's own (log entries 2 and 3). -/

namespace Sys2Proof

/-! ## Field codes -/

/-- The STAT code of a status (R33). -/
def Status.code : Status → BitVec 2
  | .disabled => 0b00
  | .stall => 0b01
  | .nak => 0b10
  | .valid => 0b11

/-- The status a STAT field holds: all four values are legal (R33). -/
def Status.ofCode (c : BitVec 2) : Status :=
  if c = 0b00 then .disabled else if c = 0b01 then .stall else if c = 0b10 then .nak else .valid

/-- The EP_TYPE code of an endpoint type (R34). -/
def EpType.code : EpType → BitVec 2
  | .bulk => 0b00
  | .control => 0b01
  | .isochronous => 0b10
  | .interrupt => 0b11

/-- The endpoint type an EP_TYPE field holds: all four values are legal (R34). -/
def EpType.ofCode (c : BitVec 2) : EpType :=
  if c = 0b00 then .bulk else if c = 0b01 then .control else if c = 0b10 then .isochronous else .interrupt

/-! ## The written words of rules R114, R115 and R117 -/

/-- `1 0 00 0 tt K 1 0 00 nnnn` (R114, row `ep_configure`). -/
def epwConfigureWord (t : EpType) (k : Bool) (n : BitVec 4) : Word :=
  0b10000#5 ++ t.code ++ BitVec.ofBool k ++ 0b1000#4 ++ n

/-- `1 0 SS 0 TT K 1 0 00 AAAA` (R114, row `ep_set_status(n, Out, s)`). -/
def epwSetStatusOutWord (ss : BitVec 2) (t : EpType) (k : Bool) (a : BitVec 4) : Word :=
  0b10#2 ++ ss ++ 0b0#1 ++ t.code ++ BitVec.ofBool k ++ 0b1000#4 ++ a

/-- `1 0 00 0 TT K 1 0 SS AAAA` (R114, row `ep_set_status(n, In, s)`). -/
def epwSetStatusInWord (ss : BitVec 2) (t : EpType) (k : Bool) (a : BitVec 4) : Word :=
  0b10000#5 ++ t.code ++ BitVec.ofBool k ++ 0b10#2 ++ ss ++ a

/-- `0 0 00 0 TT K 1 0 00 AAAA` (R114, row `ep_clear_ctr(n, Out)`). -/
def epwClearCtrOutWord (t : EpType) (k : Bool) (a : BitVec 4) : Word :=
  0b00000#5 ++ t.code ++ BitVec.ofBool k ++ 0b1000#4 ++ a

/-- `1 0 00 0 TT K 0 0 00 AAAA` (R114, row `ep_clear_ctr(n, In)`). -/
def epwClearCtrInWord (t : EpType) (k : Bool) (a : BitVec 4) : Word :=
  0b10000#5 ++ t.code ++ BitVec.ofBool k ++ 0b0000#4 ++ a

/-- The ISTR word that clears WKUP and keeps the rest (R115). -/
def istrwClearWkupWord : Word := 0xEFFF

/-- The ISTR word that clears RESET and keeps the rest (R115). -/
def istrwClearResetWord : Word := 0xFBFF

/-- The ISTR word that clears SUSP and keeps the rest (R115). -/
def istrwClearSuspWord : Word := 0xF7FF

/-- The ISTR word that clears every latched flag (R115). -/
def istrwClearAllWord : Word := 0x0000

/-- `0x0080 | a`: EF = 1 and ADD = a (R117). -/
def daddrwSetWord (a : BitVec 7) : Word := 0x001#9 ++ a

/-- A row of the opcode table that is a written word. -/
inductive WordRow where
  | configure
  | setStatusOut
  | setStatusIn
  | clearCtrOut
  | clearCtrIn
  | clearWkup
  | clearReset
  | clearSusp
  | clearAll
  | daddrSet
  deriving DecidableEq, Repr

/-- The bits a row fixes, and their values: the table's mask and match (R114, R115, R117). -/
def WordRow.fixedBits : WordRow → Word × Word
  | .configure => (0xF8F0, 0x8080)
  | .setStatusOut => (0xC8F0, 0x8080)
  | .setStatusIn => (0xF8C0, 0x8080)
  | .clearCtrOut => (0xF8F0, 0x0080)
  | .clearCtrIn => (0xF8F0, 0x8000)
  | .clearWkup => (0xFFFF, 0xEFFF)
  | .clearReset => (0xFFFF, 0xFBFF)
  | .clearSusp => (0xFFFF, 0xF7FF)
  | .clearAll => (0xFFFF, 0x0000)
  | .daddrSet => (0xFF80, 0x0080)

/-- The word fits the row's pattern. -/
def WordRow.fits (r : WordRow) (w : Word) : Bool := w &&& r.fixedBits.1 == r.fixedBits.2

/-- The rows of written words, in the table's order. -/
def wordRows : List WordRow :=
  [.configure, .setStatusOut, .setStatusIn, .clearCtrOut, .clearCtrIn,
   .clearWkup, .clearReset, .clearSusp, .clearAll, .daddrSet]

/-- The byte that names a row in an encoded word (log entry 3); 0 names none. -/
def WordRow.tag : WordRow → Byte
  | .configure => 1
  | .setStatusOut => 2
  | .setStatusIn => 3
  | .clearCtrOut => 4
  | .clearCtrIn => 5
  | .clearWkup => 6
  | .clearReset => 7
  | .clearSusp => 8
  | .clearAll => 9
  | .daddrSet => 10

/-- The row of a written word: the row the tag names, if the word fits it; with no row named, the first row of the
table that the word fits. Some words fit several rows (R114), and the word alone does not say which (log entry 3). -/
def wordRowOf (tag : Byte) (w : Word) : Except Reject WordRow :=
  match wordRows.find? (fun r => (tag == 0 || r.tag == tag) && r.fits w) with
  | some r => .ok r
  | none => .error .unknownWord

/-! ## Reading operands -/

/-- One byte. -/
def getByte : List Byte → Except Reject (Byte × List Byte)
  | [] => .error .truncated
  | b :: bs => .ok (b, bs)

/-- A natural number of any size: 7 bits a byte, the low bits first, bit 7 set on every byte but the last
(log entry 2). -/
def getNat : List Byte → Except Reject (Nat × List Byte)
  | [] => .error .truncated
  | b :: bs =>
    if b.toNat < 128 then .ok (b.toNat, bs)
    else match getNat bs with
      | .ok (n, rest) => .ok (b.toNat - 128 + 128 * n, rest)
      | .error e => .error e

/-- `n` bytes. -/
def takeBytes : Nat → List Byte → Except Reject (List Byte × List Byte)
  | 0, bs => .ok ([], bs)
  | _ + 1, [] => .error .truncated
  | n + 1, b :: bs =>
    match takeBytes n bs with
    | .ok (data, rest) => .ok (b :: data, rest)
    | .error e => .error e

/-- A byte array: its length, then its bytes. -/
def getBytes (bs : List Byte) : Except Reject (List Byte × List Byte) := do
  let (n, bs) ← getNat bs
  takeBytes n bs

/-- The 8 bytes of a SETUP packet. -/
def getSetup : List Byte → Except Reject (Vector Byte 8 × List Byte)
  | b0 :: b1 :: b2 :: b3 :: b4 :: b5 :: b6 :: b7 :: bs => .ok (#v[b0, b1, b2, b3, b4, b5, b6, b7], bs)
  | _ => .error .truncated

/-- A `u7` index. -/
def getU7 : List Byte → Except Reject (Nat × List Byte)
  | [] => .error .truncated
  | b :: bs => if b.toNat < 128 then .ok (b.toNat, bs) else .error .badOperand

/-- A `u4` endpoint number. -/
def getU4 : List Byte → Except Reject (BitVec 4 × List Byte)
  | [] => .error .truncated
  | b :: bs => if b.toNat < 16 then .ok (b.setWidth 4, bs) else .error .badOperand

/-- A Boolean or a bit: 0 or 1. -/
def getBool : List Byte → Except Reject (Bool × List Byte)
  | [] => .error .truncated
  | b :: bs => if b = 0 then .ok (false, bs) else if b = 1 then .ok (true, bs) else .error .badOperand

/-- A direction: 0 for OUT, 1 for IN, as bit 7 of an endpoint address (R111). -/
def getDir : List Byte → Except Reject (Dir × List Byte)
  | [] => .error .truncated
  | b :: bs => if b = 0 then .ok (.out, bs) else if b = 1 then .ok (.inn, bs) else .error .badOperand

/-- An endpoint type, by its EP_TYPE code (R34). -/
def getType : List Byte → Except Reject (EpType × List Byte)
  | [] => .error .truncated
  | b :: bs => if b.toNat < 4 then .ok (EpType.ofCode (b.setWidth 2), bs) else .error .badOperand

/-- An endpoint status, by its STAT code (R33). -/
def getStatus : List Byte → Except Reject (Status × List Byte)
  | [] => .error .truncated
  | b :: bs => if b.toNat < 4 then .ok (Status.ofCode (b.setWidth 2), bs) else .error .badOperand

/-- One of PMAOVR, ERR, SOF, ESOF, in R313's order. -/
def getOther : List Byte → Except Reject (OtherEvent × List Byte)
  | [] => .error .truncated
  | b :: bs =>
    if b = 0 then .ok (.pmaovr, bs)
    else if b = 1 then .ok (.err, bs)
    else if b = 2 then .ok (.sof, bs)
    else if b = 3 then .ok (.esof, bs)
    else .error .badOperand

/-- A 16-bit word, low byte first. -/
def getWord : List Byte → Except Reject (Word × List Byte)
  | lo :: hi :: bs => .ok (hi ++ lo, bs)
  | _ => .error .truncated

/-- An optional endpoint address: 0 for none, or 1 and the address. -/
def getReq (bs : List Byte) : Except Reject (Option Byte × List Byte) := do
  let (some?, bs) ← getBool bs
  if some? then
    let (a, bs) ← getByte bs
    return (some a, bs)
  else return (none, bs)

/-- An optional reset capability: 0 for none, or 1, the pin and the delay. -/
def getCap (bs : List Byte) : Except Reject (Option ResetCap × List Byte) := do
  let (some?, bs) ← getBool bs
  if some? then
    let (pin, bs) ← getNat bs
    let (delay, bs) ← getNat bs
    return (some ⟨pin, delay⟩, bs)
  else return (none, bs)

/-- The instruction, if only padding zeros follow its bytes. -/
def finish (i : Instr) (rest : List Byte) : Except Reject Instr :=
  if rest.all (· == 0) then .ok i else .error .trailing

/-! ## The decoder -/

/-- An operation call: a selector (R125) and its arguments in R125's order. -/
def decodeCall : List Byte → Except Reject Instr
  | [] => .error .truncated
  | sel :: bs =>
    match sel.toNat with
    | 0x00 => do let (c, bs) ← getCap bs; finish (.construct c) bs
    | 0x01 => do let (n, bs) ← getNat bs; finish (.pmaAllocate n) bs
    | 0x02 => do let (n, bs) ← getU7 bs; finish (.pmaDescriptor n) bs
    | 0x03 => do let (off, bs) ← getNat bs; let (len, bs) ← getNat bs; finish (.pmaRead off len) bs
    | 0x04 => do let (off, bs) ← getNat bs; let (src, bs) ← getBytes bs; finish (.pmaWrite off src) bs
    | 0x05 => do let (n, bs) ← getNat bs; finish (.encodeReceiveSize n) bs
    | 0x10 => do let (n, bs) ← getU7 bs; let (t, bs) ← getType bs; finish (.epConfigure n t) bs
    | 0x11 => do
      let (n, bs) ← getU7 bs; let (d, bs) ← getDir bs; let (st, bs) ← getStatus bs; finish (.epSetStatus n d st) bs
    | 0x12 => do let (n, bs) ← getU7 bs; let (d, bs) ← getDir bs; finish (.epClearCtr n d) bs
    | 0x13 => do let (n, bs) ← getU7 bs; finish (.epSnapshot n) bs
    | 0x18 => do let (n, bs) ← getU7 bs; let (w, bs) ← getWord bs; finish (.eprWrite n w) bs
    | 0x19 => do let (w, bs) ← getWord bs; finish (.istrWrite w) bs
    | 0x20 => do
      let (d, bs) ← getDir bs; let (req, bs) ← getReq bs; let (t, bs) ← getType bs; let (mps, bs) ← getNat bs
      finish (.allocateEndpoint d req t mps) bs
    | 0x30 => finish .reset bs
    | 0x31 => do let (a, bs) ← getByte bs; let (src, bs) ← getBytes bs; finish (.write a src) bs
    | 0x32 => do let (a, bs) ← getByte bs; let (len, bs) ← getNat bs; finish (.read a len) bs
    | 0x33 => do let (a, bs) ← getByte bs; finish (.stall a) bs
    | 0x34 => do let (a, bs) ← getByte bs; finish (.unstall a) bs
    | 0x40 => finish .poll bs
    | 0x50 => finish .enable bs
    | 0x51 => do let (a, bs) ← getByte bs; finish (.setDeviceAddress a) bs
    | 0x52 => finish .suspend bs
    | 0x53 => finish .resume bs
    | 0x54 => finish .forceReset bs
    | 0x80 => finish .busReset bs
    | 0x81 => do
      let (e, bs) ← getU4 bs; let (data, bs) ← getBytes bs; let (fresh, bs) ← getBool bs
      finish (.busOut e data fresh) bs
    | 0x82 => do let (e, bs) ← getU4 bs; let (data, bs) ← getSetup bs; finish (.busSetup e data) bs
    | 0x83 => do let (e, bs) ← getU4 bs; let (acked, bs) ← getBool bs; finish (.busIn e acked) bs
    | 0x84 => finish .busSuspend bs
    | 0x85 => do let (dp, bs) ← getBool bs; let (dm, bs) ← getBool bs; finish (.busWakeup dp dm) bs
    | 0x86 => do let (dp, bs) ← getBool bs; let (dm, bs) ← getBool bs; finish (.busLine dp dm) bs
    | 0x87 => do let (which, bs) ← getOther bs; finish (.busOtherEvent which) bs
    | _ => .error .unknownSelector

/-- The fields of an EPR word, cut where R112 puts them. -/
def wordType (w : Word) : EpType := EpType.ofCode (w.extractLsb' 9 2)

/-- The instruction of a written word whose row is known; `slot` is the EPR it goes to, where the word itself does
not say (log entry 3). -/
def decodeRow (r : WordRow) (w : Word) (slot : Nat) : Except Reject Instr :=
  let t := wordType w
  let k := w.getLsbD 8
  let a := w.extractLsb' 0 4
  match r with
  | .configure => if slot = 0 then .ok (.epwConfigure t k a) else .error .badOperand
  | .setStatusOut => .ok (.epwSetStatusOut slot (w.extractLsb' 12 2) t k a)
  | .setStatusIn => .ok (.epwSetStatusIn slot (w.extractLsb' 4 2) t k a)
  | .clearCtrOut => .ok (.epwClearCtrOut slot t k a)
  | .clearCtrIn => .ok (.epwClearCtrIn slot t k a)
  | .clearWkup => if slot = 0 then .ok .istrwClearWkup else .error .badOperand
  | .clearReset => if slot = 0 then .ok .istrwClearReset else .error .badOperand
  | .clearSusp => if slot = 0 then .ok .istrwClearSusp else .error .badOperand
  | .clearAll => if slot = 0 then .ok .istrwClearAll else .error .badOperand
  | .daddrSet => if slot = 0 then .ok (.daddrwSet (w.extractLsb' 0 7)) else .error .badOperand

/-- A written word: the word, low byte first, the byte that names its row, the slot (log entry 3). -/
def decodeWord (bs : List Byte) : Except Reject Instr := do
  let (w, bs) ← getWord bs
  let (tag, bs) ← getByte bs
  let (slot, bs) ← getU7 bs
  let r ← wordRowOf tag w
  let i ← decodeRow r w slot
  finish i bs

/-- The instruction an encoded command stands for, or why there is none (R125: "A selector not in this table spells no
command, and a model refuses it"). -/
def decode (c : Encoded) : Except Reject Instr :=
  match c.form with
  | .call => decodeCall c.bytes
  | .word => decodeWord c.bytes

/-! ## The encoder -/

/-- A natural number, 7 bits a byte; `fuel` bytes may carry the continuation bit. -/
def putNatFuel : Nat → Nat → List Byte
  | 0, n => [BitVec.ofNat 8 n]
  | fuel + 1, n =>
    if n < 128 then [BitVec.ofNat 8 n] else BitVec.ofNat 8 (128 + n % 128) :: putNatFuel fuel (n / 128)

/-- A natural number of any size (see `getNat`); `n` bytes are more than it needs. -/
def putNat (n : Nat) : List Byte := putNatFuel n n

/-- A byte array: its length, then its bytes. -/
def putBytes (bs : List Byte) : List Byte := putNat bs.length ++ bs

/-- A Boolean or a bit. -/
def putBool (b : Bool) : List Byte := if b then [1] else [0]

/-- A direction. -/
def putDir : Dir → List Byte
  | .out => [0]
  | .inn => [1]

/-- An endpoint type, by its code. -/
def putType (t : EpType) : List Byte := [t.code.setWidth 8]

/-- A status, by its code. -/
def putStatus (st : Status) : List Byte := [st.code.setWidth 8]

/-- One of PMAOVR, ERR, SOF, ESOF. -/
def putOther : OtherEvent → List Byte
  | .pmaovr => [0]
  | .err => [1]
  | .sof => [2]
  | .esof => [3]

/-- A 16-bit word, low byte first. -/
def putWord (w : Word) : List Byte := [w.extractLsb' 0 8, w.extractLsb' 8 8]

/-- An optional endpoint address. -/
def putReq : Option Byte → List Byte
  | none => [0]
  | some a => [1, a]

/-- An optional reset capability. -/
def putCap : Option ResetCap → List Byte
  | none => [0]
  | some c => 1 :: (putNat c.pin ++ putNat c.delay)

/-- A `u7` index. -/
def putU7 (n : Nat) : List Byte := [BitVec.ofNat 8 n]

/-- A `u4` endpoint number. -/
def putU4 (e : BitVec 4) : List Byte := [e.setWidth 8]

/-- A call: its selector and its arguments. -/
def call (sel : Byte) (args : List Byte) : Encoded := ⟨.call, sel :: args⟩

/-- A written word: the word, its row's tag, the slot. -/
def written (r : WordRow) (w : Word) (slot : Nat) : Encoded := ⟨.word, putWord w ++ (r.tag :: putU7 slot)⟩

/-- The encoded command of an instruction. -/
def encode : Instr → Encoded
  | .construct c => call 0x00 (putCap c)
  | .pmaAllocate n => call 0x01 (putNat n)
  | .pmaDescriptor n => call 0x02 (putU7 n)
  | .pmaRead off len => call 0x03 (putNat off ++ putNat len)
  | .pmaWrite off src => call 0x04 (putNat off ++ putBytes src)
  | .encodeReceiveSize n => call 0x05 (putNat n)
  | .epConfigure n t => call 0x10 (putU7 n ++ putType t)
  | .epSetStatus n d st => call 0x11 (putU7 n ++ (putDir d ++ putStatus st))
  | .epClearCtr n d => call 0x12 (putU7 n ++ putDir d)
  | .epSnapshot n => call 0x13 (putU7 n)
  | .eprWrite n w => call 0x18 (putU7 n ++ putWord w)
  | .istrWrite w => call 0x19 (putWord w)
  | .allocateEndpoint d req t mps => call 0x20 (putDir d ++ (putReq req ++ (putType t ++ putNat mps)))
  | .reset => call 0x30 []
  | .write a src => call 0x31 (a :: putBytes src)
  | .read a len => call 0x32 (a :: putNat len)
  | .stall a => call 0x33 [a]
  | .unstall a => call 0x34 [a]
  | .poll => call 0x40 []
  | .enable => call 0x50 []
  | .setDeviceAddress a => call 0x51 [a]
  | .suspend => call 0x52 []
  | .resume => call 0x53 []
  | .forceReset => call 0x54 []
  | .busReset => call 0x80 []
  | .busOut e data fresh => call 0x81 (putU4 e ++ (putBytes data ++ putBool fresh))
  | .busSetup e data => call 0x82 (putU4 e ++ data.toList)
  | .busIn e acked => call 0x83 (putU4 e ++ putBool acked)
  | .busSuspend => call 0x84 []
  | .busWakeup dp dm => call 0x85 (putBool dp ++ putBool dm)
  | .busLine dp dm => call 0x86 (putBool dp ++ putBool dm)
  | .busOtherEvent which => call 0x87 (putOther which)
  | .epwConfigure t k n => written .configure (epwConfigureWord t k n) 0
  | .epwSetStatusOut slot ss t k a => written .setStatusOut (epwSetStatusOutWord ss t k a) slot
  | .epwSetStatusIn slot ss t k a => written .setStatusIn (epwSetStatusInWord ss t k a) slot
  | .epwClearCtrOut slot t k a => written .clearCtrOut (epwClearCtrOutWord t k a) slot
  | .epwClearCtrIn slot t k a => written .clearCtrIn (epwClearCtrInWord t k a) slot
  | .istrwClearWkup => written .clearWkup istrwClearWkupWord 0
  | .istrwClearReset => written .clearReset istrwClearResetWord 0
  | .istrwClearSusp => written .clearSusp istrwClearSuspWord 0
  | .istrwClearAll => written .clearAll istrwClearAllWord 0
  | .daddrwSet a => written .daddrSet (daddrwSetWord a) 0

/-! ## The opcode table's words -/

/-- The low `n` bytes of a number, the low byte first. -/
def lowBytes : Nat → Nat → List Byte
  | 0, _ => []
  | n + 1, w => BitVec.ofNat 8 w :: lowBytes n (w / 256)

/-- The operand bytes the table gives no bits, all zero: more than any all-zero operands need. -/
def zeroOperands : List Byte := List.replicate 16 0

/-- The encoded command whose table bits are `w`: 8 bits are a call's selector, 16 a written word; operands are zero. -/
def tableCommand (nbits w : Nat) : Encoded :=
  ⟨if nbits ≤ 8 then .call else .word, lowBytes (nbits / 8) w ++ zeroOperands⟩

/-- The instruction the decoder reads from the bits of an opcode-table row. -/
def decodeTableWord (nbits w : Nat) : Option Instr :=
  match decode (tableCommand nbits w) with
  | .ok i => some i
  | .error _ => none

end Sys2Proof
end

