-- ==== Sys2Proof/Machine/State.lean ====
section
/-! DEFINITION. The state of the machine, as plain data (files 10_state.md, 45_bus_engine.md rule R307, 70_reset_and_hazards.md rule R380), the reasons it can stop
(rule R352), and the state after a system reset. -/

namespace Sys2Proof.Machine

/-- The error results of driver operations (R350). -/
inductive ErrorKind where
  | endpointTaken
  | endpointOverflow
  | invalidEndpoint
  | busy
  | noData
  | bufferOverflow
  | unsupported
  deriving DecidableEq, Repr

/-- The event `poll` returns (R280). Bit `i` of a mask stands for slot `i`. -/
inductive PollEvent where
  | resume
  | reset
  | suspend
  | data (outMask inMask setupMask : Word)
  | none
  deriving DecidableEq, Repr

/-- The handle `pma_descriptor` returns: the packet-memory offsets of a slot's four descriptor fields (R192). -/
structure Descriptor where
  addrTx  : Nat
  countTx : Nat
  addrRx  : Nat
  countRx : Nat
  deriving DecidableEq, Repr

/-- What the last driver operation returned to its caller (R13). -/
inductive Result where
  /-- No value: the operation returns nothing, or none has run yet. -/
  | unit
  /-- The offset `pma_allocate` returns (R190). -/
  | offset (off : Nat)
  /-- The handle `pma_descriptor` returns (R192). -/
  | descriptor (d : Descriptor)
  /-- The bytes `pma_read` puts into its destination (R194). -/
  | bytes (dest : List Byte)
  /-- The rounded size and the encoding `encode_receive_size` returns (R200). -/
  | encoded (rsize : Nat) (enc : Word)
  /-- The register value `ep_snapshot` returns (R176). -/
  | register (w : Word)
  /-- The endpoint address `allocate_endpoint` returns (R228). -/
  | address (addr : Byte)
  /-- The number of bytes `write` returns (R245). -/
  | written (len : Nat)
  /-- The count `read` returns, and the bytes it puts into the caller's buffer (R252). -/
  | received (count : Nat) (buf : List Byte)
  /-- The event `poll` returns (R280). -/
  | event (e : PollEvent)
  /-- An error result (R350). -/
  | error (k : ErrorKind)
  deriving DecidableEq, Repr

/-- The answer the host sees to a transaction (R307). -/
inductive Handshake where
  | ack
  | nak
  | stall
  | none
  deriving DecidableEq, Repr

/-- The host-visible events (R307). A byte of packet memory that is `undef` is sent as `none` (R306). -/
inductive HostEvent where
  | sent (n : Slot) (bytes : List (Option Byte))
  | handshake (n : Slot) (d : Dir) (h : Handshake)
  deriving DecidableEq, Repr

/-- A slot's endpoint record (R47). -/
structure EpRecord where
  /-- `ep[n].type`. -/
  type : Option EpType
  /-- `ep[n].out`: the OUT direction is allocated. -/
  out  : Bool
  /-- `ep[n].in`: the IN direction is allocated. -/
  inn  : Bool
  deriving DecidableEq, Repr

/-- The lifecycle phase (R52). -/
inductive Phase where
  | configured
  | enabled
  deriving DecidableEq, Repr

/-- The level of the reset output (R51). -/
inductive PinLevel where
  | low
  | high
  | unknown
  deriving DecidableEq, Repr

/-- The reasons the machine stops with a fault: exactly the spec's (R352). Each is safe: no property of a final state
holds past one. -/
inductive Fault where
  /-- The EPR gate and the register-view operations, for a slot that does not exist (R150 to R176). Safe. -/
  | noSuchRegister
  /-- `pma_descriptor`, for a slot that does not exist (R192). Safe. -/
  | noSuchDescriptor
  /-- `stall` and `unstall`, for an index that names no slot (R255, R256). Safe. -/
  | noSuchEndpoint
  /-- A packet-memory access at an odd offset (R84). Safe. -/
  | pmaMisaligned
  /-- A packet-memory access past `PMA_SIZE` (R84). Safe. -/
  | pmaOutOfRange
  /-- A descriptor read or a copy that uses an `undef` byte (R193, R194). Safe. -/
  | undefRead
  /-- `write` with a payload longer than the IN buffer (R246). Safe. -/
  | writeExceedsBuffer
  /-- `allocate_endpoint` after `enable` (R223). Safe. -/
  | allocateAfterEnable
  /-- `set_device_address` with an address above 127 (R333). Safe. -/
  | addressOutOfRange
  /-- A bus transaction on an isochronous slot (R301(d)). Safe. -/
  | isochronousUnmodelled
  /-- A reception into a buffer of declared capacity 0 (R301(e)). Safe. -/
  | zeroCapacityReceive
  deriving DecidableEq, Repr

/-- The reasons the machine refuses to go on. -/
inductive Refusal where
  /-- Only `exec` raises it, for an instruction that has no meaning yet. Safe. -/
  | notModelled (mnemonic : String)
  /-- `step` raises it: the command at the program position is no command of the table (R125). Safe. -/
  | undecodable (why : Reject)
  /-- `step` raises it: the program, a finite sequence (R31), holds no command at its position. Safe. -/
  | programEnd
  /-- A bus-engine step raises it: the host broke a duty of R308(a) with a packet that would be stored, and the step has
  no move (I9). Unsafe where a real
  host breaks the duty, and the spec assumes it does not (log entry 9). -/
  | hostDutyBroken
  deriving DecidableEq, Repr

/-- The state: the hardware's registers and packet memory, the driver's records, the environment the spec gives the
block (reset pin, host event history), the caller's view of the last operation, and the model's own fields. -/
structure State where
  /-- The endpoint registers EPR (R30, R32). -/
  epr       : Vector Word 8
  /-- The control register CNTR (R40). -/
  cntr      : Word
  /-- The latched flags of the interrupt-status register ISTR, bits 14 to 8 (R41); bit 15 is not stored (R42). -/
  istr      : Word
  /-- The frame-number register FNR (R43). -/
  fnr       : Word
  /-- The device-address register DADDR (R44). -/
  daddr     : Word
  /-- The descriptor-table base register BTABLE (R45). -/
  btable    : Word
  /-- Packet memory: the bytes that hold a value, by local offset, offsets strictly rising; an unlisted byte is `undef`
  (R54). -/
  pma       : List Host.Cell
  /-- The endpoint records (R47). -/
  ep        : Vector EpRecord 8
  /-- The ghost capacities of the OUT buffers (R53). -/
  rxCap     : Vector Nat 8
  /-- The ghost capacities of the IN buffers (R53). -/
  txCap     : Vector Nat 8
  /-- The arena's first unallocated offset, `next_free` (R49). -/
  nextFree  : Nat
  /-- The cached highest index, `max_index` (R50). -/
  maxIndex  : Slot
  /-- The lifecycle phase (R52). -/
  phase     : Phase
  /-- The reset capability (R51). -/
  resetCap  : Option ResetCap
  /-- The level of the reset output (R51). -/
  pinLevel  : PinLevel
  /-- The host-visible event history, oldest first (R307). -/
  events    : List HostEvent
  /-- What the last driver operation returned to its caller (R13). -/
  result    : Result
  /-- The program: a finite sequence of encoded commands (R31). -/
  program   : List Encoded
  /-- The position in the program (R31). -/
  pos       : Nat
  /-- The model's own: the bus-engine steps the environment places before each coming register or packet-memory access
  of the driver, the next access first (R14, R90, R300; log entry 4). -/
  sched     : List (List BusStep)
  /-- The model's own: how many reads have drawn free bits so far (I2, I3; log entry 5). -/
  draws     : Nat
  deriving DecidableEq, Repr

/-- The machine right after a system reset (R380), with the driver constructed and no reset capability (R381, log entry 7).
The fields the spec gives no value for are named in log entries 1 and 4 to 7. -/
def State.reset : State where
  epr := Vector.replicate 8 0x0000
  cntr := 0x0003
  istr := 0x0000
  fnr := 0x0000
  daddr := 0x0000
  btable := 0x0000
  pma := []
  ep := Vector.replicate 8 ⟨none, false, false⟩
  rxCap := Vector.replicate 8 0
  txCap := Vector.replicate 8 0
  nextFree := Config.bdTable
  maxIndex := 0
  phase := .configured
  resetCap := none
  pinLevel := .unknown
  events := []
  result := .unit
  program := []
  pos := 0
  sched := []
  draws := 0

end Sys2Proof.Machine
end

