-- ==== Sys2Proof/Machine/Operands.lean ====
section
/-! DEFINITION. Operand forms: the endpoint-address byte (rule R111), slots, byte order (R82), the register map (R80), the
descriptor fields (R86, R192) and the receive-size encoding (R120, R200). -/

namespace Sys2Proof.Machine

/-! ## Slots and endpoint addresses -/

/-- Every slot, in index order. -/
def allSlots : List Slot := [0, 1, 2, 3, 4, 5, 6, 7]

/-- The slot an index names, if there is one (R16, D13). -/
def slotOf (n : Nat) : Option Slot := if h : n < Config.nEp then some ⟨n, h⟩ else none

/-- `dir(addr)` (R111). -/
def addrDir (addr : Byte) : Dir := if addr.getLsbD 7 then .inn else .out

/-- `index(addr) = addr[6:0]` (R111). -/
def addrIndex (addr : Byte) : Nat := (addr.extractLsb' 0 7).toNat

/-- `ep_addr(i, d)` (R111). -/
def epAddr (i : Slot) (d : Dir) : Byte :=
  (match d with | .inn => 0x80#8 | .out => 0x00#8) ||| BitVec.ofNat 8 i

/-- `round_up(n, k)` (R10). -/
def roundUp (n k : Nat) : Nat := (n + k - 1) / k * k

/-! ## Byte order -/

/-- The byte of a word at the even offset (R82). -/
def lowByte (w : Word) : Byte := w.extractLsb' 0 8

/-- The byte of a word at the odd offset (R82). -/
def highByte (w : Word) : Byte := w.extractLsb' 8 8

/-- The word two bytes make, the byte at the even offset first (R82). -/
def wordOfBytes (lo hi : Byte) : Word := hi ++ lo

/-! ## The register map -/

/-- The peripheral registers (R80). -/
inductive Reg where
  | epr (n : Slot)
  | cntr
  | istr
  | fnr
  | daddr
  | btable
  deriving DecidableEq, Repr

/-- A register's offset from `USB_BASE` (R80). -/
def Reg.offset : Reg → Nat
  | .epr n => 0x00 + 4 * n
  | .cntr => 0x40
  | .istr => 0x44
  | .fnr => 0x48
  | .daddr => 0x4C
  | .btable => 0x50

/-- A register's CPU byte address (R80); for an EPR, the handle of its register view (R178). -/
def Reg.address (r : Reg) : Nat := Config.usbBase + r.offset

/-- The CPU byte address of a packet-memory word (R80). -/
def pmaAddress (off : Nat) : Nat := Config.pmaBase + 2 * off

/-! ## Buffer descriptors -/

/-- The four fields of a buffer descriptor (R86). -/
inductive BdField where
  | addrTx
  | countTx
  | addrRx
  | countRx
  deriving DecidableEq, Repr

/-- A field's word offset in its entry (R86). -/
def BdField.offset : BdField → Nat
  | .addrTx => 0
  | .countTx => 2
  | .addrRx => 4
  | .countRx => 6

/-- The packet-memory offset of a field of a slot's descriptor, for a table at `base` (R86, R192). -/
def bdOffset (base : Nat) (n : Slot) (f : BdField) : Nat := base + Config.bdEntry * n + f.offset

/-- The handle of a slot's descriptor (R192). -/
def descriptorOf (n : Slot) : Descriptor where
  addrTx := bdOffset Config.driverBdBase n .addrTx
  countTx := bdOffset Config.driverBdBase n .countTx
  addrRx := bdOffset Config.driverBdBase n .addrRx
  countRx := bdOffset Config.driverBdBase n .countRx

/-! ## The receive-size encoding -/

/-- The capacity a COUNT_RX word declares (R120). -/
def capacity (w : Word) : Nat :=
  if w.getLsbD 15 then 32 * ((w.extractLsb' 10 5).toNat + 1) else 2 * (w.extractLsb' 10 5).toNat

/-- The count field of a COUNT_RX or COUNT_TX word, bits 9:0 (R119, R120). -/
def countField (w : Word) : Nat := (w.extractLsb' 0 10).toNat

/-- A COUNT_RX word with a new count, bits 15:10 unchanged (R304). -/
def withCount (w : Word) (len : Nat) : Word := (w &&& 0xFC00) ||| (BitVec.ofNat 16 len &&& 0x03FF)

/-- `encode_receive_size(size)` (R200). -/
def encodeReceiveSize (size : Nat) : Except ErrorKind (Nat × Word) :=
  if size ≤ Config.rxFineMax then
    let rsize := roundUp size 2
    .ok (rsize, BitVec.ofNat 16 (rsize / 2) <<< 10)
  else if size ≤ Config.rxCoarseMax then
    let rsize := roundUp size 32
    .ok (rsize, 0x8000#16 ||| (BitVec.ofNat 16 (rsize / 32 - 1) <<< 10))
  else .error .endpointOverflow

/-- The numeric code of an error kind (R350). -/
def ErrorKind.code : ErrorKind → Nat
  | .endpointTaken => 1
  | .endpointOverflow => 2
  | .invalidEndpoint => 3
  | .busy => 4
  | .noData => 5
  | .bufferOverflow => 6
  | .unsupported => 7

end Sys2Proof.Machine
end

