-- ==== Sys2Proof/Machine/Flags.lean ====
section
/-! DEFINITION. Fields and flags of the registers (rules R32, R40 to R45), the write gates (R150, R160, R161), the words the
register view writes (R113, R114, R127), and the field updates the hardware itself makes (file 45_bus_engine.md). -/

namespace Sys2Proof.Machine

/-! ## Fields of an EPR (R32) -/

/-- The CTR flag of a direction: bit 15 (CTR_RX) or bit 7 (CTR_TX). -/
def ctrOf (d : Dir) (r : Word) : Bool :=
  match d with
  | .out => r.getLsbD 15
  | .inn => r.getLsbD 7

/-- The mask of a direction's CTR flag, `ctr_d` (R127). -/
def ctrMask : Dir → Word
  | .out => 0x8000
  | .inn => 0x0080

/-- The lowest bit of a direction's STAT field, `pos_d` (R127). -/
def statPos : Dir → Nat
  | .out => 12
  | .inn => 4

/-- The STAT field of a direction, `stat_d(r)` (R127). -/
def statOf (d : Dir) (r : Word) : BitVec 2 := r.extractLsb' (statPos d) 2

/-- The status of a direction (R33). -/
def statusOf (d : Dir) (r : Word) : Status := Status.ofCode (statOf d r)

/-- The data toggle of a direction: bit 14 (DTOG_RX) or bit 6 (DTOG_TX). -/
def dtogOf (d : Dir) (r : Word) : Bool :=
  match d with
  | .out => r.getLsbD 14
  | .inn => r.getLsbD 6

/-- The SETUP flag, bit 11. -/
def setupOf (r : Word) : Bool := r.getLsbD 11

/-- The endpoint type of the EP_TYPE field, bits 10:9 (R34). -/
def typeOf (r : Word) : EpType := EpType.ofCode (r.extractLsb' 9 2)

/-- EP_KIND, bit 8. -/
def kindOf (r : Word) : Bool := r.getLsbD 8

/-- The EA field, bits 3:0 (R37). -/
def eaOf (r : Word) : BitVec 4 := r.extractLsb' 0 4

/-- The status `unstall` returns a direction to (R16, R256). -/
def ready : Dir → Status
  | .out => .valid
  | .inn => .nak

/-! ## Write gates -/

/-- The EPR write gate (R150). -/
def gateEpr (r w : Word) : Word :=
  ((r &&& w) &&& 0x8080) ||| ((r ^^^ w) &&& 0x7070) ||| (r &&& 0x0800) ||| (w &&& 0x070F)

/-- The ISTR write gate on the latched flags, bits 14 to 8 (R160). -/
def gateIstr (r w : Word) : Word := r &&& w &&& 0x7F00

/-- The CNTR gate: plain storage of the bits that are not reserved (R161). -/
def gateCntr (w : Word) : Word := w &&& 0xFF1F

/-- The DADDR gate (R161). -/
def gateDaddr (w : Word) : Word := w &&& 0x00FF

/-- The BTABLE gate (R161). -/
def gateBtable (w : Word) : Word := w &&& 0xFFF8

/-! ## The words the register view writes, from the value it read -/

/-- The keep word (R113). -/
def keep (r : Word) : Word := (r &&& 0x070F) ||| 0x8080

/-- The word of `ep_configure(n, t)` (R114, R170). -/
def configureWord (r : Word) (n : Slot) (t : EpType) : Word :=
  0x8080 ||| (r &&& 0x0100) ||| (t.code.setWidth 16 <<< 9) ||| BitVec.ofNat 16 n

/-- The word of `ep_set_status(n, d, s)` (R114, R172). -/
def setStatusWord (r : Word) (d : Dir) (st : Status) : Word :=
  keep r ||| ((statOf d r ^^^ st.code).setWidth 16 <<< statPos d)

/-- The word of `ep_clear_ctr(n, d)` (R114, R174). -/
def clearCtrWord (r : Word) (d : Dir) : Word := keep r &&& ~~~ ctrMask d

/-! ## Updates the hardware makes to an EPR -/

/-- `STAT_d := s`. -/
def setStat (d : Dir) (st : Status) (r : Word) : Word :=
  (r &&& ~~~ (0b11#16 <<< statPos d)) ||| (st.code.setWidth 16 <<< statPos d)

/-- `CTR_d := 1`. -/
def setCtr (d : Dir) (r : Word) : Word := r ||| ctrMask d

/-- `SETUP := b`. -/
def setSetup (b : Bool) (r : Word) : Word := if b then r ||| 0x0800 else r &&& 0xF7FF

/-- The mask of a direction's data toggle. -/
def dtogMask : Dir → Word
  | .out => 0x4000
  | .inn => 0x0040

/-- `DTOG_d := DTOG_d ^ 1`. -/
def flipDtog (d : Dir) (r : Word) : Word := r ^^^ dtogMask d

/-- `DTOG_d := 1`. -/
def setDtog (d : Dir) (r : Word) : Word := r ||| dtogMask d

/-- The EPR after an accepted OUT packet (R304). -/
def eprAfterOut (r : Word) : Word := setCtr .out (setStat .out .nak (flipDtog .out (setSetup false r)))

/-- The EPR after a SETUP packet (R305; log entry 14). DEDUCED: STAT_TX leaves Valid by it too, which R306's closing sentence does
not list (log entry 30). -/
def eprAfterSetup (r : Word) : Word :=
  setStat .inn .nak (setStat .out .nak (setDtog .inn (setDtog .out (setCtr .out (setSetup true r)))))

/-- The EPR after an acknowledged IN transaction (R306). -/
def eprAfterIn (r : Word) : Word := setCtr .inn (setStat .inn .nak (flipDtog .inn r))

/-! ## Fields of the other registers -/

/-- CNTR.PDWN (R40). -/
def pdwn (c : Word) : Bool := c.getLsbD 1

/-- CNTR.FRES (R40). -/
def fres (c : Word) : Bool := c.getLsbD 0

/-- CNTR.LP_MODE (R40). -/
def lpMode (c : Word) : Bool := c.getLsbD 2

/-- CNTR.FSUSP (R40). -/
def fsusp (c : Word) : Bool := c.getLsbD 3

/-- DADDR.EF (R44). -/
def ef (a : Word) : Bool := a.getLsbD 7

/-- ISTR.WKUP (R41). -/
def wkupFlag : Word := 0x1000

/-- ISTR.SUSP (R41). -/
def suspFlag : Word := 0x0800

/-- ISTR.RESET (R41). -/
def resetFlag : Word := 0x0400

/-- The ISTR flag an other event latches (R41, R313). -/
def otherFlag : OtherEvent → Word
  | .pmaovr => 0x4000
  | .err => 0x2000
  | .sof => 0x0200
  | .esof => 0x0100

/-- FNR with its line-state bits RXDP and RXDM replaced (R43, R311, R312). -/
def withLines (f : Word) (dp dm : Bool) : Word :=
  (f &&& 0x3FFF) ||| (if dp then 0x8000 else 0x0000) ||| (if dm then 0x4000 else 0x0000)

end Sys2Proof.Machine
end

