-- ==== Sys2Proof/Machine/Memory.lean ====
section
/-! DEFINITION. Packet memory as plain data (rule R54): the bytes that hold a value, offsets strictly rising. A byte that
is not listed is `undef`; writing `undef` takes the entry out. -/

namespace Sys2Proof.Machine

/-- Packet-memory content: the bytes that hold a value, by local offset. -/
abbrev Memory := List Host.Cell

/-- The byte at a local offset; `none` is the spec's `undef` (R54). -/
def Memory.byte : Memory → Nat → Option Byte
  | [], _ => none
  | (k, b) :: m, a => if k = a then some b else Memory.byte m a

/-- Store one byte. -/
def Memory.put : Memory → Nat → Byte → Memory
  | [], a, b => [(a, b)]
  | (k, c) :: m, a, b =>
    if a < k then (a, b) :: (k, c) :: m else if a = k then (a, b) :: m else (k, c) :: Memory.put m a b

/-- Make one byte `undef`. -/
def Memory.erase : Memory → Nat → Memory
  | [], _ => []
  | (k, c) :: m, a => if k = a then Memory.erase m a else (k, c) :: Memory.erase m a

/-- Store bytes at consecutive offsets: the first byte lies lowest (R82). -/
def Memory.putAll : Memory → Nat → List Byte → Memory
  | m, _, [] => m
  | m, a, b :: bs => Memory.putAll (Memory.put m a b) (a + 1) bs

/-- Make `n` consecutive bytes `undef`. -/
def Memory.eraseAll : Memory → Nat → Nat → Memory
  | m, _, 0 => m
  | m, a, n + 1 => Memory.eraseAll (Memory.erase m a) (a + 1) n

/-- `n` consecutive bytes. -/
def Memory.bytes (m : Memory) : Nat → Nat → List (Option Byte)
  | _, 0 => []
  | a, n + 1 => Memory.byte m a :: Memory.bytes m (a + 1) n

/-- Every listed offset is at least `lo` and below `PMA_SIZE`, and the offsets rise strictly. -/
def Memory.risingFrom : Nat → Memory → Bool
  | _, [] => true
  | lo, (k, _) :: m => decide (lo ≤ k) && decide (k < Config.pmaSize) && Memory.risingFrom (k + 1) m

/-- The canonical form: equal packet-memory contents are equal lists. -/
def Memory.wf (m : Memory) : Bool := Memory.risingFrom 0 m

end Sys2Proof.Machine
end

