-- ==== Sys2Proof/Machine/Update.lean ====
section
/-! DEFINITION. The named updates of the state, one field each. Sys2Proof/Laws/State.lean says what each does to every field. -/

namespace Sys2Proof.Machine

/-- EPR[n] := w. -/
def State.setEpr (s : State) (n : Slot) (w : Word) : State := { s with epr := s.epr.set n w }

/-- every ep[n] := r. -/
def State.setAllEp (s : State) (r : EpRecord) : State := { s with ep := Vector.replicate 8 r }

/-- every rx_cap[n] := c. -/
def State.setAllRxCap (s : State) (c : Nat) : State := { s with rxCap := Vector.replicate 8 c }

/-- every tx_cap[n] := c. -/
def State.setAllTxCap (s : State) (c : Nat) : State := { s with txCap := Vector.replicate 8 c }

/-- every EPR := w. -/
def State.setAllEpr (s : State) (w : Word) : State := { s with epr := Vector.replicate 8 w }

/-- CNTR := w. -/
def State.setCntr (s : State) (w : Word) : State := { s with cntr := w }

/-- ISTR := w. -/
def State.setIstr (s : State) (w : Word) : State := { s with istr := w }

/-- FNR := w. -/
def State.setFnr (s : State) (w : Word) : State := { s with fnr := w }

/-- DADDR := w. -/
def State.setDaddr (s : State) (w : Word) : State := { s with daddr := w }

/-- BTABLE := w. -/
def State.setBtable (s : State) (w : Word) : State := { s with btable := w }

/-- packet memory := m. -/
def State.setPma (s : State) (m : List Host.Cell) : State := { s with pma := m }

/-- ep[n] := r. -/
def State.setEp (s : State) (n : Slot) (r : EpRecord) : State := { s with ep := s.ep.set n r }

/-- rx_cap[n] := c. -/
def State.setRxCap (s : State) (n : Slot) (c : Nat) : State := { s with rxCap := s.rxCap.set n c }

/-- tx_cap[n] := c. -/
def State.setTxCap (s : State) (n : Slot) (c : Nat) : State := { s with txCap := s.txCap.set n c }

/-- next_free := off. -/
def State.setNextFree (s : State) (off : Nat) : State := { s with nextFree := off }

/-- max_index := n. -/
def State.setMaxIndex (s : State) (n : Slot) : State := { s with maxIndex := n }

/-- phase := p. -/
def State.setPhase (s : State) (p : Phase) : State := { s with phase := p }

/-- reset_cap := c. -/
def State.setResetCap (s : State) (c : Option ResetCap) : State := { s with resetCap := c }

/-- pin_level := l. -/
def State.setPinLevel (s : State) (l : PinLevel) : State := { s with pinLevel := l }

/-- the newest host-visible event is e. -/
def State.pushEvent (s : State) (e : HostEvent) : State := { s with events := s.events ++ [e] }

/-- the value returned to the caller is r. -/
def State.setResult (s : State) (r : Result) : State := { s with result := r }

/-- the program is p. -/
def State.setProgram (s : State) (p : List Encoded) : State := { s with program := p }

/-- the position in the program is p. -/
def State.setPos (s : State) (p : Nat) : State := { s with pos := p }

/-- the bus steps before the coming accesses are l. -/
def State.setSched (s : State) (l : List (List BusStep)) : State := { s with sched := l }

/-- one more read has drawn free bits. -/
def State.bumpDraws (s : State) : State := { s with draws := s.draws + 1 }

/-- The endpoint register of a slot. -/
def State.eprAt (s : State) (n : Slot) : Word := s.epr[n]

/-- The endpoint record of a slot. -/
def State.epAt (s : State) (n : Slot) : EpRecord := s.ep[n]

/-- The bytes allocated for a slot's IN buffer. -/
def State.txCapAt (s : State) (n : Slot) : Nat := s.txCap[n]

/-- The bytes allocated for a slot's OUT buffer. -/
def State.rxCapAt (s : State) (n : Slot) : Nat := s.rxCap[n]

end Sys2Proof.Machine
end

