-- ==== Sys2Proof/Machine/Ops.lean ====
section
/-! DEFINITION. The named operations over registers and packet memory: how an operation ends (rule R13), an error result
and a fault as ONE shared operation each (R350, R352; the block takes no trap, R359), the bus engine's atomic steps
(file 45_bus_engine.md), the driver's accesses with the bus steps that fall before them (R14, R90), and the operations
of the register view, the descriptor table and the arena that others are built on. -/

namespace Sys2Proof.Machine

/-! ## How an operation ends -/

/-- How an operation or a part of one ends: with a value and the state after it, or stopped (R13). -/
inductive Act (α : Type) where
  | done (v : α) (s : State)
  | fault (f : Fault)
  | refused (r : Refusal)

/-- Go on with the value and the state, unless stopped. -/
def Act.andThen {α β : Type} (a : Act α) (k : α → State → Act β) : Act β :=
  match a with
  | .done v s => k v s
  | .fault f => .fault f
  | .refused r => .refused r

/-- A check that stops with a fault or gives a value, the state unchanged. -/
def Act.ofExcept {α : Type} (x : Except Fault α) (s : State) : Act α :=
  match x with
  | .ok v => .done v s
  | .error f => .fault f

/-- `raise Error(kind)`: an ordinary result, returned to the caller (R13, R350). It transfers no control (R359). -/
def raise (k : ErrorKind) (s : State) : Act Result := .done (.error k) s

/-- The end of a driver operation: what it returns is what its caller sees (R13). -/
def Act.returning (a : Act Result) : Host.Outcome State Fault Refusal :=
  match a with
  | .done v s => .next (s.setResult v)
  | .fault f => .fault f
  | .refused r => .refused r

/-- The end of a driver operation that returns no value. -/
def Act.returningUnit (a : Act Unit) : Host.Outcome State Fault Refusal :=
  (a.andThen fun _ s => .done .unit s).returning

/-- The end of a bus-engine step: nothing is returned to the driver's caller. -/
def Act.silent (a : Act Unit) : Host.Outcome State Fault Refusal :=
  match a with
  | .done _ s => .next s
  | .fault f => .fault f
  | .refused r => .refused r

/-- Go on with the slot an index names, or stop with the fault given. -/
def onSlot {α : Type} (n : Nat) (f : Fault) (k : Slot → Act α) : Act α :=
  match slotOf n with
  | some i => k i
  | none => .fault f

/-! ## Values of registers -/

/-- Some endpoint has a transfer-complete flag set: ISTR.CTR (R42). -/
def State.anyCtr (s : State) : Bool := allSlots.any fun n => ctrOf .out (s.eprAt n) || ctrOf .inn (s.eprAt n)

/-- Bits 15 to 8 of ISTR as they read: the summary flag CTR and the latched flags (R41, R42). -/
def State.istrFlags (s : State) : Word := (s.istr &&& 0x7F00) ||| (if s.anyCtr then 0x8000 else 0x0000)

/-- FNR.RXDP, the level of D+ (R43). -/
def State.rxdp (s : State) : Bool := s.fnr.getLsbD 15

/-- FNR.RXDM, the level of D- (R43). -/
def State.rxdm (s : State) : Bool := s.fnr.getLsbD 14

/-- The value a read of a register gives (R11). The low bits of ISTR and FNR are free values (R42, R313; log entry 5). -/
def State.regValue (s : State) : Reg → Word
  | .epr n => s.eprAt n
  | .cntr => s.cntr
  | .istr => s.istrFlags ||| (Config.freeIstrLow s.draws).setWidth 16
  | .fnr => (s.fnr &&& 0xC000) ||| (Config.freeFnrLow s.draws).setWidth 16
  | .daddr => s.daddr
  | .btable => s.btable

/-- The 32-bit slot of a register as it reads: bits 31 to 16 are 0 (R9, D52). -/
def State.slotValue (s : State) (r : Reg) : BitVec 32 := (s.regValue r).setWidth 32

/-- The state after a read: it has no side effect (R11); a read that gives free bits draws anew (log entry 5). -/
def State.afterRead (s : State) : Reg → State
  | .istr => s.bumpDraws
  | .fnr => s.bumpDraws
  | _ => s

/-- The state after a written word went through the register's write gate (R150, R160, R161). -/
def State.storeReg (s : State) (r : Reg) (w : Word) : State :=
  match r with
  | .epr n => s.setEpr n (gateEpr (s.eprAt n) w)
  | .cntr => s.setCntr (gateCntr w)
  | .istr => s.setIstr (gateIstr s.istr w)
  | .fnr => s
  | .daddr => s.setDaddr (gateDaddr w)
  | .btable => s.setBtable (gateBtable w)

/-- The interrupt line toward the CPU: some source is pending and enabled (R356). -/
def State.usbIrq (s : State) : Bool := decide ((s.istrFlags &&& s.cntr) &&& 0xFF00 ≠ 0)

/-- The power states of the block (R370). -/
inductive PowerState where
  | poweredDown
  | heldInReset
  | running
  | suspended
  deriving DecidableEq, Repr

/-- The power state, read off CNTR (R56, R370). DESIGN CHOICE: where FSUSP = 1 together with PDWN = 1 or FRES = 1 the rows of
R370 overlap, and the model answers powered down, then held in reset, before suspended (log entry 23). R56's `Suspended`,
FSUSP = 1 without condition, is `fsusp`. -/
def State.powerState (s : State) : PowerState :=
  if pdwn s.cntr then .poweredDown else if fres s.cntr then .heldInReset
  else if fsusp s.cntr then .suspended else .running

/-- The device address while address recognition is on, `Addressed(a)` (R56). -/
def State.addressed (s : State) : Option (BitVec 7) :=
  if ef s.daddr then some (s.daddr.extractLsb' 0 7) else none

/-- The device state `Enabled` (R56). -/
def State.deviceEnabled (s : State) : Bool := decide (s.phase = .enabled) && !pdwn s.cntr && !fres s.cntr

/-! ## Packet-memory words -/

/-- A word access at a local offset: misaligned, then out of range, then the two bytes (R84, R353). -/
def pmaWord (m : Memory) (off : Nat) : Except Fault (Option Byte × Option Byte) :=
  if off % 2 ≠ 0 then .error .pmaMisaligned
  else if off + 2 > Config.pmaSize then .error .pmaOutOfRange
  else .ok (m.byte off, m.byte (off + 1))

/-- Both bytes of a word, which must hold values (R193). -/
def definedWord (w : Option Byte × Option Byte) : Except Fault Word :=
  match w with
  | (some lo, some hi) => .ok (wordOfBytes lo hi)
  | _ => .error .undefRead

/-- Packet memory with a word stored (R82). -/
def putPmaWord (m : Memory) (off : Nat) (w : Word) : Memory := (m.put off (lowByte w)).put (off + 1) (highByte w)

/-- A word store at a local offset, with the checks of R84. -/
def pmaStore (m : Memory) (off : Nat) (w : Word) : Except Fault Memory :=
  if off % 2 ≠ 0 then .error .pmaMisaligned
  else if off + 2 > Config.pmaSize then .error .pmaOutOfRange
  else .ok (putPmaWord m off w)

/-! ## The bus engine -/

/-- CNTR.PDWN = 0 and CNTR.FRES = 0: the bus engine runs (R301(a), R314). -/
def State.busOn (s : State) : Bool := !pdwn s.cntr && !fres s.cntr

/-- Transactions to the device are answered (R301(a), R301(b)). -/
def State.answering (s : State) : Bool := s.busOn && ef s.daddr

/-- The slot an endpoint number reaches: the lowest whose EA field holds it (R301(c)). -/
def State.route (s : State) (e : BitVec 4) : Option Slot := allSlots.find? fun n => eaOf (s.eprAt n) == e

/-- The handshake the host sees (R302, R307). -/
def State.answer (s : State) (n : Slot) (d : Dir) (h : Handshake) : State := s.pushEvent (.handshake n d h)

/-- A descriptor word as the bus engine reads it: its entry stands at the BTABLE register (R86; log entries 10, 16). -/
def State.busBd (s : State) (n : Slot) (f : BdField) : Except Fault Word :=
  match pmaWord s.pma (bdOffset s.btable.toNat n f) with
  | .ok w => definedWord w
  | .error e => .error e

/-- A buffer's offset in its descriptor word: the bus engine ignores bit 0 (R118). -/
def bufferOffset (w : Word) : Nat := (w &&& 0xFFFE).toNat

/-- A packet accepted into a slot's OUT buffer, as one atomic step (R304, R305): the data, `undef` behind it up to the
declared capacity, the received count, the endpoint register's new fields, and ACK to the host. `cnt` is the COUNT_RX
word. A packet longer than the declared capacity that would be stored breaks the host's duty and has no move (R308, I9;
log entry 9). DESIGN CHOICE: where the buffer covers the slot's own COUNT_RX word, bits 15:10 are those from before the
step, whatever the packet wrote there (log entry 25). -/
def receive (n : Slot) (data : List Byte) (cnt : Word) (after : Word → Word) (s : State) : Act Unit :=
  if data.length > capacity cnt then .refused .hostDutyBroken
  else
    match s.busBd n .addrRx with
    | .error f => .fault f
    | .ok a =>
      let off := bufferOffset a
      if off + capacity cnt > Config.pmaSize then .fault .pmaOutOfRange
      else
        let filled := Memory.eraseAll (Memory.putAll s.pma off data) (off + data.length) (capacity cnt - data.length)
        let counted := putPmaWord filled (bdOffset s.btable.toNat n .countRx) (withCount cnt data.length)
        .done () (((s.setPma counted).setEpr n (after (s.eprAt n))).answer n .out .ack)

/-- The COUNT_RX word of a slot that admits a reception; a declared capacity of 0 faults (R301(e)). -/
def withCapacity (n : Slot) (s : State) (k : Word → Act Unit) : Act Unit :=
  match s.busBd n .countRx with
  | .error f => .fault f
  | .ok cnt => if capacity cnt = 0 then .fault .zeroCapacityReceive else k cnt

/-- `bus_out` at the slot it reaches (R302, R303, R304). DEDUCED: the answers of Disabled, Stall and Nak, and of a
retransmission, hold for a packet of any length (log entry 9). -/
def busOutAt (n : Slot) (data : List Byte) (fresh : Bool) (s : State) : Act Unit :=
  match statusOf .out (s.eprAt n) with
  | .disabled => .done () (s.answer n .out .none)
  | .stall => .done () (s.answer n .out .stall)
  | .nak => .done () (s.answer n .out .nak)
  | .valid =>
    withCapacity n s fun cnt => if fresh then receive n data cnt eprAfterOut s else .done () (s.answer n .out .ack)

/-- `bus_setup` at the slot it reaches (R305): on a slot that is not Control, an OUT packet (I8). -/
def busSetupAt (n : Slot) (data : Vector Byte 8) (s : State) : Act Unit :=
  if typeOf (s.eprAt n) = .control then
    if statusOf .out (s.eprAt n) = .disabled then .done () (s.answer n .out .none)
    else withCapacity n s fun cnt => receive n data.toList cnt eprAfterSetup s
  else busOutAt n data.toList true s

/-- An IN transaction on a Valid direction (R306): the bytes the host gets, and on its ACK the endpoint register's new
fields. -/
def transmit (n : Slot) (acked : Bool) (s : State) : Act Unit :=
  match s.busBd n .countTx with
  | .error f => .fault f
  | .ok c =>
    match s.busBd n .addrTx with
    | .error f => .fault f
    | .ok a =>
      if countField c ≠ 0 ∧ bufferOffset a + countField c > Config.pmaSize then .fault .pmaOutOfRange
      else
        let s' := s.pushEvent (.sent n (Memory.bytes s.pma (bufferOffset a) (countField c)))
        if acked then .done () ((s'.setEpr n (eprAfterIn (s.eprAt n))).answer n .inn .ack)
        else .done () (s'.answer n .inn .none)

/-- `bus_in` at the slot it reaches (R302, R306). -/
def busInAt (n : Slot) (acked : Bool) (s : State) : Act Unit :=
  match statusOf .inn (s.eprAt n) with
  | .disabled => .done () (s.answer n .inn .none)
  | .stall => .done () (s.answer n .inn .stall)
  | .nak => .done () (s.answer n .inn .nak)
  | .valid => transmit n acked s

/-- A transaction to an endpoint number: no effect unless the device answers and a slot has that number; a fault on an
isochronous slot (R301). -/
def transaction (e : BitVec 4) (s : State) (k : Slot → Act Unit) : Act Unit :=
  if s.answering then
    match s.route e with
    | none => .done () s
    | some n => if typeOf (s.eprAt n) = .isochronous then .fault .isochronousUnmodelled else k n
  else .done () s

/-- The effect of a bus reset (R309); `clears` is the parameter BUS_RESET_CLEARS_REGS. -/
def busResetEffect (clears : Bool) (s : State) : State :=
  let latched := s.setIstr (s.istr ||| resetFlag)
  if clears then (latched.setAllEpr 0x0000).setDaddr 0x0000 else latched

/-- A step that is enabled only while the bus engine runs; otherwise it has no effect (R301(a), R314; log entry 8). -/
def whileOn (s : State) (t : State) : Act Unit := if s.busOn then .done () t else .done () s

/-- One atomic step of the bus engine (R300). -/
def busStep (b : BusStep) (s : State) : Act Unit :=
  match b with
  | .reset => whileOn s (busResetEffect Config.busResetClearsRegs s)
  | .out e data fresh => transaction e s fun n => busOutAt n data fresh s
  | .setup e data => transaction e s fun n => busSetupAt n data s
  | .inn e acked => transaction e s fun n => busInAt n acked s
  | .suspend => whileOn s (s.setIstr (s.istr ||| suspFlag))
  | .wakeup dp dm =>
    whileOn s (((s.setIstr (s.istr ||| wkupFlag)).setCntr (s.cntr &&& 0xFFFB)).setFnr (withLines s.fnr dp dm))
  | .line dp dm => .done () (s.setFnr (withLines s.fnr dp dm))
  | .other which => whileOn s (s.setIstr (s.istr ||| otherFlag which))

/-- Bus steps one after the other. -/
def runBus : List BusStep → State → Act Unit
  | [], s => .done () s
  | b :: bs, s => (busStep b s).andThen fun _ s => runBus bs s

/-! ## The driver's accesses -/

/-- The boundary before a driver access: the bus steps the environment placed there run first (R14, R90; log entry 4). -/
def interleave (s : State) : Act Unit :=
  match s.sched with
  | [] => .done () s
  | now :: later => runBus now (s.setSched later)

/-- `RegRead(R)` (R11). -/
def regRead (r : Reg) (s : State) : Act Word :=
  (interleave s).andThen fun _ s => .done (s.regValue r) (s.afterRead r)

/-- `RegWrite(R, w)` (R11). -/
def regWrite (r : Reg) (w : Word) (s : State) : Act Unit :=
  (interleave s).andThen fun _ s => .done () (s.storeReg r w)

/-- `RegRead(ISTR)` where only bits 15 to 8 are used, as `poll` uses it (R280): `istrFlags` holds exactly those bits of the
value (log entry 5). -/
def istrRead (s : State) : Act Word :=
  (interleave s).andThen fun _ s => .done s.istrFlags (s.afterRead .istr)

/-- `RegRead(FNR)` where only RXDP is used, as `poll` uses it (R282; log entry 5). -/
def fnrReadDp (s : State) : Act Bool :=
  (interleave s).andThen fun _ s => .done s.rxdp (s.afterRead .fnr)

/-- `MemRead(off, 2)`: the two bytes of a word, each a value or `undef` (R12, R84). -/
def memRead (off : Nat) (s : State) : Act (Option Byte × Option Byte) :=
  (interleave s).andThen fun _ s => Act.ofExcept (pmaWord s.pma off) s

/-- `MemWrite(off, 2, v)` (R12, R84). -/
def memWrite (off : Nat) (w : Word) (s : State) : Act Unit :=
  (interleave s).andThen fun _ s => (Act.ofExcept (pmaStore s.pma off w) s).andThen fun m s => .done () (s.setPma m)

/-- `busy_wait(k)`: it changes no state of the block and reads none (R332). -/
def busyWait (_k : Nat) (s : State) : State := s

/-- `pin.set_low()` (R51, R336). -/
def pinSetLow (s : State) : State := s.setPinLevel .low

/-- `pin.set_high()`: the capability has it, and no operation of the block calls it (R51, D29). -/
def pinSetHigh (s : State) : State := s.setPinLevel .high

/-! ## The register view on a slot that exists

DEDUCED: a bus reset between an operation's read and its write clears the slot's configuration, which R170's corner case says
no bus step does, and the write puts it back as read (log entry 29). -/

/-- `ep_configure` on a slot (R170). -/
def epConfigure (n : Slot) (t : EpType) (s : State) : Act Unit :=
  (regRead (.epr n) s).andThen fun r s => regWrite (.epr n) (configureWord r n t) s

/-- `ep_set_status` on a slot (R172). -/
def epSetStatus (n : Slot) (d : Dir) (st : Status) (s : State) : Act Unit :=
  (regRead (.epr n) s).andThen fun r s => regWrite (.epr n) (setStatusWord r d st) s

/-- `ep_clear_ctr` on a slot (R174). -/
def epClearCtr (n : Slot) (d : Dir) (s : State) : Act Unit :=
  (regRead (.epr n) s).andThen fun r s => regWrite (.epr n) (clearCtrWord r d) s

/-! ## Descriptors, copies and the arena -/

/-- `bd_get(n, f)` (R193). -/
def bdGet (n : Slot) (f : BdField) (s : State) : Act Word :=
  (memRead (bdOffset Config.driverBdBase n f) s).andThen fun w s => Act.ofExcept (definedWord w) s

/-- `bd_set(n, f, v)` (R193). -/
def bdSet (n : Slot) (f : BdField) (v : Word) (s : State) : Act Unit :=
  memWrite (bdOffset Config.driverBdBase n f) v s

/-- The copy loop of `pma_read` (R194): word by word; the high byte of an odd tail is not copied. -/
def copyOut : Nat → Nat → State → Act (List Byte)
  | 0, _, s => .done [] s
  | 1, off, s =>
    (memRead off s).andThen fun w s =>
      match w.1 with
      | some lo => .done [lo] s
      | none => .fault .undefRead
  | len + 2, off, s =>
    (memRead off s).andThen fun w s =>
      match w with
      | (some lo, some hi) => (copyOut len (off + 2) s).andThen fun rest s => .done (lo :: hi :: rest) s
      | _ => .fault .undefRead

/-- The copy loop of `pma_write` (R196): word by word; the high byte of an odd tail is written 0x00. -/
def copyIn : List Byte → Nat → State → Act Unit
  | [], _, s => .done () s
  | [lo], off, s => memWrite off (wordOfBytes lo 0x00) s
  | lo :: hi :: rest, off, s => (memWrite off (wordOfBytes lo hi) s).andThen fun _ s => copyIn rest (off + 2) s

/-- `pma_allocate(size)` on the arena (R190). -/
def arenaAllocate (size : Nat) (s : State) : Except ErrorKind (Nat × State) :=
  let rsize := roundUp size Config.wordBytes
  if s.nextFree + rsize > Config.pmaSize then .error .endpointOverflow
  else .ok (s.nextFree, s.setNextFree (s.nextFree + rsize))

/-! ## The position in the program -/

/-- The encoded command at the position in the program (R31). -/
def State.fetch (s : State) : Option Encoded := s.program[s.pos]?

/-- The position after an operation ended (R31). -/
def State.advance (s : State) : State := s.setPos (s.pos + 1)

/-- An operation that ended moves the program on by one; a stop does not (R31). -/
def advanced (o : Host.Outcome State Fault Refusal) : Host.Outcome State Fault Refusal :=
  match o with
  | .next s => .next s.advance
  | .fault f => .fault f
  | .refused r => .refused r

/-- The list with its `k`-th element replaced by `e`, filled up with `e` where it is shorter. -/
def putAt {α : Type} (e : α) : Nat → List α → List α
  | 0, [] => [e]
  | 0, _ :: l => e :: l
  | k + 1, [] => e :: putAt e k []
  | k + 1, x :: l => x :: putAt e k l

end Sys2Proof.Machine
end

