-- ==== Sys2Proof/Machine/BusEngine.lean ====
section
/-! DEFINITION. The bus-engine family (file 45_bus_engine.md): each step as a command of the program. -/

namespace Sys2Proof.Machine

/-- `bus_reset` (R309). -/
def execBusReset (s : State) : Host.Outcome State Fault Refusal := (busStep .reset s).silent

/-- `bus_out(e, data, fresh)` (R302, R303, R304). -/
def execBusOut (e : BitVec 4) (data : List Byte) (fresh : Bool) (s : State) : Host.Outcome State Fault Refusal :=
  (busStep (.out e data fresh) s).silent

/-- `bus_setup(e, data)` (R305). -/
def execBusSetup (e : BitVec 4) (data : Vector Byte 8) (s : State) : Host.Outcome State Fault Refusal :=
  (busStep (.setup e data) s).silent

/-- `bus_in(e, acked)` (R302, R306). -/
def execBusIn (e : BitVec 4) (acked : Bool) (s : State) : Host.Outcome State Fault Refusal :=
  (busStep (.inn e acked) s).silent

/-- `bus_suspend` (R310). -/
def execBusSuspend (s : State) : Host.Outcome State Fault Refusal := (busStep .suspend s).silent

/-- `bus_wakeup(dp, dm)` (R311). -/
def execBusWakeup (dp dm : Bool) (s : State) : Host.Outcome State Fault Refusal := (busStep (.wakeup dp dm) s).silent

/-- `bus_line(dp, dm)` (R312). -/
def execBusLine (dp dm : Bool) (s : State) : Host.Outcome State Fault Refusal := (busStep (.line dp dm) s).silent

/-- `bus_other_event(which)` (R313). -/
def execBusOtherEvent (which : OtherEvent) (s : State) : Host.Outcome State Fault Refusal :=
  (busStep (.other which) s).silent

end Sys2Proof.Machine
end

