-- ==== Sys2Proof/Machine/EndpointAlloc.lean ====
section
/-! DEFINITION. Endpoint allocation (file 42_endpoint_alloc.md). -/

namespace Sys2Proof.Machine

/-- `claim_out(i, mps)` (R229). -/
def claimOut (i : Slot) (mps : Nat) (s : State) : Act Result :=
  match encodeReceiveSize mps with
  | .error k => raise k s
  | .ok (rsize, enc) =>
    match arenaAllocate rsize s with
    | .error k => raise k s
    | .ok (off, s) =>
      (bdSet i .addrRx (BitVec.ofNat 16 off) s).andThen fun _ s =>
      (bdSet i .countRx enc s).andThen fun _ s =>
        let r := s.epAt i
        .done (.address (epAddr i .out)) ((s.setEp i ⟨r.type, true, r.inn⟩).setRxCap i rsize)

/-- `claim_in(i, mps)` (R230). -/
def claimIn (i : Slot) (mps : Nat) (s : State) : Act Result :=
  match arenaAllocate mps s with
  | .error k => raise k s
  | .ok (off, s) =>
    (bdSet i .addrTx (BitVec.ofNat 16 off) s).andThen fun _ s =>
    (bdSet i .countTx 0x0000 s).andThen fun _ s =>
      let r := s.epAt i
      .done (.address (epAddr i .inn)) ((s.setEp i ⟨r.type, r.out, true⟩).setTxCap i (roundUp mps Config.wordBytes))

/-- `if ep[i].type = none: ep[i].type <- some t` (R225). -/
def takeType (i : Slot) (t : EpType) (s : State) : State :=
  let r := s.epAt i
  if r.type = none then s.setEp i ⟨some t, r.out, r.inn⟩ else s

/-- The direction is already claimed on the slot (R227). -/
def claimed (i : Slot) (d : Dir) (s : State) : Bool :=
  match d with
  | .out => (s.epAt i).out
  | .inn => (s.epAt i).inn

/-- `claim_out` or `claim_in` (R229, R230). -/
def claim (i : Slot) (d : Dir) (mps : Nat) (s : State) : Act Result :=
  match d with
  | .out => claimOut i mps s
  | .inn => claimIn i mps s

/-- The search loop of `allocate_endpoint` (R220): `pin` is the pinned index, `i` the current one. It takes at most
`N_EP + 1` turns, since `i` grows by 1 each turn, so the fuel `N_EP + 1` never runs out. -/
def allocSearch (pin : Option Nat) (d : Dir) (t : EpType) (mps : Nat) : Nat → Nat → State → Act Result
  | 0, _, s => raise .endpointOverflow s
  | fuel + 1, i, s =>
    if pin.any (· != i) then raise .endpointTaken s
    else match slotOf i with
      | none => raise .endpointOverflow s
      | some n =>
        let s := takeType n t s
        if (s.epAt n).type ≠ some t then allocSearch pin d t mps fuel (i + 1) s
        else if claimed n d s then allocSearch pin d t mps fuel (i + 1) s
        else claim n d mps s

/-- `allocate_endpoint(d, req, t, mps)` (R220): the request's direction bit is ignored (R221), and allocating after
`enable` faults (R223). -/
def execAllocateEndpoint (d : Dir) (req : Option Byte) (t : EpType) (mps : Nat) (s : State) :
    Host.Outcome State Fault Refusal :=
  (if s.phase = .enabled then .fault .allocateAfterEnable
   else
    let pin := req.map addrIndex
    allocSearch pin d t mps (Config.nEp + 1) (pin.getD 1) s).returning

end Sys2Proof.Machine
end

