-- ==== Sys2Proof/Machine/EndpointOps.lean ====
section
/-! DEFINITION. Endpoint operations (file 43_endpoint_ops.md): `reset`, `write`, `read`, `stall`, `unstall`. -/

namespace Sys2Proof.Machine

/-- What `reset` does for one slot (R240). -/
def resetSlot (i : Slot) (s : State) : Act Unit :=
  match (s.epAt i).type with
  | none => .done () s
  | some t =>
    (epConfigure i t s).andThen fun _ s =>
    (if (s.epAt i).out then epSetStatus i .out .valid s else .done () s).andThen fun _ s =>
    if (s.epAt i).inn then epSetStatus i .inn .nak s else .done () s

/-- The slot loop of `reset` (R240). -/
def resetSlots : List Slot → State → Act Unit
  | [], s => .done () s
  | i :: rest, s => (resetSlot i s).andThen fun _ s => resetSlots rest s

/-- `reset()` (R240). -/
def execReset (s : State) : Host.Outcome State Fault Refusal :=
  ((resetSlots allSlots s).andThen fun _ s =>
   (regWrite .istr 0x0000 s).andThen fun _ s =>
   regWrite .daddr 0x0080 s).returningUnit

/-- `write` after its address checks (R242 to R246). DEDUCED: a SETUP or a bus reset between its status read and its status
write, which R305 and R309 admit and R247(e) leaves out, changes the status there, and `write` can end off Valid
(log entry 26). -/
def writeSlot (i : Slot) (src : List Byte) (s : State) : Act Result :=
  (regRead (.epr i) s).andThen fun r s =>
  if statusOf .inn r = .valid then raise .busy s
  else if statusOf .inn r = .disabled then raise .invalidEndpoint s
  else if src.length > s.txCapAt i then .fault .writeExceedsBuffer
  else
    (bdGet i .addrTx s).andThen fun off s =>
    (copyIn src off.toNat s).andThen fun _ s =>
    (bdSet i .countTx (BitVec.ofNat 16 src.length) s).andThen fun _ s =>
    (epSetStatus i .inn .valid s).andThen fun _ s =>
    .done (.written src.length) s

/-- `write(addr, src)` (R242). -/
def execWrite (addr : Byte) (src : List Byte) (s : State) : Host.Outcome State Fault Refusal :=
  (match addrDir addr, slotOf (addrIndex addr) with
    | .inn, some i => writeSlot i src s
    | _, _ => raise .invalidEndpoint s).returning

/-- `read` after its address checks (R250 to R252). DEDUCED: bus steps inside it that R305, R304 and R309 admit where STAT_RX is
Stall or Valid, and R253(f) leaves out, can end its re-arm off Valid (log entry 27); and a bus OUT accepted before its
clear, which R391(d) leaves out, has its CTR_RX erased (log entry 28). -/
def readSlot (i : Slot) (len : Nat) (s : State) : Act Result :=
  (regRead (.epr i) s).andThen fun r s =>
  if statusOf .out r = .disabled then raise .invalidEndpoint s
  else if ctrOf .out r = false then raise .noData s
  else
    (bdGet i .countRx s).andThen fun c s =>
    let count := (c &&& Config.rxCountMask).toNat
    if count > len then raise .bufferOverflow s
    else
      (bdGet i .addrRx s).andThen fun off s =>
      (copyOut count off.toNat s).andThen fun buf s =>
      (epClearCtr i .out s).andThen fun _ s =>
      (epSetStatus i .out .valid s).andThen fun _ s =>
      .done (.received count buf) s

/-- `read(addr, len)` (R250). -/
def execRead (addr : Byte) (len : Nat) (s : State) : Host.Outcome State Fault Refusal :=
  (match addrDir addr, slotOf (addrIndex addr) with
    | .out, some i => readSlot i len s
    | _, _ => raise .invalidEndpoint s).returning

/-- `stall(addr)` (R255). -/
def execStall (addr : Byte) (s : State) : Host.Outcome State Fault Refusal :=
  (onSlot (addrIndex addr) .noSuchEndpoint fun i => epSetStatus i (addrDir addr) .stall s).returningUnit

/-- `unstall(addr)` (R256). -/
def execUnstall (addr : Byte) (s : State) : Host.Outcome State Fault Refusal :=
  (onSlot (addrIndex addr) .noSuchEndpoint fun i =>
    (regRead (.epr i) s).andThen fun r s =>
    if statusOf (addrDir addr) r = .stall then epSetStatus i (addrDir addr) (ready (addrDir addr)) s
    else .done () s).returningUnit

end Sys2Proof.Machine
end

