-- ==== Sys2Proof/Machine/PacketMemory.lean ====
section
/-! DEFINITION. The packet-memory family (file 41_packet_memory.md): the arena, the descriptor handle, the copies and the
receive-size encoder. -/

namespace Sys2Proof.Machine

/-- `pma_allocate(size)` (R190). -/
def execPmaAllocate (size : Nat) (s : State) : Host.Outcome State Fault Refusal :=
  (match arenaAllocate size s with
    | .error k => raise k s
    | .ok (off, s) => .done (.offset off) s).returning

/-- `pma_descriptor(n)` (R192). -/
def execPmaDescriptor (n : Nat) (s : State) : Host.Outcome State Fault Refusal :=
  (onSlot n .noSuchDescriptor fun i => .done (.descriptor (descriptorOf i)) s).returning

/-- `pma_read(off, len)` (R194). -/
def execPmaRead (off len : Nat) (s : State) : Host.Outcome State Fault Refusal :=
  ((copyOut len off s).andThen fun dest s => .done (.bytes dest) s).returning

/-- `pma_write(off, src)` (R196). -/
def execPmaWrite (off : Nat) (src : List Byte) (s : State) : Host.Outcome State Fault Refusal :=
  (copyIn src off s).returningUnit

/-- `encode_receive_size(size)` (R200). -/
def execEncodeReceiveSize (size : Nat) (s : State) : Host.Outcome State Fault Refusal :=
  (match encodeReceiveSize size with
    | .error k => raise k s
    | .ok (rsize, enc) => .done (.encoded rsize enc) s).returning

end Sys2Proof.Machine
end

