-- ==== Sys2Proof/Machine/PeripheralControl.lean ====
section
/-! DEFINITION. Peripheral control (file 46_peripheral_control.md) and the driver's construction (R381). -/

namespace Sys2Proof.Machine

/-- `construct(reset_cap)` (R381): the driver's side only; no register and no packet-memory access. -/
def execConstruct (cap : Option ResetCap) (s : State) : Host.Outcome State Fault Refusal :=
  (Act.done () ((((((((s.setAllEp ⟨none, false, false⟩).setAllRxCap 0).setAllTxCap 0).setNextFree
    Config.bdTable).setMaxIndex 0).setPhase .configured).setResetCap cap))).returningUnit

/-- A slot with a direction allocated (R50). -/
def hasDirection (s : State) (i : Slot) : Bool := (s.epAt i).out || (s.epAt i).inn

/-- The highest slot with a direction allocated, or 0 (R50, R331, D27). -/
def highestIndex (s : State) : Slot := allSlots.foldl (fun m i => if hasDirection s i then i else m) 0

/-- A read-modify-write of CNTR (R330). -/
def cntrUpdate (f : Word → Word) (s : State) : Act Unit :=
  (regRead .cntr s).andThen fun c s => regWrite .cntr (f c) s

/-- `enable()` (R331). -/
def execEnable (s : State) : Host.Outcome State Fault Refusal :=
  ((cntrUpdate (fun c => c &&& 0xFFFD) (s.setMaxIndex (highestIndex s))).andThen fun _ s =>
   (regWrite .btable 0x0000 (busyWait Config.startupDelayCycles s)).andThen fun _ s =>
   (cntrUpdate (fun c => (c &&& 0xFFFE) ||| Config.enableCntrMasks) s).andThen fun _ s =>
   (regWrite .istr 0x0000 s).andThen fun _ s =>
   .done () (s.setPhase .enabled)).returningUnit

/-- `set_device_address(a)` (R333). -/
def execSetDeviceAddress (a : Byte) (s : State) : Host.Outcome State Fault Refusal :=
  (if a.toNat > 127 then .fault .addressOutOfRange
   else regWrite .daddr (0x0080#16 ||| a.setWidth 16) s).returningUnit

/-- `suspend()` (R334). -/
def execSuspend (s : State) : Host.Outcome State Fault Refusal :=
  (cntrUpdate (fun c => c ||| 0x000C) s).returningUnit

/-- `resume()` (R335). -/
def execResume (s : State) : Host.Outcome State Fault Refusal :=
  (cntrUpdate (fun c => c &&& 0xFFF3) s).returningUnit

/-- The CNTR word that restores PDWN to the bit saved from `saved` (R336). -/
def restorePdwn (saved c : Word) : Word := (c &&& 0xFFFD) ||| (saved &&& 0x0002)

/-- `force_reset()` (R336). -/
def execForceReset (s : State) : Host.Outcome State Fault Refusal :=
  (match s.resetCap with
    | none => raise .unsupported s
    | some cap =>
      (regRead .cntr s).andThen fun saved s =>
      (regWrite .cntr (saved ||| 0x0002) s).andThen fun _ s =>
      (cntrUpdate (restorePdwn saved) (busyWait cap.delay (pinSetLow s))).andThen fun _ s =>
      .done .unit s).returning

end Sys2Proof.Machine
end

