-- ==== Sys2Proof/Machine/Poll.lean ====
section
/-! DEFINITION. The poll decoder (file 44_poll.md). -/

namespace Sys2Proof.Machine

/-- The three masks of a scan; bit `i` stands for slot `i` (R280). -/
structure ScanMasks where
  out   : Word
  inn   : Word
  setup : Word
  deriving DecidableEq, Repr

/-- `1 << i` (R286). -/
def slotBit (i : Slot) : Word := 1#16 <<< (i : Nat)

/-- The masks with what one endpoint register shows added (R286). -/
def ScanMasks.add (m : ScanMasks) (i : Slot) (r : Word) : ScanMasks where
  out := if ctrOf .out r then m.out ||| slotBit i else m.out
  inn := if ctrOf .inn r then m.inn ||| slotBit i else m.inn
  setup := if ctrOf .out r && setupOf r then m.setup ||| slotBit i else m.setup

/-- The loop of `scan()` over the slots up to `max_index` (R286). DEDUCED: an IN completion that falls between the read of an
EPR and its clear, which R258 and R306 admit where `write` re-armed Valid with CTR_TX = 1 and R287(d) says cannot
occur, is erased by the clear (log entry 24). -/
def scanSlots : List Slot → ScanMasks → State → Act ScanMasks
  | [], m, s => .done m s
  | i :: rest, m, s =>
    if i ≤ s.maxIndex then
      (regRead (.epr i) s).andThen fun r s =>
      (if ctrOf .inn r then epClearCtr i .inn s else .done () s).andThen fun _ s =>
      scanSlots rest (m.add i r) s
    else .done m s

/-- `scan()` (R286). -/
def scan (s : State) : Act ScanMasks := scanSlots allSlots ⟨0, 0, 0⟩ s

/-- `poll()` (R280): WKUP, then RESET, then SUSP, then CTR (R281). -/
def pollAct (s : State) : Act PollEvent :=
  (istrRead s).andThen fun f s =>
  if f.getLsbD 12 then
    (fnrReadDp s).andThen fun dp s =>
    (regWrite .istr istrwClearWkupWord s).andThen fun _ s =>
    .done (if dp then .suspend else .resume) s
  else if f.getLsbD 10 then (regWrite .istr istrwClearResetWord s).andThen fun _ s => .done .reset s
  else if f.getLsbD 11 then (regWrite .istr istrwClearSuspWord s).andThen fun _ s => .done .suspend s
  else if f.getLsbD 15 then (scan s).andThen fun m s => .done (.data m.out m.inn m.setup) s
  else .done .none s

/-- `poll()` (R280). -/
def execPoll (s : State) : Host.Outcome State Fault Refusal :=
  ((pollAct s).andThen fun e s => .done (.event e) s).returning

end Sys2Proof.Machine
end

