-- ==== Sys2Proof/Machine/RegisterView.lean ====
section
/-! DEFINITION. The register-view family (file 40_register_view.md): the raw gate accesses, the register-view operations,
and the written words of 30_encoding.md rules R114, R115 and R117. -/

namespace Sys2Proof.Machine

/-- `ep_configure(n, t)` (R170). -/
def execEpConfigure (n : Nat) (t : EpType) (s : State) : Host.Outcome State Fault Refusal :=
  (onSlot n .noSuchRegister fun i => epConfigure i t s).returningUnit

/-- `ep_set_status(n, d, s)` (R172). -/
def execEpSetStatus (n : Nat) (d : Dir) (st : Status) (s : State) : Host.Outcome State Fault Refusal :=
  (onSlot n .noSuchRegister fun i => epSetStatus i d st s).returningUnit

/-- `ep_clear_ctr(n, d)` (R174). -/
def execEpClearCtr (n : Nat) (d : Dir) (s : State) : Host.Outcome State Fault Refusal :=
  (onSlot n .noSuchRegister fun i => epClearCtr i d s).returningUnit

/-- `ep_snapshot(n)` (R176). -/
def execEpSnapshot (n : Nat) (s : State) : Host.Outcome State Fault Refusal :=
  (onSlot n .noSuchRegister fun i => (regRead (.epr i) s).andThen fun r s => .done (.register r) s).returning

/-- A word written to the EPR an index names (R150). -/
def writeEpr (n : Nat) (w : Word) (s : State) : Act Unit :=
  onSlot n .noSuchRegister fun i => regWrite (.epr i) w s

/-- `epr_write(n, w)` (R150). -/
def execEprWrite (n : Nat) (w : Word) (s : State) : Host.Outcome State Fault Refusal :=
  (writeEpr n w s).returningUnit

/-- `istr_write(w)` (R160). -/
def execIstrWrite (w : Word) (s : State) : Host.Outcome State Fault Refusal :=
  (regWrite .istr w s).returningUnit

/-- `epw.configure`: the word written to the slot its EA field names (R114, R170; log entry 3). -/
def execEpwConfigure (t : EpType) (k : Bool) (n : BitVec 4) (s : State) : Host.Outcome State Fault Refusal :=
  (writeEpr n.toNat (epwConfigureWord t k n) s).returningUnit

/-- `epw.set_status_out`: the word written to the slot given (R114, R172; log entry 3). -/
def execEpwSetStatusOut (slot : Nat) (ss : BitVec 2) (t : EpType) (k : Bool) (a : BitVec 4) (s : State) :
    Host.Outcome State Fault Refusal :=
  (writeEpr slot (epwSetStatusOutWord ss t k a) s).returningUnit

/-- `epw.set_status_in`: the word written to the slot given (R114, R172; log entry 3). -/
def execEpwSetStatusIn (slot : Nat) (ss : BitVec 2) (t : EpType) (k : Bool) (a : BitVec 4) (s : State) :
    Host.Outcome State Fault Refusal :=
  (writeEpr slot (epwSetStatusInWord ss t k a) s).returningUnit

/-- `epw.clear_ctr_out`: the word written to the slot given (R114, R174; log entry 3). -/
def execEpwClearCtrOut (slot : Nat) (t : EpType) (k : Bool) (a : BitVec 4) (s : State) :
    Host.Outcome State Fault Refusal :=
  (writeEpr slot (epwClearCtrOutWord t k a) s).returningUnit

/-- `epw.clear_ctr_in`: the word written to the slot given (R114, R174; log entry 3). -/
def execEpwClearCtrIn (slot : Nat) (t : EpType) (k : Bool) (a : BitVec 4) (s : State) :
    Host.Outcome State Fault Refusal :=
  (writeEpr slot (epwClearCtrInWord t k a) s).returningUnit

/-- `istrw.clear_wkup` (R115, R282). -/
def execIstrwClearWkup (s : State) : Host.Outcome State Fault Refusal :=
  (regWrite .istr istrwClearWkupWord s).returningUnit

/-- `istrw.clear_reset` (R115, R283). -/
def execIstrwClearReset (s : State) : Host.Outcome State Fault Refusal :=
  (regWrite .istr istrwClearResetWord s).returningUnit

/-- `istrw.clear_susp` (R115, R284). -/
def execIstrwClearSusp (s : State) : Host.Outcome State Fault Refusal :=
  (regWrite .istr istrwClearSuspWord s).returningUnit

/-- `istrw.clear_all` (R115). -/
def execIstrwClearAll (s : State) : Host.Outcome State Fault Refusal :=
  (regWrite .istr istrwClearAllWord s).returningUnit

/-- `daddrw.set` (R117). -/
def execDaddrwSet (a : BitVec 7) (s : State) : Host.Outcome State Fault Refusal :=
  (regWrite .daddr (daddrwSetWord a) s).returningUnit

end Sys2Proof.Machine
end

