-- ==== Sys2Proof/Machine/Dispatch.lean ====
section
/-! DEFINITION. The dispatch: one arm per instruction, each one call of its meaning. -/

namespace Sys2Proof.Machine

/-- What an instruction does. -/
def exec (i : Instr) (s : State) : Host.Outcome State Fault Refusal :=
  match i with
  | .construct resetCap => Sys2Proof.Machine.execConstruct resetCap s
  | .pmaAllocate size => Sys2Proof.Machine.execPmaAllocate size s
  | .pmaDescriptor n => Sys2Proof.Machine.execPmaDescriptor n s
  | .pmaRead off len => Sys2Proof.Machine.execPmaRead off len s
  | .pmaWrite off src => Sys2Proof.Machine.execPmaWrite off src s
  | .encodeReceiveSize size => Sys2Proof.Machine.execEncodeReceiveSize size s
  | .epConfigure n t => Sys2Proof.Machine.execEpConfigure n t s
  | .epSetStatus n d st => Sys2Proof.Machine.execEpSetStatus n d st s
  | .epClearCtr n d => Sys2Proof.Machine.execEpClearCtr n d s
  | .epSnapshot n => Sys2Proof.Machine.execEpSnapshot n s
  | .eprWrite n w => Sys2Proof.Machine.execEprWrite n w s
  | .istrWrite w => Sys2Proof.Machine.execIstrWrite w s
  | .allocateEndpoint d req t mps => Sys2Proof.Machine.execAllocateEndpoint d req t mps s
  | .reset => Sys2Proof.Machine.execReset s
  | .write addr src => Sys2Proof.Machine.execWrite addr src s
  | .read addr len => Sys2Proof.Machine.execRead addr len s
  | .stall addr => Sys2Proof.Machine.execStall addr s
  | .unstall addr => Sys2Proof.Machine.execUnstall addr s
  | .poll => Sys2Proof.Machine.execPoll s
  | .enable => Sys2Proof.Machine.execEnable s
  | .setDeviceAddress a => Sys2Proof.Machine.execSetDeviceAddress a s
  | .suspend => Sys2Proof.Machine.execSuspend s
  | .resume => Sys2Proof.Machine.execResume s
  | .forceReset => Sys2Proof.Machine.execForceReset s
  | .busReset => Sys2Proof.Machine.execBusReset s
  | .busOut e data fresh => Sys2Proof.Machine.execBusOut e data fresh s
  | .busSetup e data => Sys2Proof.Machine.execBusSetup e data s
  | .busIn e acked => Sys2Proof.Machine.execBusIn e acked s
  | .busSuspend => Sys2Proof.Machine.execBusSuspend s
  | .busWakeup dp dm => Sys2Proof.Machine.execBusWakeup dp dm s
  | .busLine dp dm => Sys2Proof.Machine.execBusLine dp dm s
  | .busOtherEvent which => Sys2Proof.Machine.execBusOtherEvent which s
  | .epwConfigure t k n => Sys2Proof.Machine.execEpwConfigure t k n s
  | .epwSetStatusOut slot ss t k a => Sys2Proof.Machine.execEpwSetStatusOut slot ss t k a s
  | .epwSetStatusIn slot ss t k a => Sys2Proof.Machine.execEpwSetStatusIn slot ss t k a s
  | .epwClearCtrOut slot t k a => Sys2Proof.Machine.execEpwClearCtrOut slot t k a s
  | .epwClearCtrIn slot t k a => Sys2Proof.Machine.execEpwClearCtrIn slot t k a s
  | .istrwClearWkup => Sys2Proof.Machine.execIstrwClearWkup s
  | .istrwClearReset => Sys2Proof.Machine.execIstrwClearReset s
  | .istrwClearSusp => Sys2Proof.Machine.execIstrwClearSusp s
  | .istrwClearAll => Sys2Proof.Machine.execIstrwClearAll s
  | .daddrwSet a => Sys2Proof.Machine.execDaddrwSet a s

end Sys2Proof.Machine
end

