-- ==== Sys2Proof/Machine/Step.lean ====
section
/-! DEFINITION. One step of the machine (rules R31, R366): the command at the position in the program is decoded and runs, and the
position moves on by one. -/

namespace Sys2Proof.Machine

/-- One step: the operation at the position in the program (R31). A finite program ends (log entry 1); an item that is no
command is refused (R125). -/
def step (s : State) : Host.Outcome State Fault Refusal :=
  match s.fetch with
  | none => .refused .programEnd
  | some c =>
    match decode c with
    | .error why => .refused (.undecodable why)
    | .ok i => advanced (exec i s)

/-- The state with an opcode-table word stored at the position `step` fetches from (log entry 1). -/
def State.withFetchWord (s : State) (nbits w : Nat) : State :=
  s.setProgram (putAt (tableCommand nbits w) s.pos s.program)

end Sys2Proof.Machine
end

