-- ==== Sys2Proof/Safety.lean ====
section
/-! DEFINITION. What counts as a legal state and a safe end, in the terms the statements use. -/

namespace Sys2Proof.Machine

/-- Every slot's buffers together: the bytes allocated for OUT and IN directions (R53). -/
def State.capTotal (s : State) : Nat := (allSlots.map fun n => s.rxCapAt n + s.txCapAt n).sum

/-- A legal state: what every step keeps, whatever the bus engine does in between. -/
structure Inv (s : State) : Prop where
  /-- Packet memory is in its canonical form, inside `PMA_SIZE` (R54). -/
  pma : Memory.wf s.pma = true
  /-- The reserved bits of CNTR hold 0 (R40). -/
  cntr : s.cntr &&& 0x00E0 = 0x0000
  /-- ISTR stores its latched flags only (R41, R42). -/
  istr : s.istr &&& 0x80FF = 0x0000
  /-- FNR stores the line state only (R43, R313). -/
  fnr : s.fnr &&& 0x3FFF = 0x0000
  /-- The reserved bits of DADDR hold 0 (R44). -/
  daddr : s.daddr &&& 0xFF00 = 0x0000
  /-- The descriptor table stands at packet-memory offset 0 (R45). -/
  btable : s.btable = 0x0000
  /-- `next_free` is even (R191(a)). -/
  even : s.nextFree % 2 = 0
  /-- `BD_TABLE <= next_free` (R191(b)). -/
  lower : Config.bdTable ≤ s.nextFree
  /-- `next_free <= PMA_SIZE` (R191(b)). -/
  upper : s.nextFree ≤ Config.pmaSize
  /-- A direction is allocated only on a typed slot (R48(b)). -/
  typed : ∀ n, (s.epAt n).out = true ∨ (s.epAt n).inn = true → (s.epAt n).type ≠ none
  /-- The buffers of all slots together fit into the allocated part of the arena (R87, R191(c)). -/
  caps : s.capTotal + Config.bdTable ≤ s.nextFree

/-- A step of the bus engine, not a call of the driver (R125, R366). -/
def isBusStep : Instr → Bool
  | .busReset | .busOut _ _ _ | .busSetup _ _ | .busIn _ _ | .busSuspend | .busWakeup _ _ | .busLine _ _
  | .busOtherEvent _ => true
  | .construct _ | .pmaAllocate _ | .pmaDescriptor _ | .pmaRead _ _ | .pmaWrite _ _ | .encodeReceiveSize _
  | .epConfigure _ _ | .epSetStatus _ _ _ | .epClearCtr _ _ | .epSnapshot _ | .eprWrite _ _ | .istrWrite _
  | .allocateEndpoint _ _ _ _ | .reset | .write _ _ | .read _ _ | .stall _ | .unstall _ | .poll | .enable
  | .setDeviceAddress _ | .suspend | .resume | .forceReset | .epwConfigure _ _ _ | .epwSetStatusOut _ _ _ _ _
  | .epwSetStatusIn _ _ _ _ _ | .epwClearCtrOut _ _ _ _ | .epwClearCtrIn _ _ _ _ | .istrwClearWkup
  | .istrwClearReset | .istrwClearSusp | .istrwClearAll | .daddrwSet _ => false

/-- A raw write of a word to an EPR, as a test harness makes it (R125, R395). -/
def isRawEprWrite : Instr → Bool
  | .eprWrite _ _ | .epwConfigure _ _ _ | .epwSetStatusOut _ _ _ _ _ | .epwSetStatusIn _ _ _ _ _
  | .epwClearCtrOut _ _ _ _ | .epwClearCtrIn _ _ _ _ => true
  | .construct _ | .pmaAllocate _ | .pmaDescriptor _ | .pmaRead _ _ | .pmaWrite _ _ | .encodeReceiveSize _
  | .epConfigure _ _ | .epSetStatus _ _ _ | .epClearCtr _ _ | .epSnapshot _ | .istrWrite _
  | .allocateEndpoint _ _ _ _ | .reset | .write _ _ | .read _ _ | .stall _ | .unstall _ | .poll | .enable
  | .setDeviceAddress _ | .suspend | .resume | .forceReset | .busReset | .busOut _ _ _ | .busSetup _ _
  | .busIn _ _ | .busSuspend | .busWakeup _ _ | .busLine _ _ | .busOtherEvent _ | .istrwClearWkup
  | .istrwClearReset | .istrwClearSusp | .istrwClearAll | .daddrwSet _ => false

/-! ## Terms of the statements -/

/-- An EPR word has a direction's CTR flag, data toggle and status of another. -/
def SameDir (d : Dir) (r q : Word) : Prop := ctrOf d q = ctrOf d r ∧ dtogOf d q = dtogOf d r ∧ statOf d q = statOf d r

/-- An EPR word has the type, EP_KIND, EA and SETUP of another. -/
def SameConfig (r q : Word) : Prop :=
  typeOf q = typeOf r ∧ kindOf q = kindOf r ∧ eaOf q = eaOf r ∧ setupOf q = setupOf r

/-- The word at a packet-memory offset, if both its bytes hold a value (R82, R193). -/
def Memory.wordAt (m : Memory) (off : Nat) : Option Word :=
  match Memory.byte m off, Memory.byte m (off + 1) with
  | some lo, some hi => some (wordOfBytes lo hi)
  | _, _ => none

/-- A copy of `len` bytes at `off` makes no access, or only accesses that are aligned and in range (R84, R194, R196). -/
def CopyInRange (off len : Nat) : Prop := len = 0 ∨ (off % 2 = 0 ∧ off + roundUp len 2 ≤ Config.pmaSize)

/-- The slot can take the direction for the type: its type is none or that type, and the direction is free (R225, R227). -/
def Available (s : State) (d : Dir) (t : EpType) (i : Slot) : Prop :=
  ((s.epAt i).type = none ∨ (s.epAt i).type = some t) ∧ claimed i d s = false

/-- The endpoint record with a type and a direction claimed (R225, R229, R230). -/
def EpRecord.claim (r : EpRecord) (d : Dir) (t : EpType) : EpRecord :=
  match d with
  | .out => ⟨some t, true, r.inn⟩
  | .inn => ⟨some t, r.out, true⟩

end Sys2Proof.Machine
end

