-- ==== Sys2Proof/Certificates/Slice0/Obligations.lean ====
section
/-! DEFINITION. The statements about the model, one definition each. Each docstring says which rule of spec/ it formalises. Where a
statement asks that no bus-engine step falls between the accesses of an operation, its hypothesis is `s.sched = []`
(log entry 4). -/

open Sys2Proof Sys2Proof.Machine

/-! ## Encodings and the program -/

/-- A few words written out from R125, R114, R115 and R117 decode to what they stand for (log entries 2 and 3 for the
bytes behind a selector and the row's tag). -/
def Obligations.TableWordsDecode : Prop :=
  decode ⟨.call, [0x30]⟩ = .ok .reset ∧ decode ⟨.call, [0x33, 0x81]⟩ = .ok (.stall 0x81) ∧
  decode ⟨.call, [0x11, 0x01, 0x01, 0x03]⟩ = .ok (.epSetStatus 1 .inn .valid) ∧
  decode ⟨.call, [0x20, 0x00, 0x01, 0x80, 0x01, 0x40]⟩ = .ok (.allocateEndpoint .out (some 0x80) .control 64) ∧
  decode ⟨.call, [0x81, 0x01, 0x02, 0xAA, 0xBB, 0x01]⟩ = .ok (.busOut 1 [0xAA, 0xBB] true) ∧
  decode ⟨.call, [0x06]⟩ = .error .unknownSelector ∧
  decodeTableWord 8 0x40 = some .poll ∧ decodeTableWord 16 0x8381 = some (.epwConfigure .control true 1) ∧
  decode ⟨.word, [0x81, 0x90, 2, 1]⟩ = .ok (.epwSetStatusOut 1 0b01 .bulk false 1) ∧
  decodeTableWord 16 0xEFFF = some .istrwClearWkup ∧ decode ⟨.word, [0x85, 0x00, 10, 0]⟩ = .ok (.daddrwSet 5)

/-- Decode and encode agree on every well-formed command. -/
def Obligations.DecodeEncodeRoundTrip : Prop := ∀ i : Instr, i.wellFormed = true → decode (encode i) = .ok i

/-- What the decoder accepts is well-formed: each argument has its type (R124). -/
def Obligations.DecodedCommandsAreWellFormed : Prop := ∀ (c : Encoded) (i : Instr), decode c = .ok i → i.wellFormed = true

/-- R114: the word each register-view operation writes, for a read value `r`, is its row's pattern filled from `r`, and has
the row's fixed bits; with the current status as target, `ep_set_status` writes the keep word. -/
def Obligations.RegisterViewWords : Prop :=
  (∀ (r : Word) (n : Slot) (t : EpType),
    configureWord r n t = epwConfigureWord t (kindOf r) (BitVec.ofNat 4 n) ∧ configureWord r n t &&& 0xF8F0 = 0x8080) ∧
  (∀ (r : Word) (st : Status),
    setStatusWord r .out st = epwSetStatusOutWord (statOf .out r ^^^ st.code) (typeOf r) (kindOf r) (eaOf r) ∧
    setStatusWord r .out st &&& 0xC8F0 = 0x8080 ∧
    setStatusWord r .inn st = epwSetStatusInWord (statOf .inn r ^^^ st.code) (typeOf r) (kindOf r) (eaOf r) ∧
    setStatusWord r .inn st &&& 0xF8C0 = 0x8080) ∧
  (∀ r : Word,
    clearCtrWord r .out = epwClearCtrOutWord (typeOf r) (kindOf r) (eaOf r) ∧ clearCtrWord r .out &&& 0xF8F0 = 0x0080 ∧
    clearCtrWord r .inn = epwClearCtrInWord (typeOf r) (kindOf r) (eaOf r) ∧ clearCtrWord r .inn &&& 0xF8F0 = 0x8000) ∧
  (∀ (r : Word) (d : Dir), setStatusWord r d (statusOf d r) = (r &&& 0x070F) ||| 0x8080)

/-- The step runs the command at the position in the program, and refuses what is no command (R31, R125) and the end of the
program (log entry 1). -/
def Obligations.StepRunsDecodedCommand : Prop :=
  (∀ (s : State) (c : Encoded) (i : Instr), s.program[s.pos]? = some c → decode c = .ok i →
    (∀ t, exec i s = .next t → step s = .next (t.setPos (t.pos + 1))) ∧
    (∀ f, exec i s = .fault f → step s = .fault f) ∧ (∀ r, exec i s = .refused r → step s = .refused r)) ∧
  (∀ (s : State) (c : Encoded) (why : Reject), s.program[s.pos]? = some c → decode c = .error why →
    step s = .refused (.undecodable why)) ∧
  (∀ s : State, s.program.length ≤ s.pos → step s = .refused .programEnd)

/-- R31: the position advances by one at the end of each operation, and no operation changes the program. -/
def Obligations.StepAdvancesTheProgram : Prop :=
  ∀ s t : State, step s = .next t → t.pos = s.pos + 1 ∧ t.program = s.program

/-! ## Reset values and the invariant -/

/-- R380, row by row. The line state FNR.RXDP and FNR.RXDM, which the rule leaves unspecified, is not stated. -/
def Obligations.SystemResetValues : Prop :=
  (∀ n : Slot, State.reset.eprAt n = 0x0000) ∧ State.reset.cntr = 0x0003 ∧ State.reset.istr = 0x0000 ∧
  State.reset.istrFlags = 0x0000 ∧ State.reset.fnr &&& 0x3FFF = 0x0000 ∧ State.reset.daddr = 0x0000 ∧
  State.reset.btable = 0x0000 ∧ (∀ a, Memory.byte State.reset.pma a = none) ∧ State.reset.usbIrq = false ∧
  State.reset.busOn = false ∧
  State.reset.pinLevel = .unknown ∧ State.reset.events = []

/-- The state after reset is legal. -/
def Obligations.ResetStateIsLegal : Prop := Inv State.reset

/-- Every step keeps a legal state legal, whatever the bus engine does in between. -/
def Obligations.StepKeepsLegalStates : Prop := ∀ s t : State, Inv s → step s = .next t → Inv t

/-! ## The register view (file 40_register_view.md) -/

/-- R150: the EPR write gate, field by field; the value it is applied to is the one at the write; a slot that does not exist
faults. -/
def Obligations.EprWriteGate : Prop :=
  (∀ (n : Slot) (w : Word) (s : State), s.sched = [] →
    exec (.eprWrite n w) s = .next ((s.setEpr n (gateEpr (s.eprAt n) w)).setResult .unit)) ∧
  (∀ (n : Slot) (w : Word) (s u : State), interleave s = .done () u →
    exec (.eprWrite n w) s = .next ((u.setEpr n (gateEpr (u.eprAt n) w)).setResult .unit)) ∧
  (∀ (n : Nat) (w : Word) (s : State), 8 ≤ n → exec (.eprWrite n w) s = .fault .noSuchRegister) ∧
  (∀ (r w : Word) (d : Dir),
    ctrOf d (gateEpr r w) = (ctrOf d r && ctrOf d w) ∧ dtogOf d (gateEpr r w) = (dtogOf d r ^^ dtogOf d w) ∧
    statOf d (gateEpr r w) = statOf d r ^^^ statOf d w ∧ setupOf (gateEpr r w) = setupOf r ∧
    typeOf (gateEpr r w) = typeOf w ∧ kindOf (gateEpr r w) = kindOf w ∧ eaOf (gateEpr r w) = eaOf w)

/-- R152: writing the keep word changes nothing, also where the toggle and CTR bits changed since the read. -/
def Obligations.KeepWordChangesNothing : Prop :=
  (∀ r : Word, gateEpr r ((r &&& 0x070F) ||| 0x8080) = r) ∧
  (∀ r r' : Word, r' &&& 0x070F = r &&& 0x070F → gateEpr r' ((r &&& 0x070F) ||| 0x8080) = r')

/-- The word `epw.configure` (R114) through the gate (R150), at the slot its EA field names (log entry 3). -/
def Obligations.EpwConfigureEffect : Prop :=
  (∀ (t : EpType) (k : Bool) (n : Slot) (s : State), s.sched = [] →
    ∃ q, exec (.epwConfigure t k (BitVec.ofNat 4 n)) s = .next ((s.setEpr n q).setResult .unit) ∧
      typeOf q = t ∧ kindOf q = k ∧ eaOf q = BitVec.ofNat 4 n ∧ setupOf q = setupOf (s.eprAt n) ∧
      SameDir .out (s.eprAt n) q ∧ SameDir .inn (s.eprAt n) q) ∧
  (∀ (t : EpType) (k : Bool) (n : BitVec 4) (s : State), 8 ≤ n.toNat →
    exec (.epwConfigure t k n) s = .fault .noSuchRegister)

/-- The words `epw.set_status_out` and `epw.set_status_in` (R114) through the gate (R150): the status of one direction is
flipped by the toggle mask, and nothing else but the type, EP_KIND and EA the word holds is written (log entry 3). -/
def Obligations.EpwSetStatusEffect : Prop :=
  ∀ (slot : Nat) (ss : BitVec 2) (t : EpType) (k : Bool) (a : BitVec 4) (s : State),
    (8 ≤ slot → exec (.epwSetStatusOut slot ss t k a) s = .fault .noSuchRegister ∧
      exec (.epwSetStatusIn slot ss t k a) s = .fault .noSuchRegister) ∧
    (∀ n : Slot, slot = n → s.sched = [] →
      (∃ q, exec (.epwSetStatusOut slot ss t k a) s = .next ((s.setEpr n q).setResult .unit) ∧
        statOf .out q = statOf .out (s.eprAt n) ^^^ ss ∧ ctrOf .out q = ctrOf .out (s.eprAt n) ∧
        dtogOf .out q = dtogOf .out (s.eprAt n) ∧ SameDir .inn (s.eprAt n) q ∧ setupOf q = setupOf (s.eprAt n) ∧
        typeOf q = t ∧ kindOf q = k ∧ eaOf q = a) ∧
      (∃ q, exec (.epwSetStatusIn slot ss t k a) s = .next ((s.setEpr n q).setResult .unit) ∧
        statOf .inn q = statOf .inn (s.eprAt n) ^^^ ss ∧ ctrOf .inn q = ctrOf .inn (s.eprAt n) ∧
        dtogOf .inn q = dtogOf .inn (s.eprAt n) ∧ SameDir .out (s.eprAt n) q ∧ setupOf q = setupOf (s.eprAt n) ∧
        typeOf q = t ∧ kindOf q = k ∧ eaOf q = a))

/-- The words `epw.clear_ctr_out` and `epw.clear_ctr_in` (R114) through the gate (R150): one direction's CTR flag is cleared,
and nothing else but the type, EP_KIND and EA the word holds is written (log entry 3). -/
def Obligations.EpwClearCtrEffect : Prop :=
  ∀ (slot : Nat) (t : EpType) (k : Bool) (a : BitVec 4) (s : State),
    (8 ≤ slot → exec (.epwClearCtrOut slot t k a) s = .fault .noSuchRegister ∧
      exec (.epwClearCtrIn slot t k a) s = .fault .noSuchRegister) ∧
    (∀ n : Slot, slot = n → s.sched = [] →
      (∃ q, exec (.epwClearCtrOut slot t k a) s = .next ((s.setEpr n q).setResult .unit) ∧ ctrOf .out q = false ∧
        statOf .out q = statOf .out (s.eprAt n) ∧ dtogOf .out q = dtogOf .out (s.eprAt n) ∧
        SameDir .inn (s.eprAt n) q ∧ setupOf q = setupOf (s.eprAt n) ∧ typeOf q = t ∧ kindOf q = k ∧ eaOf q = a) ∧
      (∃ q, exec (.epwClearCtrIn slot t k a) s = .next ((s.setEpr n q).setResult .unit) ∧ ctrOf .inn q = false ∧
        statOf .inn q = statOf .inn (s.eprAt n) ∧ dtogOf .inn q = dtogOf .inn (s.eprAt n) ∧
        SameDir .out (s.eprAt n) q ∧ setupOf q = setupOf (s.eprAt n) ∧ typeOf q = t ∧ kindOf q = k ∧ eaOf q = a))

/-- R160: the ISTR write gate, bit by bit, as the register reads before and after; and the words `istrw.clear_wkup`,
`istrw.clear_reset`, `istrw.clear_susp` and `istrw.clear_all` (R115), each clearing its flag and keeping the rest. -/
def Obligations.IstrWriteGate : Prop :=
  ∀ s : State, s.sched = [] →
    (∀ w : Word, ∃ q, exec (.istrWrite w) s = .next ((s.setIstr q).setResult .unit) ∧
      (∀ b : Nat, 8 ≤ b → b ≤ 14 → q.getLsbD b = (s.istr.getLsbD b && w.getLsbD b)) ∧
      (∀ b : Nat, 8 ≤ b → b ≤ 14 → ((s.setIstr q).regValue .istr).getLsbD b = q.getLsbD b) ∧
      ((s.setIstr q).regValue .istr).getLsbD 15 = s.anyCtr ∧
      (∀ b : Nat, b ≤ 4 → ((s.setIstr q).regValue .istr).getLsbD b = (s.regValue .istr).getLsbD b) ∧
      (∀ b : Nat, 5 ≤ b → b ≤ 7 → ((s.setIstr q).regValue .istr).getLsbD b = false)) ∧
    exec .istrwClearWkup s = .next ((s.setIstr (s.istr &&& 0x6F00)).setResult .unit) ∧
    exec .istrwClearReset s = .next ((s.setIstr (s.istr &&& 0x7B00)).setResult .unit) ∧
    exec .istrwClearSusp s = .next ((s.setIstr (s.istr &&& 0x7700)).setResult .unit) ∧
    exec .istrwClearAll s = .next ((s.setIstr 0x0000).setResult .unit)

/-- R170: `ep_configure` with no bus step in between; a slot that is already configured so stays as it is; the type and the
index hold under any interleaving; a slot that does not exist faults. -/
def Obligations.EpConfigureEffect : Prop :=
  (∀ (n : Slot) (t : EpType) (s : State), s.sched = [] →
    ∃ q, exec (.epConfigure n t) s = .next ((s.setEpr n q).setResult .unit) ∧ typeOf q = t ∧
      eaOf q = BitVec.ofNat 4 n ∧ SameDir .out (s.eprAt n) q ∧ SameDir .inn (s.eprAt n) q ∧
      setupOf q = setupOf (s.eprAt n) ∧ kindOf q = kindOf (s.eprAt n)) ∧
  (∀ (n : Slot) (t : EpType) (s : State), s.sched = [] → typeOf (s.eprAt n) = t → eaOf (s.eprAt n) = BitVec.ofNat 4 n →
    exec (.epConfigure n t) s = .next (s.setResult .unit)) ∧
  (∀ (n : Slot) (t : EpType) (s u : State), exec (.epConfigure n t) s = .next u →
    typeOf (u.eprAt n) = t ∧ eaOf (u.eprAt n) = BitVec.ofNat 4 n) ∧
  (∀ (n : Nat) (t : EpType) (s : State), 8 ≤ n → exec (.epConfigure n t) s = .fault .noSuchRegister)

/-- R172: `ep_set_status` with no bus step in between sets the direction's status and nothing else; with the current status
as target it changes nothing; under any bus steps in between, the status is the XOR of R154, the flags, the toggles and the
other direction stay as they are at the write, and the configuration as read; a slot that does not exist faults. -/
def Obligations.EpSetStatusEffect : Prop :=
  (∀ (n : Slot) (d : Dir) (st : Status) (s : State), s.sched = [] →
    ∃ q, exec (.epSetStatus n d st) s = .next ((s.setEpr n q).setResult .unit) ∧ statusOf d q = st ∧
      ctrOf d q = ctrOf d (s.eprAt n) ∧ dtogOf d q = dtogOf d (s.eprAt n) ∧
      (∀ e, e ≠ d → SameDir e (s.eprAt n) q) ∧ SameConfig (s.eprAt n) q) ∧
  (∀ (n : Slot) (d : Dir) (st : Status) (s : State), s.sched = [] → statusOf d (s.eprAt n) = st →
    exec (.epSetStatus n d st) s = .next (s.setResult .unit)) ∧
  (∀ (n : Slot) (d : Dir) (st : Status) (s u v : State), interleave s = .done () u → interleave u = .done () v →
    ∃ q, exec (.epSetStatus n d st) s = .next ((v.setEpr n q).setResult .unit) ∧
      statOf d q = statOf d (v.eprAt n) ^^^ statOf d (u.eprAt n) ^^^ st.code ∧ ctrOf d q = ctrOf d (v.eprAt n) ∧
      dtogOf d q = dtogOf d (v.eprAt n) ∧ (∀ e, e ≠ d → SameDir e (v.eprAt n) q) ∧
      setupOf q = setupOf (v.eprAt n) ∧ typeOf q = typeOf (u.eprAt n) ∧ kindOf q = kindOf (u.eprAt n) ∧
      eaOf q = eaOf (u.eprAt n)) ∧
  (∀ (n : Nat) (d : Dir) (st : Status) (s : State), 8 ≤ n → exec (.epSetStatus n d st) s = .fault .noSuchRegister)

/-- R154: the status is `u` at the read and `v` at the write, so the new status is `v ^ u ^ target`, the target exactly when
`v = u`. The other direction and both CTR flags stay as they are at the write (R151, R172). -/
def Obligations.StatusRaceIsXor : Prop :=
  ∀ (n : Slot) (d : Dir) (st : Status) (s u v : State), interleave s = .done () u → interleave u = .done () v →
    ∃ q, exec (.epSetStatus n d st) s = .next ((v.setEpr n q).setResult .unit) ∧
      statOf d q = statOf d (v.eprAt n) ^^^ statOf d (u.eprAt n) ^^^ st.code ∧
      (statusOf d q = st ↔ statusOf d (v.eprAt n) = statusOf d (u.eprAt n)) ∧
      (∀ e, e ≠ d → SameDir e (v.eprAt n) q) ∧ ctrOf d q = ctrOf d (v.eprAt n) ∧ dtogOf d q = dtogOf d (v.eprAt n)

/-- R174: `ep_clear_ctr` with no bus step in between clears one CTR flag and nothing else; under any bus steps in between, the
flag is clear, the other flag and the toggles stay as they are at the write, and the configuration as read; a slot that
does not exist faults. -/
def Obligations.EpClearCtrEffect : Prop :=
  (∀ (n : Slot) (d : Dir) (s : State), s.sched = [] →
    ∃ q, exec (.epClearCtr n d) s = .next ((s.setEpr n q).setResult .unit) ∧ ctrOf d q = false ∧
      statOf d q = statOf d (s.eprAt n) ∧ dtogOf d q = dtogOf d (s.eprAt n) ∧
      (∀ e, e ≠ d → SameDir e (s.eprAt n) q) ∧ SameConfig (s.eprAt n) q) ∧
  (∀ (n : Slot) (d : Dir) (s u v : State), interleave s = .done () u → interleave u = .done () v →
    ∃ q, exec (.epClearCtr n d) s = .next ((v.setEpr n q).setResult .unit) ∧ ctrOf d q = false ∧
      statOf d q = statOf d (v.eprAt n) ∧ dtogOf d q = dtogOf d (v.eprAt n) ∧
      (∀ e, e ≠ d → SameDir e (v.eprAt n) q) ∧ setupOf q = setupOf (v.eprAt n) ∧
      typeOf q = typeOf (u.eprAt n) ∧ kindOf q = kindOf (u.eprAt n) ∧ eaOf q = eaOf (u.eprAt n)) ∧
  (∀ (n : Nat) (d : Dir) (s : State), 8 ≤ n → exec (.epClearCtr n d) s = .fault .noSuchRegister)

/-- R176: `ep_snapshot` returns the register and changes nothing; a slot that does not exist faults. -/
def Obligations.EpSnapshotEffect : Prop :=
  (∀ (n : Slot) (s : State), s.sched = [] → exec (.epSnapshot n) s = .next (s.setResult (.register (s.eprAt n)))) ∧
  (∀ (n : Nat) (s : State), 8 ≤ n → exec (.epSnapshot n) s = .fault .noSuchRegister)

/-- The first four rows of R390's table: `stall` on a Valid direction that one bus step between its read and its write turns to
Nak ends Disabled; `stall` on any status that a bus reset in between turns to Disabled ends at that status XOR Stall. -/
def Obligations.StallRaces : Prop :=
  ∀ (n : Slot) (d : Dir) (b : BusStep) (s u : State), s.sched = [[], [b]] → busStep b (s.setSched []) = .done () u →
    (statusOf d (s.eprAt n) = .valid → statusOf d (u.eprAt n) = .nak →
      ∃ t, exec (.stall (epAddr n d)) s = .next t ∧ statusOf d (t.eprAt n) = .disabled) ∧
    (b = .reset → s.busOn = true →
      ∃ t, exec (.stall (epAddr n d)) s = .next t ∧ statOf d (t.eprAt n) = statOf d (s.eprAt n) ^^^ 0b01)

/-! ## Packet memory (file 41_packet_memory.md) -/

/-- R190: `pma_allocate` rounds up to the word, returns the first free offset and moves past it, or fails with
`EndpointOverflow` and changes nothing. -/
def Obligations.PmaAllocateEffect : Prop :=
  ∀ (size : Nat) (s : State),
    (s.nextFree + roundUp size 2 ≤ 512 → exec (.pmaAllocate size) s =
      .next ((s.setNextFree (s.nextFree + roundUp size 2)).setResult (.offset s.nextFree))) ∧
    (512 < s.nextFree + roundUp size 2 → exec (.pmaAllocate size) s = .next (s.setResult (.error .endpointOverflow)))

/-- Nothing is ever freed, but by constructing the driver again (R191(d), R49). -/
def Obligations.ArenaOnlyGrows : Prop :=
  ∀ (i : Instr) (s t : State), exec i s = .next t → (∀ c, i ≠ .construct c) → s.nextFree ≤ t.nextFree

/-- R192: `pma_descriptor` gives the four field offsets of a slot's descriptor, for every slot; there is no other slot. -/
def Obligations.PmaDescriptorEffect : Prop :=
  ∀ (n : Nat) (s : State),
    (n < 8 → exec (.pmaDescriptor n) s =
      .next (s.setResult (.descriptor ⟨8 * n + 0, 8 * n + 2, 8 * n + 4, 8 * n + 6⟩))) ∧
    (8 ≤ n → exec (.pmaDescriptor n) s = .fault .noSuchDescriptor)

/-- R196: `pma_write` stores the bytes from the offset on, and 0x00 behind an odd tail; every other byte stays; no bytes
make no access; a misaligned offset faults, then one past the memory (R84). -/
def Obligations.PmaWriteEffect : Prop :=
  (∀ (off : Nat) (s : State), exec (.pmaWrite off []) s = .next (s.setResult .unit)) ∧
  ∀ (off : Nat) (src : List Byte) (s : State), s.sched = [] →
    (CopyInRange off src.length →
      ∃ m, exec (.pmaWrite off src) s = .next ((s.setPma m).setResult .unit) ∧
        (∀ a : Nat, off ≤ a → a < off + roundUp src.length 2 → Memory.byte m a = some (src.getD (a - off) 0x00)) ∧
        (∀ a : Nat, a < off ∨ off + roundUp src.length 2 ≤ a → Memory.byte m a = Memory.byte s.pma a)) ∧
    (src ≠ [] → off % 2 = 1 → exec (.pmaWrite off src) s = .fault .pmaMisaligned) ∧
    (src ≠ [] → off % 2 = 0 → 512 < off + roundUp src.length 2 → exec (.pmaWrite off src) s = .fault .pmaOutOfRange)

/-- R194: `pma_read` returns the bytes from the offset on and changes nothing; no bytes make no access; it
faults on a misaligned offset (R84), on a byte of the memory it copies that is `undef`, and past the memory where no
byte copied before is `undef`; the high byte of an odd tail is not looked at. -/
def Obligations.PmaReadEffect : Prop :=
  (∀ (off : Nat) (s : State), exec (.pmaRead off 0) s = .next (s.setResult (.bytes []))) ∧
  ∀ (off len : Nat) (s : State), s.sched = [] →
    (∀ dest : List Byte, CopyInRange off len → dest.length = len →
      (∀ k : Nat, k < len → Memory.byte s.pma (off + k) = dest[k]?) →
      exec (.pmaRead off len) s = .next (s.setResult (.bytes dest))) ∧
    (len ≠ 0 → off % 2 = 1 → exec (.pmaRead off len) s = .fault .pmaMisaligned) ∧
    (len ≠ 0 → off % 2 = 0 → 512 < off + roundUp len 2 →
      (∀ k : Nat, k < len → off + k < 512 → Memory.byte s.pma (off + k) ≠ none) →
      exec (.pmaRead off len) s = .fault .pmaOutOfRange) ∧
    (∀ k : Nat, k < len → off % 2 = 0 → off + k < 512 → Memory.byte s.pma (off + k) = none →
      exec (.pmaRead off len) s = .fault .undefRead)

/-- R200 and R201: the rounded size and the word of `encode_receive_size`, the laws of both, and the failure above 1024. -/
def Obligations.ReceiveSizeEncoder : Prop :=
  ∀ (size : Nat) (s : State),
    (size ≤ 1024 → ∃ rsize enc,
      exec (.encodeReceiveSize size) s = .next (s.setResult (.encoded rsize enc)) ∧
      rsize = (if size ≤ 62 then roundUp size 2 else roundUp size 32) ∧
      enc.toNat = (if size ≤ 62 then 1024 * (rsize / 2) else 0x8000 + 1024 * (rsize / 32 - 1)) ∧
      size ≤ rsize ∧ capacity enc = rsize ∧ rsize - size < (if size ≤ 62 then 2 else 32) ∧ rsize % 2 = 0 ∧
      countField enc = 0) ∧
    (1024 < size → exec (.encodeReceiveSize size) s = .next (s.setResult (.error .endpointOverflow)))

/-! ## Endpoint allocation (file 42_endpoint_alloc.md) -/

/-- A pinned OUT allocation at a slot that can take it (R220, R221, R225, R228, R229): the record, the ghost capacity, the
arena and the two receive words of the descriptor, and nothing else. -/
def Obligations.PinnedOutAllocation : Prop :=
  ∀ (a : Byte) (i : Slot) (t : EpType) (mps rsize : Nat) (enc : Word) (s : State), s.sched = [] → s.phase = .configured →
    addrIndex a = i → Available s .out t i → encodeReceiveSize mps = .ok (rsize, enc) → s.nextFree + rsize ≤ 512 →
    ∃ m, exec (.allocateEndpoint .out (some a) t mps) s =
        .next (((((s.setNextFree (s.nextFree + rsize)).setPma m).setEp i ((s.epAt i).claim .out t)).setRxCap i
          rsize).setResult (.address (epAddr i .out))) ∧
      Memory.wordAt m (8 * i.val + 4) = some (BitVec.ofNat 16 s.nextFree) ∧ Memory.wordAt m (8 * i.val + 6) = some enc ∧
      (∀ x : Nat, x < 8 * i.val + 4 ∨ 8 * i.val + 8 ≤ x → Memory.byte m x = Memory.byte s.pma x)

/-- A pinned IN allocation at a slot that can take it (R220, R221, R225, R228, R230). -/
def Obligations.PinnedInAllocation : Prop :=
  ∀ (a : Byte) (i : Slot) (t : EpType) (mps : Nat) (s : State), s.sched = [] → s.phase = .configured →
    addrIndex a = i → Available s .inn t i → s.nextFree + roundUp mps 2 ≤ 512 →
    ∃ m, exec (.allocateEndpoint .inn (some a) t mps) s =
        .next (((((s.setNextFree (s.nextFree + roundUp mps 2)).setPma m).setEp i ((s.epAt i).claim .inn t)).setTxCap i
          (roundUp mps 2)).setResult (.address (epAddr i .inn))) ∧
      Memory.wordAt m (8 * i.val) = some (BitVec.ofNat 16 s.nextFree) ∧ Memory.wordAt m (8 * i.val + 2) = some 0x0000 ∧
      (∀ x : Nat, x < 8 * i.val ∨ 8 * i.val + 4 ≤ x → Memory.byte m x = Memory.byte s.pma x)

/-- R222, R223 and R226: after `enable` the allocation faults; a pinned request fails with `EndpointOverflow` where no such
slot exists, and with `EndpointTaken` where the slot has another type or the direction already; a claim the encoder or
the arena turns away fails with `EndpointOverflow` and leaves the type assigned; a pinned request succeeds only at its own
slot. -/
def Obligations.AllocationRefusals : Prop :=
  (∀ (d : Dir) (req : Option Byte) (t : EpType) (mps : Nat) (s : State), s.phase = .enabled →
    exec (.allocateEndpoint d req t mps) s = .fault .allocateAfterEnable) ∧
  (∀ (d : Dir) (a : Byte) (t : EpType) (mps : Nat) (s : State), s.phase = .configured →
    (8 ≤ addrIndex a →
      exec (.allocateEndpoint d (some a) t mps) s = .next (s.setResult (.error .endpointOverflow))) ∧
    (∀ (i : Slot) (u : EpType), addrIndex a = i → (s.epAt i).type = some u → u ≠ t ∨ claimed i d s = true →
      exec (.allocateEndpoint d (some a) t mps) s = .next (s.setResult (.error .endpointTaken))) ∧
    (∀ i : Slot, addrIndex a = i → Available s d t i →
      ((d = .out ∧ 1024 < mps) ∨ (d = .inn ∧ 512 < s.nextFree + roundUp mps 2) ∨
        (d = .out ∧ ∃ rsize enc, encodeReceiveSize mps = .ok (rsize, enc) ∧ 512 < s.nextFree + roundUp rsize 2)) →
      exec (.allocateEndpoint d (some a) t mps) s =
        .next ((s.setEp i ⟨some t, (s.epAt i).out, (s.epAt i).inn⟩).setResult (.error .endpointOverflow))) ∧
    (∀ (x : Byte) (u : State), exec (.allocateEndpoint d (some a) t mps) s = .next u → u.result = .address x →
      ∃ i : Slot, addrIndex a = i ∧ x = epAddr i d))

/-- With no request, the search starts at slot 1 and takes the lowest slot that can take the direction and type, as a request
pinned to that slot would; with none left it fails with `EndpointOverflow` (R221, R224, R225, R227). -/
def Obligations.UnpinnedAllocation : Prop :=
  ∀ (d : Dir) (t : EpType) (mps : Nat) (s : State), s.phase = .configured →
    (∀ n, (s.epAt n).out = true ∨ (s.epAt n).inn = true → (s.epAt n).type ≠ none) →
    (∀ i : Slot, 1 ≤ i.val → Available s d t i → (∀ j : Slot, 1 ≤ j.val → j < i → ¬ Available s d t j) →
      exec (.allocateEndpoint d none t mps) s = exec (.allocateEndpoint d (some (epAddr i d)) t mps) s) ∧
    ((∀ j : Slot, 1 ≤ j.val → ¬ Available s d t j) →
      exec (.allocateEndpoint d none t mps) s = .next (s.setResult (.error .endpointOverflow)))

/-- R48(a) and R47: but for constructing the driver again, a slot's type once set never changes and an allocated direction
stays allocated, under any interleaving. -/
def Obligations.EndpointRecordsOnlyGrow : Prop :=
  ∀ (i : Instr) (s t : State) (n : Slot), exec i s = .next t → (∀ c, i ≠ .construct c) →
    (∀ ty, (s.epAt n).type = some ty → (t.epAt n).type = some ty) ∧
    ((s.epAt n).out = true → (t.epAt n).out = true) ∧ ((s.epAt n).inn = true → (t.epAt n).inn = true)

/-! ## Endpoint operations (file 43_endpoint_ops.md) -/

/-- R240: `reset` with no bus step in between, slot by slot, and nothing else but ISTR and DADDR. -/
def Obligations.DriverResetEffect : Prop :=
  ∀ s : State, s.sched = [] →
    ∃ t, exec .reset s = .next t ∧ t = { s with epr := t.epr, istr := 0x0000, daddr := 0x0080, result := .unit } ∧
      ∀ n : Slot,
        ((s.epAt n).type = none → t.eprAt n = s.eprAt n) ∧
        (∀ ty, (s.epAt n).type = some ty →
          typeOf (t.eprAt n) = ty ∧ eaOf (t.eprAt n) = BitVec.ofNat 4 n ∧
          kindOf (t.eprAt n) = kindOf (s.eprAt n) ∧ setupOf (t.eprAt n) = setupOf (s.eprAt n) ∧
          (∀ d, ctrOf d (t.eprAt n) = ctrOf d (s.eprAt n) ∧ dtogOf d (t.eprAt n) = dtogOf d (s.eprAt n)) ∧
          statusOf .out (t.eprAt n) = (if (s.epAt n).out then .valid else statusOf .out (s.eprAt n)) ∧
          statusOf .inn (t.eprAt n) = (if (s.epAt n).inn then .nak else statusOf .inn (s.eprAt n)))

/-- R241: two calls of `reset` with no bus step in between leave the state of one; with bus steps between the calls, the second
sets every allocated direction of a typed slot back to its ready status. -/
def Obligations.DriverResetIdempotent : Prop :=
  ∀ s : State, s.sched = [] → ∃ t, exec .reset s = .next t ∧ exec .reset t = .next t ∧
    ∀ (bs : List BusStep) (u : State), runBus bs t = .done () u → ∃ v, exec .reset u = .next v ∧
      ∀ n : Slot, (s.epAt n).type ≠ none →
        ((s.epAt n).out = true → statusOf .out (v.eprAt n) = .valid) ∧
        ((s.epAt n).inn = true → statusOf .inn (v.eprAt n) = .nak)

/-- R382: after a bus reset every endpoint is Disabled and no address is answered; `reset` then gives every typed slot its type
and index and every allocated direction its ready status, every toggle and flag 0, and address 0 with recognition on. -/
def Obligations.BusResetThenReset : Prop :=
  ∀ s : State, s.sched = [] → s.busOn = true →
    ∃ u t, exec .busReset s = .next u ∧ exec .reset u = .next t ∧ u.answering = false ∧ u.istr.getLsbD 10 = true ∧
      u.daddr = 0x0000 ∧ (∀ (n : Slot) (d : Dir), u.eprAt n = 0x0000 ∧ statusOf d (u.eprAt n) = .disabled) ∧
      t = { s with epr := t.epr, istr := 0x0000, daddr := 0x0080, result := .unit } ∧
      ∀ n : Slot, ((s.epAt n).type = none → t.eprAt n = 0x0000) ∧
        (∀ ty, (s.epAt n).type = some ty →
          typeOf (t.eprAt n) = ty ∧ eaOf (t.eprAt n) = BitVec.ofNat 4 n ∧
          statusOf .out (t.eprAt n) = (if (s.epAt n).out then .valid else .disabled) ∧
          statusOf .inn (t.eprAt n) = (if (s.epAt n).inn then .nak else .disabled) ∧
          (∀ d, ctrOf d (t.eprAt n) = false ∧ dtogOf d (t.eprAt n) = false))

/-- `write` on an IN direction at Nak or Stall (R242 to R245): the payload at the address of ADDR_TX, the count in COUNT_TX, the
status Valid, the length returned; every byte outside the payload's words and COUNT_TX stays. -/
def Obligations.WriteArmsTransfer : Prop :=
  ∀ (i : Slot) (src : List Byte) (off : Word) (s : State), s.sched = [] →
    (statusOf .inn (s.eprAt i) = .nak ∨ statusOf .inn (s.eprAt i) = .stall) → src.length ≤ s.txCapAt i →
    Memory.wordAt s.pma (8 * i.val) = some off → CopyInRange off.toNat src.length → src.length < 1024 →
    ∃ m q, exec (.write (epAddr i .inn) src) s =
        .next (((s.setPma m).setEpr i q).setResult (.written src.length)) ∧
      Memory.wordAt m (8 * i.val + 2) = some (BitVec.ofNat 16 src.length) ∧
      (∀ a : Nat, a ≠ 8 * i.val + 2 → a ≠ 8 * i.val + 3 → Memory.byte m a =
        if off.toNat ≤ a ∧ a < off.toNat + roundUp src.length 2 then some (src.getD (a - off.toNat) 0x00)
        else Memory.byte s.pma a) ∧
      statusOf .inn q = .valid ∧ ctrOf .inn q = ctrOf .inn (s.eprAt i) ∧ dtogOf .inn q = dtogOf .inn (s.eprAt i) ∧
      SameDir .out (s.eprAt i) q ∧ SameConfig (s.eprAt i) q

/-- R243 and R246, with the checks of R242 in their order (R353): what `write` answers where it does not copy, and that it then
changes nothing. -/
def Obligations.WriteRejections : Prop :=
  ∀ (addr : Byte) (src : List Byte) (s : State),
    ((addrDir addr = .out ∨ 8 ≤ addrIndex addr) →
      exec (.write addr src) s = .next (s.setResult (.error .invalidEndpoint))) ∧
    (∀ i : Slot, s.sched = [] → addrDir addr = .inn → addrIndex addr = i →
      (statusOf .inn (s.eprAt i) = .valid → exec (.write addr src) s = .next (s.setResult (.error .busy))) ∧
      (statusOf .inn (s.eprAt i) = .disabled →
        exec (.write addr src) s = .next (s.setResult (.error .invalidEndpoint))) ∧
      ((statusOf .inn (s.eprAt i) = .nak ∨ statusOf .inn (s.eprAt i) = .stall) → s.txCapAt i < src.length →
        exec (.write addr src) s = .fault .writeExceedsBuffer))

/-- `read` of a pending packet (R250 to R252, R396): the low 6 bits of COUNT_RX say how many bytes are copied; CTR_RX is cleared and the
direction re-armed, and no byte of packet memory changes. -/
def Obligations.ReadDeliversPacket : Prop :=
  ∀ (i : Slot) (len : Nat) (c off : Word) (buf : List Byte) (s : State), s.sched = [] →
    statusOf .out (s.eprAt i) ≠ .disabled → ctrOf .out (s.eprAt i) = true →
    Memory.wordAt s.pma (8 * i.val + 6) = some c → Memory.wordAt s.pma (8 * i.val + 4) = some off →
    c.toNat % 64 = buf.length → buf.length ≤ len → CopyInRange off.toNat buf.length →
    (∀ k : Nat, k < buf.length → Memory.byte s.pma (off.toNat + k) = buf[k]?) →
    ∃ q, exec (.read (epAddr i .out) len) s = .next ((s.setEpr i q).setResult (.received buf.length buf)) ∧
      ctrOf .out q = false ∧ statusOf .out q = .valid ∧ dtogOf .out q = dtogOf .out (s.eprAt i) ∧
      SameDir .inn (s.eprAt i) q ∧ SameConfig (s.eprAt i) q

/-- The checks of `read` in the order of R250 and R353: each error changes nothing, in particular CTR_RX stays set after
`BufferOverflow`; an `undef` COUNT_RX or ADDR_RX word faults, and so does an `undef` byte the copy reaches, an odd buffer
offset, and a copy past the memory (R84). -/
def Obligations.ReadRejections : Prop :=
  ∀ (addr : Byte) (len : Nat) (s : State),
    ((addrDir addr = .inn ∨ 8 ≤ addrIndex addr) →
      exec (.read addr len) s = .next (s.setResult (.error .invalidEndpoint))) ∧
    (∀ i : Slot, s.sched = [] → addrDir addr = .out → addrIndex addr = i →
      (statusOf .out (s.eprAt i) = .disabled →
        exec (.read addr len) s = .next (s.setResult (.error .invalidEndpoint))) ∧
      (statusOf .out (s.eprAt i) ≠ .disabled → ctrOf .out (s.eprAt i) = false →
        exec (.read addr len) s = .next (s.setResult (.error .noData))) ∧
      (∀ c, statusOf .out (s.eprAt i) ≠ .disabled → ctrOf .out (s.eprAt i) = true →
        Memory.wordAt s.pma (8 * i.val + 6) = some c → len < c.toNat % 64 →
        exec (.read addr len) s = .next (s.setResult (.error .bufferOverflow))) ∧
      (statusOf .out (s.eprAt i) ≠ .disabled → ctrOf .out (s.eprAt i) = true →
        Memory.wordAt s.pma (8 * i.val + 6) = none → exec (.read addr len) s = .fault .undefRead) ∧
      (∀ c, statusOf .out (s.eprAt i) ≠ .disabled → ctrOf .out (s.eprAt i) = true →
        Memory.wordAt s.pma (8 * i.val + 6) = some c → c.toNat % 64 ≤ len →
        (Memory.wordAt s.pma (8 * i.val + 4) = none → exec (.read addr len) s = .fault .undefRead) ∧
        (∀ off, Memory.wordAt s.pma (8 * i.val + 4) = some off →
          (c.toNat % 64 ≠ 0 → off.toNat % 2 = 1 → exec (.read addr len) s = .fault .pmaMisaligned) ∧
          (∀ k : Nat, k < c.toNat % 64 → off.toNat % 2 = 0 → off.toNat + k < 512 →
            Memory.byte s.pma (off.toNat + k) = none → exec (.read addr len) s = .fault .undefRead) ∧
          (c.toNat % 64 ≠ 0 → off.toNat % 2 = 0 → 512 < off.toNat + roundUp (c.toNat % 64) 2 →
            (∀ k : Nat, k < c.toNat % 64 → off.toNat + k < 512 → Memory.byte s.pma (off.toNat + k) ≠ none) →
            exec (.read addr len) s = .fault .pmaOutOfRange))))

/-- R255 and R256: `stall` sets the addressed direction to Stall whatever it was; `unstall` returns a stalled direction to its
ready status and leaves any other alone; an index that names no slot faults. -/
def Obligations.StallUnstallEffect : Prop :=
  ∀ (addr : Byte) (s : State),
    (8 ≤ addrIndex addr → exec (.stall addr) s = .fault .noSuchEndpoint ∧
      exec (.unstall addr) s = .fault .noSuchEndpoint) ∧
    (∀ i : Slot, s.sched = [] → addrIndex addr = i →
      (∃ q, exec (.stall addr) s = .next ((s.setEpr i q).setResult .unit) ∧ statusOf (addrDir addr) q = .stall ∧
        ctrOf (addrDir addr) q = ctrOf (addrDir addr) (s.eprAt i) ∧
        dtogOf (addrDir addr) q = dtogOf (addrDir addr) (s.eprAt i) ∧
        (∀ e, e ≠ addrDir addr → SameDir e (s.eprAt i) q) ∧ SameConfig (s.eprAt i) q) ∧
      (statusOf (addrDir addr) (s.eprAt i) = .stall →
        ∃ q, exec (.unstall addr) s = .next ((s.setEpr i q).setResult .unit) ∧
          statusOf (addrDir addr) q = (if addr.getLsbD 7 then .nak else .valid) ∧
          ctrOf (addrDir addr) q = ctrOf (addrDir addr) (s.eprAt i) ∧
          dtogOf (addrDir addr) q = dtogOf (addrDir addr) (s.eprAt i) ∧
          (∀ e, e ≠ addrDir addr → SameDir e (s.eprAt i) q) ∧ SameConfig (s.eprAt i) q) ∧
      (statusOf (addrDir addr) (s.eprAt i) ≠ .stall → exec (.unstall addr) s = .next (s.setResult .unit)))

/-- R257: `stall` then `unstall` leaves the direction at its ready status, which is the pre-stall status exactly when that was the
ready status; `unstall` alone on a direction that is not stalled is a no-op. -/
def Obligations.StallThenUnstall : Prop :=
  ∀ (addr : Byte) (i : Slot) (s : State), s.sched = [] → addrIndex addr = i →
    ∃ u t, exec (.stall addr) s = .next u ∧ exec (.unstall addr) u = .next t ∧
      statusOf (addrDir addr) (t.eprAt i) = ready (addrDir addr) ∧
      (statusOf (addrDir addr) (t.eprAt i) = statusOf (addrDir addr) (s.eprAt i) ↔
        statusOf (addrDir addr) (s.eprAt i) = ready (addrDir addr)) ∧
      (statusOf (addrDir addr) (s.eprAt i) = ready (addrDir addr) → t = s.setResult .unit) ∧
      (statusOf (addrDir addr) (s.eprAt i) ≠ .stall → exec (.unstall addr) s = .next (s.setResult .unit))

/-! ## The poll decoder (file 44_poll.md) -/

/-- R281 to R285: `poll` reports WKUP before RESET before SUSP before CTR, decodes the wakeup from D+ alone, clears only the flag it
reports, and looks at no other flag; with WKUP and RESET both set, the next `poll` reports the reset. Reads of ISTR and FNR draw their free bits anew (log entry 5). -/
def Obligations.PollPriority : Prop :=
  ∀ s : State, s.sched = [] →
    (s.istr.getLsbD 12 = true → exec .poll s =
      .next (((s.setIstr (s.istr &&& 0x6F00)).bumpDraws.bumpDraws).setResult
        (.event (if s.fnr.getLsbD 15 then .suspend else .resume)))) ∧
    (s.istr.getLsbD 12 = true → s.istr.getLsbD 10 = true → ∃ t u, exec .poll s = .next t ∧ exec .poll t = .next u ∧
      (t.result = .event .resume ∨ t.result = .event .suspend) ∧ u.result = .event .reset) ∧
    (s.istr.getLsbD 12 = false → s.istr.getLsbD 10 = true →
      exec .poll s = .next (((s.setIstr (s.istr &&& 0x7B00)).bumpDraws).setResult (.event .reset))) ∧
    (s.istr.getLsbD 12 = false → s.istr.getLsbD 10 = false → s.istr.getLsbD 11 = true →
      exec .poll s = .next (((s.setIstr (s.istr &&& 0x7700)).bumpDraws).setResult (.event .suspend))) ∧
    (s.istr.getLsbD 12 = false → s.istr.getLsbD 10 = false → s.istr.getLsbD 11 = false → s.anyCtr = false →
      exec .poll s = .next (s.bumpDraws.setResult (.event .none)))

/-- R286: with CTR alone pending, `poll` reports the three masks over the slots up to `max_index` and clears CTR_TX of each slot
it reports as IN-complete; CTR_RX and everything else stay. -/
def Obligations.PollScan : Prop :=
  ∀ s : State, s.sched = [] → s.istr.getLsbD 12 = false → s.istr.getLsbD 10 = false → s.istr.getLsbD 11 = false →
    s.anyCtr = true →
    ∃ t om im sm, exec .poll s = .next t ∧
      t = { s with epr := t.epr, draws := s.draws + 1, result := .event (.data om im sm) } ∧
      (∀ b : Nat, om.getLsbD b = true ↔ ∃ n : Slot, n.val = b ∧ n ≤ s.maxIndex ∧ ctrOf .out (s.eprAt n) = true) ∧
      (∀ b : Nat, im.getLsbD b = true ↔ ∃ n : Slot, n.val = b ∧ n ≤ s.maxIndex ∧ ctrOf .inn (s.eprAt n) = true) ∧
      (∀ b : Nat, sm.getLsbD b = true ↔
        ∃ n : Slot, n.val = b ∧ n ≤ s.maxIndex ∧ ctrOf .out (s.eprAt n) = true ∧ setupOf (s.eprAt n) = true) ∧
      (∀ n : Slot, (s.maxIndex < n → t.eprAt n = s.eprAt n) ∧
        (n ≤ s.maxIndex → ctrOf .inn (t.eprAt n) = false ∧ statOf .inn (t.eprAt n) = statOf .inn (s.eprAt n) ∧
          dtogOf .inn (t.eprAt n) = dtogOf .inn (s.eprAt n) ∧ SameDir .out (s.eprAt n) (t.eprAt n) ∧
          SameConfig (s.eprAt n) (t.eprAt n)))

/-! ## Peripheral control (file 46_peripheral_control.md) and construction -/

/-- R331: `enable` with no bus step in between: the highest slot with a direction, PDWN and FRES cleared, the four masks on, BTABLE 0,
every latched flag cleared, the phase Enabled; EPR and PMA stay. -/
def Obligations.EnableEffect : Prop :=
  ∀ s : State, s.sched = [] →
    ∃ h : Slot, exec .enable s = .next { s with
        maxIndex := h, cntr := (s.cntr &&& 0xFF1C) ||| 0x9C00, btable := 0x0000, istr := 0x0000, phase := .enabled,
        result := .unit } ∧
      (∀ n : Slot, (s.epAt n).out = true ∨ (s.epAt n).inn = true → n ≤ h) ∧
      ((s.epAt h).out = true ∨ (s.epAt h).inn = true ∨ h = 0)

/-- R333 and R117: `set_device_address` writes EF = 1 and the address, or faults above 127; the word `daddrw.set` does the same
through the gate (R161). -/
def Obligations.SetDeviceAddressEffect : Prop :=
  (∀ (a : Byte) (s : State), s.sched = [] → a.toNat ≤ 127 →
    ∃ q, exec (.setDeviceAddress a) s = .next ((s.setDaddr q).setResult .unit) ∧ q.toNat = 0x0080 + a.toNat) ∧
  (∀ (a : Byte) (s : State), 127 < a.toNat → exec (.setDeviceAddress a) s = .fault .addressOutOfRange) ∧
  (∀ (a : BitVec 7) (s : State), s.sched = [] →
    ∃ q, exec (.daddrwSet a) s = .next ((s.setDaddr q).setResult .unit) ∧ q.toNat = 0x0080 + a.toNat)

/-- R334 and R335: `suspend` sets FSUSP and LP_MODE, `resume` clears them; the reserved bits 7:5 stay 0 (R161); nothing else
changes. -/
def Obligations.SuspendResumeEffect : Prop :=
  ∀ s : State, s.sched = [] →
    exec .suspend s = .next ((s.setCntr ((s.cntr &&& 0xFF13) ||| 0x000C)).setResult .unit) ∧
    exec .resume s = .next ((s.setCntr (s.cntr &&& 0xFF13)).setResult .unit)

/-- R393: a wakeup between `suspend`'s read and write leaves LP_MODE set with WKUP pending; `resume` ends with FSUSP and LP_MODE clear
under any interleaving. -/
def Obligations.WakeupRace : Prop :=
  (∀ (dp dm : Bool) (s : State), s.sched = [[], [.wakeup dp dm]] → s.busOn = true →
    ∃ t, exec .suspend s = .next t ∧ lpMode t.cntr = true ∧ fsusp t.cntr = true ∧ t.istr.getLsbD 12 = true) ∧
  (∀ s t : State, exec .resume s = .next t → lpMode t.cntr = false ∧ fsusp t.cntr = false)

/-- R336 and R383: `force_reset` without the capability fails with `Unsupported` and changes nothing; with it, the pin is low and
PDWN is as before; no other state of the block changes. -/
def Obligations.ForceResetEffect : Prop :=
  (∀ s : State, s.resetCap = none → exec .forceReset s = .next (s.setResult (.error .unsupported))) ∧
  (∀ (s : State) (cap : ResetCap), s.sched = [] → s.resetCap = some cap →
    exec .forceReset s = .next (((s.setCntr (s.cntr &&& 0xFF1F)).setPinLevel .low).setResult .unit))

/-- R381: construction sets the driver's side of the state and makes no register and no packet-memory access. -/
def Obligations.ConstructEffect : Prop :=
  ∀ (cap : Option ResetCap) (s : State),
    exec (.construct cap) s = .next { s with
      ep := Vector.replicate 8 ⟨none, false, false⟩, rxCap := Vector.replicate 8 0, txCap := Vector.replicate 8 0,
      nextFree := 64, maxIndex := 0, phase := .configured, resetCap := cap, result := .unit }

/-! ## The bus engine (file 45_bus_engine.md) -/

/-- R309: a bus reset while the engine runs latches RESET and, with `BUS_RESET_CLEARS_REGS` true (its value here), clears every EPR and
DADDR; with the parameter false it clears neither. -/
def Obligations.BusResetEffect : Prop :=
  ∀ s : State,
    (s.busOn = true → exec .busReset s = .next { s with
      istr := s.istr ||| 0x0400, epr := Vector.replicate 8 0x0000, daddr := 0x0000 }) ∧
    busResetEffect false s = s.setIstr (s.istr ||| 0x0400)

/-- R310, R312 and R313, and R311 where CNTR.FRES is 0 too (log entry 12): the flag each bus event latches, the line state, and
nothing else. -/
def Obligations.BusEventsEffect : Prop :=
  ∀ s : State,
    (∀ dp dm : Bool, ∃ f, exec (.busLine dp dm) s = .next (s.setFnr f) ∧ f.getLsbD 15 = dp ∧ f.getLsbD 14 = dm ∧
      f &&& 0x3FFF = s.fnr &&& 0x3FFF) ∧
    (s.busOn = true →
      exec .busSuspend s = .next (s.setIstr (s.istr ||| 0x0800)) ∧
      exec (.busOtherEvent .pmaovr) s = .next (s.setIstr (s.istr ||| 0x4000)) ∧
      exec (.busOtherEvent .err) s = .next (s.setIstr (s.istr ||| 0x2000)) ∧
      exec (.busOtherEvent .sof) s = .next (s.setIstr (s.istr ||| 0x0200)) ∧
      exec (.busOtherEvent .esof) s = .next (s.setIstr (s.istr ||| 0x0100)) ∧
      (∀ dp dm : Bool, ∃ f, exec (.busWakeup dp dm) s =
          .next (((s.setIstr (s.istr ||| 0x1000)).setCntr (s.cntr &&& 0xFFFB)).setFnr f) ∧
        f.getLsbD 15 = dp ∧ f.getLsbD 14 = dm ∧ f &&& 0x3FFF = s.fnr &&& 0x3FFF))

/-- R314: while CNTR.PDWN = 1 or CNTR.FRES = 1, only `bus_line` is enabled; every other bus step has no effect (log entry 8). -/
def Obligations.BusOffOnlyLine : Prop :=
  ∀ (i : Instr) (s : State), s.cntr.getLsbD 1 = true ∨ s.cntr.getLsbD 0 = true → isBusStep i = true →
    (∀ dp dm, i ≠ .busLine dp dm) → exec i s = .next s

/-- The routing of R301: no effect without DADDR.EF or a slot with that EA (log entry 8); the lowest slot with that EA is reached,
whatever its type and status; an isochronous slot faults, and so does a declared capacity of 0 on a direction that admits
the packet. What the slot reached then does is said by BusOutEffect, BusSetupEffect and BusInEffect. -/
def Obligations.TransactionRouting : Prop :=
  ∀ (e : BitVec 4) (data : List Byte) (pkt : Vector Byte 8) (fresh acked : Bool) (s : State),
    ((s.daddr.getLsbD 7 = false ∨ ∀ n : Slot, eaOf (s.eprAt n) ≠ e) →
      exec (.busOut e data fresh) s = .next s ∧ exec (.busSetup e pkt) s = .next s ∧
      exec (.busIn e acked) s = .next s) ∧
    (∀ n : Slot, s.busOn = true → s.daddr.getLsbD 7 = true → eaOf (s.eprAt n) = e →
      (∀ m : Slot, m < n → eaOf (s.eprAt m) ≠ e) →
      s.answering = true ∧ s.route e = some n ∧
      (typeOf (s.eprAt n) = .isochronous →
        exec (.busOut e data fresh) s = .fault .isochronousUnmodelled ∧
        exec (.busSetup e pkt) s = .fault .isochronousUnmodelled ∧
        exec (.busIn e acked) s = .fault .isochronousUnmodelled) ∧
      (∀ cnt, typeOf (s.eprAt n) ≠ .isochronous → s.busBd n .countRx = .ok cnt → capacity cnt = 0 →
        (statusOf .out (s.eprAt n) = .valid → exec (.busOut e data fresh) s = .fault .zeroCapacityReceive) ∧
        (typeOf (s.eprAt n) = .control → statusOf .out (s.eprAt n) ≠ .disabled →
          exec (.busSetup e pkt) s = .fault .zeroCapacityReceive)))

/-- `bus_out` at the slot it reaches (R302, R303, R304): Disabled, Stall and Nak answer and change nothing; a retransmission is
acknowledged and discarded; a new packet that fits is stored, the rest of the buffer is `undef`, the count and the
endpoint register are updated, and every other byte stays. A new packet that does not fit a Valid direction breaks the
host's duty (R308); that any length gets the other answers is log entry 9, the handshake events are log entry 13, and
COUNT_RX's upper bits where the buffer covers that word are log entry 25. -/
def Obligations.BusOutEffect : Prop :=
  ∀ (e : BitVec 4) (data : List Byte) (fresh : Bool) (n : Slot) (s : State),
    s.answering = true → s.route e = some n → typeOf (s.eprAt n) ≠ .isochronous →
    (statusOf .out (s.eprAt n) = .disabled →
      exec (.busOut e data fresh) s = .next (s.pushEvent (.handshake n .out .none))) ∧
    (statusOf .out (s.eprAt n) = .stall →
      exec (.busOut e data fresh) s = .next (s.pushEvent (.handshake n .out .stall))) ∧
    (statusOf .out (s.eprAt n) = .nak →
      exec (.busOut e data fresh) s = .next (s.pushEvent (.handshake n .out .nak))) ∧
    (∀ cnt, statusOf .out (s.eprAt n) = .valid → s.busBd n .countRx = .ok cnt → capacity cnt ≠ 0 →
      exec (.busOut e data false) s = .next (s.pushEvent (.handshake n .out .ack)) ∧
      (capacity cnt < data.length → exec (.busOut e data true) s = .refused .hostDutyBroken) ∧
      (∀ a, s.busBd n .addrRx = .ok a → data.length ≤ capacity cnt → bufferOffset a + capacity cnt ≤ 512 →
        ∃ m q, exec (.busOut e data true) s =
            .next (((s.setPma m).setEpr n q).pushEvent (.handshake n .out .ack)) ∧
          (∃ w, Memory.wordAt m (s.btable.toNat + 8 * n.val + 6) = some w ∧ countField w = data.length ∧
            w.extractLsb' 10 6 = cnt.extractLsb' 10 6) ∧
          (∀ x : Nat, x ≠ s.btable.toNat + 8 * n.val + 6 → x ≠ s.btable.toNat + 8 * n.val + 7 → Memory.byte m x =
            if bufferOffset a ≤ x ∧ x < bufferOffset a + data.length then data[x - bufferOffset a]?
            else if bufferOffset a + data.length ≤ x ∧ x < bufferOffset a + capacity cnt then none
            else Memory.byte s.pma x) ∧
          setupOf q = false ∧ dtogOf .out q = !dtogOf .out (s.eprAt n) ∧ statusOf .out q = .nak ∧
          ctrOf .out q = true ∧ SameDir .inn (s.eprAt n) q ∧ typeOf q = typeOf (s.eprAt n) ∧
          kindOf q = kindOf (s.eprAt n) ∧ eaOf q = eaOf (s.eprAt n)))

/-- `bus_setup` at the slot it reaches (R305; log entry 14 for the toggles and STAT_TX): on a Control slot that is not Disabled, also at
Nak and Stall, the packet is stored and both directions are updated; on another type it is an OUT. The handshake events,
`none` on a Disabled slot among them, are log entry 13, and COUNT_RX's upper bits where the buffer covers that word are
log entry 25. -/
def Obligations.BusSetupEffect : Prop :=
  ∀ (e : BitVec 4) (data : Vector Byte 8) (n : Slot) (s : State), s.answering = true → s.route e = some n →
    (typeOf (s.eprAt n) ≠ .control → exec (.busSetup e data) s = exec (.busOut e data.toList true) s) ∧
    (typeOf (s.eprAt n) = .control → statusOf .out (s.eprAt n) = .disabled →
      exec (.busSetup e data) s = .next (s.pushEvent (.handshake n .out .none))) ∧
    (∀ cnt a, typeOf (s.eprAt n) = .control → statusOf .out (s.eprAt n) ≠ .disabled →
      s.busBd n .countRx = .ok cnt → s.busBd n .addrRx = .ok a → 8 ≤ capacity cnt →
      bufferOffset a + capacity cnt ≤ 512 →
      ∃ m q, exec (.busSetup e data) s = .next (((s.setPma m).setEpr n q).pushEvent (.handshake n .out .ack)) ∧
        (∃ w, Memory.wordAt m (s.btable.toNat + 8 * n.val + 6) = some w ∧ countField w = 8 ∧
          w.extractLsb' 10 6 = cnt.extractLsb' 10 6) ∧
        (∀ x : Nat, x ≠ s.btable.toNat + 8 * n.val + 6 → x ≠ s.btable.toNat + 8 * n.val + 7 → Memory.byte m x =
          if bufferOffset a ≤ x ∧ x < bufferOffset a + 8 then data.toList[x - bufferOffset a]?
          else if bufferOffset a + 8 ≤ x ∧ x < bufferOffset a + capacity cnt then none
          else Memory.byte s.pma x) ∧
        setupOf q = true ∧ ctrOf .out q = true ∧ (∀ d, dtogOf d q = true ∧ statusOf d q = .nak) ∧
        ctrOf .inn q = ctrOf .inn (s.eprAt n) ∧ typeOf q = .control ∧ kindOf q = kindOf (s.eprAt n) ∧
        eaOf q = eaOf (s.eprAt n))

/-- `bus_in` at the slot it reaches (R302, R306): Disabled, Stall and Nak answer and change nothing; a Valid direction sends the bytes
COUNT_TX and ADDR_TX name, an `undef` byte as `none`; only an acknowledgement changes the endpoint register. The
handshake events are log entry 13. -/
def Obligations.BusInEffect : Prop :=
  ∀ (e : BitVec 4) (acked : Bool) (n : Slot) (s : State), s.answering = true → s.route e = some n →
    typeOf (s.eprAt n) ≠ .isochronous →
    (statusOf .inn (s.eprAt n) = .disabled →
      exec (.busIn e acked) s = .next (s.pushEvent (.handshake n .inn .none))) ∧
    (statusOf .inn (s.eprAt n) = .stall →
      exec (.busIn e acked) s = .next (s.pushEvent (.handshake n .inn .stall))) ∧
    (statusOf .inn (s.eprAt n) = .nak →
      exec (.busIn e acked) s = .next (s.pushEvent (.handshake n .inn .nak))) ∧
    (∀ c a, statusOf .inn (s.eprAt n) = .valid → s.busBd n .countTx = .ok c → s.busBd n .addrTx = .ok a →
      bufferOffset a + countField c ≤ 512 →
      ∃ bytes : List (Option Byte), bytes.length = countField c ∧
        (∀ k : Nat, k < countField c → bytes[k]? = some (Memory.byte s.pma (bufferOffset a + k))) ∧
        exec (.busIn e false) s =
          .next ((s.pushEvent (.sent n bytes)).pushEvent (.handshake n .inn .none)) ∧
        ∃ q, exec (.busIn e true) s =
            .next (((s.pushEvent (.sent n bytes)).setEpr n q).pushEvent (.handshake n .inn .ack)) ∧
          dtogOf .inn q = !dtogOf .inn (s.eprAt n) ∧ statusOf .inn q = .nak ∧ ctrOf .inn q = true ∧
          SameDir .out (s.eprAt n) q ∧ SameConfig (s.eprAt n) q)

/-- No bus step changes the driver's side of the state, BTABLE, the caller's result or the program (R81, R309). -/
def Obligations.BusStepsKeepDriverState : Prop :=
  ∀ (i : Instr) (s t : State), isBusStep i = true → exec i s = .next t →
    t = { s with
      epr := t.epr, cntr := t.cntr, istr := t.istr, fnr := t.fnr, daddr := t.daddr, pma := t.pma, events := t.events } ∧
     t.cntr &&& 0xFFFB = s.cntr &&& 0xFFFB

/-! ## Rules about the whole machine -/

/-- R38, R35, R36 and R39, with no bus step in between: no driver operation sets a CTR flag or changes SETUP; and but for the raw writes
of a harness (R395), none changes a data toggle or EP_KIND. -/
def Obligations.DriverKeepsHardwareFlags : Prop :=
  ∀ (i : Instr) (s t : State) (n : Slot) (d : Dir), s.sched = [] → isBusStep i = false → exec i s = .next t →
    (ctrOf d (t.eprAt n) = true → ctrOf d (s.eprAt n) = true) ∧ setupOf (t.eprAt n) = setupOf (s.eprAt n) ∧
    (isRawEprWrite i = false →
      dtogOf d (t.eprAt n) = dtogOf d (s.eprAt n) ∧ kindOf (t.eprAt n) = kindOf (s.eprAt n))

/-- R356: the interrupt line is the OR of every pending and enabled source; with the masks `enable` sets it is CTR, WKUP, SUSP or
RESET; right after `enable` with no bus step in between, it is asserted exactly when a CTR flag is set. -/
def Obligations.InterruptLine : Prop :=
  (∀ s : State, s.usbIrq = true ↔
    ∃ b : Nat, 8 ≤ b ∧ b ≤ 15 ∧ (s.regValue .istr).getLsbD b = true ∧ s.cntr.getLsbD b = true) ∧
  (∀ s : State, s.cntr &&& 0xFF00 = 0x9C00 → (s.usbIrq = true ↔ s.anyCtr = true ∨ s.istr.getLsbD 12 = true ∨
    s.istr.getLsbD 11 = true ∨ s.istr.getLsbD 10 = true)) ∧
  (∀ s : State, s.sched = [] → ∃ t, exec .enable s = .next t ∧ t.usbIrq = s.anyCtr)

/-- R351: with no bus step in between, an operation that ends in an error has changed nothing, but that a failed claim of
`allocate_endpoint` leaves a type assigned to an untyped slot (R226). -/
def Obligations.ErrorLeavesState : Prop :=
  ∀ (i : Instr) (s t : State) (k : ErrorKind), s.sched = [] → isBusStep i = false → exec i s = .next t →
    t.result = .error k →
    t = s.setResult (.error k) ∨
    (∃ d req ty mps, i = .allocateEndpoint d req ty mps ∧ t = { s with ep := t.ep, result := .error k } ∧
      ∀ n : Slot, (t.epAt n).out = (s.epAt n).out ∧ (t.epAt n).inn = (s.epAt n).inn ∧
        ((t.epAt n).type = (s.epAt n).type ∨ ((s.epAt n).type = none ∧ (t.epAt n).type = some ty)))
end

