-- ==== Sys2Proof/Laws/Decode.lean ====
section
/-! SUPPORT. Laws of decoder and encoder: each operand read back from the bytes it was written as, whatever follows, and
the words of rules R114, R115 and R117 field by field. -/

namespace Sys2Proof

/-! ## Codes -/

@[simp] theorem Status.ofCode_code (st : Status) : Status.ofCode st.code = st := by cases st <;> rfl
@[simp] theorem Status.code_ofCode (c : BitVec 2) : (Status.ofCode c).code = c := by revert c; decide
@[simp] theorem EpType.ofCode_code (t : EpType) : EpType.ofCode t.code = t := by cases t <;> rfl
@[simp] theorem EpType.code_ofCode (c : BitVec 2) : (EpType.ofCode c).code = c := by revert c; decide

/-! ## Operands -/

theorem getNat_putNatFuel (fuel n : Nat) (rest : List Byte) (h : n ≤ fuel) :
    getNat (putNatFuel fuel n ++ rest) = .ok (n, rest) := by
  induction fuel generalizing n with
  | zero =>
    have : n = 0 := by omega
    subst this
    rfl
  | succ fuel ih =>
    unfold putNatFuel
    split
    · rename_i hn
      have h1 : n % 256 = n := by omega
      simp [getNat, h1, hn]
    · rename_i hn
      have h1 : (128 + n % 128) % 256 = 128 + n % 128 := by omega
      have h2 : ¬ 128 + n % 128 < 128 := by omega
      have h3 : n / 128 ≤ fuel := by omega
      have h4 : 128 + n % 128 - 128 + 128 * (n / 128) = n := by omega
      simp only [List.cons_append, getNat, BitVec.toNat_ofNat, Nat.reducePow, h1, h2, if_false, ih _ h3, h4]

@[simp] theorem getNat_putNat (n : Nat) (rest : List Byte) : getNat (putNat n ++ rest) = .ok (n, rest) :=
  getNat_putNatFuel n n rest (Nat.le_refl n)

@[simp] theorem takeBytes_append (bs rest : List Byte) : takeBytes bs.length (bs ++ rest) = .ok (bs, rest) := by
  induction bs with
  | nil => rfl
  | cons b bs ih => simp [takeBytes, ih]

@[simp] theorem getBytes_putBytes (bs rest : List Byte) : getBytes (putBytes bs ++ rest) = .ok (bs, rest) := by
  simp only [getBytes, putBytes, List.append_assoc, getNat_putNat]
  exact takeBytes_append bs rest

@[simp] theorem getBool_putBool (b : Bool) (rest : List Byte) : getBool (putBool b ++ rest) = .ok (b, rest) := by
  cases b <;> rfl

@[simp] theorem getDir_putDir (d : Dir) (rest : List Byte) : getDir (putDir d ++ rest) = .ok (d, rest) := by
  cases d <;> rfl

@[simp] theorem getType_putType (t : EpType) (rest : List Byte) : getType (putType t ++ rest) = .ok (t, rest) := by
  cases t <;> rfl

@[simp] theorem getStatus_putStatus (st : Status) (rest : List Byte) :
    getStatus (putStatus st ++ rest) = .ok (st, rest) := by
  cases st <;> rfl

@[simp] theorem getOther_putOther (o : OtherEvent) (rest : List Byte) :
    getOther (putOther o ++ rest) = .ok (o, rest) := by
  cases o <;> rfl

@[simp] theorem getReq_putReq (req : Option Byte) (rest : List Byte) : getReq (putReq req ++ rest) = .ok (req, rest) := by
  cases req <;> rfl

@[simp] theorem getCap_putCap (c : Option ResetCap) (rest : List Byte) : getCap (putCap c ++ rest) = .ok (c, rest) := by
  cases c with
  | none => rfl
  | some c =>
    have h : getBool (1 :: (putNat c.pin ++ (putNat c.delay ++ rest))) = .ok (true, putNat c.pin ++ (putNat c.delay ++ rest)) := rfl
    simp only [getCap, putCap, List.cons_append, List.append_assoc, h]
    show (do let (pin, bs) ← getNat (putNat c.pin ++ (putNat c.delay ++ rest)); _) = _
    rw [getNat_putNat]
    show (do let (delay, bs) ← getNat (putNat c.delay ++ rest); _) = _
    rw [getNat_putNat]
    rfl

theorem getU7_putU7 (n : Nat) (rest : List Byte) (h : isU7 n = true) : getU7 (putU7 n ++ rest) = .ok (n, rest) := by
  have hn : n < 128 := by simpa [isU7] using h
  have h1 : n % 256 = n := by omega
  simp [getU7, putU7, h1, hn]

@[simp] theorem getU4_putU4 (e : BitVec 4) (rest : List Byte) : getU4 (putU4 e ++ rest) = .ok (e, rest) := by
  have h : e.toNat % 256 = e.toNat := by have := e.isLt; omega
  have h' : e.toNat < 16 := e.isLt
  simp [getU4, putU4, h, h']

@[simp] theorem getSetup_toList (data : Vector Byte 8) (rest : List Byte) :
    getSetup (data.toList ++ rest) = .ok (data, rest) := by
  obtain ⟨⟨l⟩, h⟩ := data
  match l, h with
  | [_, _, _, _, _, _, _, _], _ => rfl

@[simp] theorem getWord_putWord (w : Word) (rest : List Byte) : getWord (putWord w ++ rest) = .ok (w, rest) := by
  have h : w.extractLsb' 8 8 ++ w.extractLsb' 0 8 = w := by
    apply BitVec.eq_of_getLsbD_eq
    intro i hi
    rw [BitVec.getLsbD_append]
    split
    · rename_i h; simp [h]
    · have h8 : i - 8 < 8 := by omega
      have e : 8 + (i - 8) = i := by omega
      simp [h8, e]
  show Except.ok (w.extractLsb' 8 8 ++ w.extractLsb' 0 8, rest) = _
  rw [h]

/-! ## Written words -/

/-- The row a tag names is the row found, when the word fits it. -/
theorem wordRowOf_tag (r : WordRow) (w : Word) (h : r.fits w = true) : wordRowOf r.tag w = .ok r := by
  cases r <;> simp [wordRowOf, wordRows, WordRow.tag, h]

theorem fits_epwConfigureWord (t : EpType) (k : Bool) (n : BitVec 4) :
    WordRow.configure.fits (epwConfigureWord t k n) = true := by
  cases t <;> cases k <;> revert n <;> decide

theorem fits_epwSetStatusOutWord (ss : BitVec 2) (t : EpType) (k : Bool) (a : BitVec 4) :
    WordRow.setStatusOut.fits (epwSetStatusOutWord ss t k a) = true := by
  cases t <;> cases k <;> revert a <;> revert ss <;> decide

theorem fits_epwSetStatusInWord (ss : BitVec 2) (t : EpType) (k : Bool) (a : BitVec 4) :
    WordRow.setStatusIn.fits (epwSetStatusInWord ss t k a) = true := by
  cases t <;> cases k <;> revert a <;> revert ss <;> decide

theorem fits_epwClearCtrOutWord (t : EpType) (k : Bool) (a : BitVec 4) :
    WordRow.clearCtrOut.fits (epwClearCtrOutWord t k a) = true := by
  cases t <;> cases k <;> revert a <;> decide

theorem fits_epwClearCtrInWord (t : EpType) (k : Bool) (a : BitVec 4) :
    WordRow.clearCtrIn.fits (epwClearCtrInWord t k a) = true := by
  cases t <;> cases k <;> revert a <;> decide

theorem fits_daddrwSetWord (a : BitVec 7) : WordRow.daddrSet.fits (daddrwSetWord a) = true := by
  revert a; decide

end Sys2Proof
end

