-- ==== Sys2Proof/Laws/Flags.lean ====
section
/-! SUPPORT. Laws of the register fields: what each field of an EPR is after the write gate and after each update the
hardware makes, and that the fields together are the word. -/

namespace Sys2Proof.Machine

/-! ## Codes -/

theorem statusOf_eq_iff (d : Dir) (r : Word) (st : Status) : statusOf d r = st ↔ statOf d r = st.code := by
  unfold statusOf
  constructor
  · intro h; rw [← h, Status.code_ofCode]
  · intro h; rw [h, Status.ofCode_code]

/-! ## Bits of the fields -/

theorem getLsbD_statOf (d : Dir) (r : Word) (i : Nat) :
    (statOf d r).getLsbD i = (decide (i < 2) && r.getLsbD (statPos d + i)) := by
  simp [statOf]

/-- The fields of an EPR together are the word (R32). -/
theorem eprWord_ext (r q : Word) (hc : ∀ d, ctrOf d r = ctrOf d q) (hd : ∀ d, dtogOf d r = dtogOf d q)
    (hs : ∀ d, statOf d r = statOf d q) (hu : setupOf r = setupOf q) (ht : r.extractLsb' 9 2 = q.extractLsb' 9 2)
    (hk : kindOf r = kindOf q) (ha : eaOf r = eaOf q) : r = q := by
  have e (d : Dir) (j : Nat) (h : j < 2) : r.getLsbD (statPos d + j) = q.getLsbD (statPos d + j) := by
    have := congrArg (·.getLsbD j) (hs d)
    simpa [-BitVec.getLsbD_eq_getElem, getLsbD_statOf, h] using this
  have t (j : Nat) (h : j < 2) : r.getLsbD (9 + j) = q.getLsbD (9 + j) := by
    have := congrArg (·.getLsbD j) ht
    simpa [-BitVec.getLsbD_eq_getElem, h] using this
  have a (j : Nat) (h : j < 4) : r.getLsbD j = q.getLsbD j := by
    have := congrArg (·.getLsbD j) ha
    simpa [-BitVec.getLsbD_eq_getElem, eaOf, h] using this
  apply BitVec.eq_of_getLsbD_eq
  intro i hi
  have hcases : i < 4 ∨ i = 4 ∨ i = 5 ∨ i = 6 ∨ i = 7 ∨ i = 8 ∨ i = 9 ∨ i = 10 ∨ i = 11 ∨ i = 12 ∨ i = 13 ∨ i = 14 ∨ i = 15 := by
    omega
  rcases hcases with h | rfl | rfl | rfl | rfl | rfl | rfl | rfl | rfl | rfl | rfl | rfl | rfl
  · exact a i h
  · exact e .inn 0 (by omega)
  · exact e .inn 1 (by omega)
  · exact hd .inn
  · exact hc .inn
  · exact hk
  · exact t 0 (by omega)
  · exact t 1 (by omega)
  · exact hu
  · exact e .out 0 (by omega)
  · exact e .out 1 (by omega)
  · exact hd .out
  · exact hc .out

/-! ## The write gate, field by field (R150) -/

/-- A bit of the gate's result. -/
theorem getLsbD_gateEpr (r w : Word) (i : Nat) :
    (gateEpr r w).getLsbD i =
      ((r.getLsbD i && w.getLsbD i && (0x8080#16).getLsbD i) || ((r.getLsbD i ^^ w.getLsbD i) && (0x7070#16).getLsbD i) ||
        (r.getLsbD i && (0x0800#16).getLsbD i) || (w.getLsbD i && (0x070F#16).getLsbD i)) := by
  simp [gateEpr]

theorem ctrOf_gateEpr (d : Dir) (r w : Word) : ctrOf d (gateEpr r w) = (ctrOf d r && ctrOf d w) := by
  cases d <;> simp [-BitVec.getLsbD_eq_getElem, ctrOf, getLsbD_gateEpr]

theorem dtogOf_gateEpr (d : Dir) (r w : Word) : dtogOf d (gateEpr r w) = (dtogOf d r ^^ dtogOf d w) := by
  cases d <;> simp [-BitVec.getLsbD_eq_getElem, dtogOf, getLsbD_gateEpr]

theorem setupOf_gateEpr (r w : Word) : setupOf (gateEpr r w) = setupOf r := by
  simp [-BitVec.getLsbD_eq_getElem, setupOf, getLsbD_gateEpr]

theorem kindOf_gateEpr (r w : Word) : kindOf (gateEpr r w) = kindOf w := by
  simp [-BitVec.getLsbD_eq_getElem, kindOf, getLsbD_gateEpr]

theorem statOf_gateEpr (d : Dir) (r w : Word) : statOf d (gateEpr r w) = statOf d r ^^^ statOf d w := by
  apply BitVec.eq_of_getLsbD_eq
  intro i hi
  have : i = 0 ∨ i = 1 := by omega
  rcases this with rfl | rfl <;> cases d <;> simp [-BitVec.getLsbD_eq_getElem, getLsbD_statOf, statPos, getLsbD_gateEpr]

theorem typeField_gateEpr (r w : Word) : (gateEpr r w).extractLsb' 9 2 = w.extractLsb' 9 2 := by
  apply BitVec.eq_of_getLsbD_eq
  intro i hi
  have : i = 0 ∨ i = 1 := by omega
  rcases this with rfl | rfl <;> simp [-BitVec.getLsbD_eq_getElem, getLsbD_gateEpr]

theorem typeOf_gateEpr (r w : Word) : typeOf (gateEpr r w) = typeOf w := by
  simp [typeOf, typeField_gateEpr]

theorem eaOf_gateEpr (r w : Word) : eaOf (gateEpr r w) = eaOf w := by
  apply BitVec.eq_of_getLsbD_eq
  intro i hi
  have : i = 0 ∨ i = 1 ∨ i = 2 ∨ i = 3 := by omega
  rcases this with rfl | rfl | rfl | rfl <;> simp [-BitVec.getLsbD_eq_getElem, eaOf, getLsbD_gateEpr]

/-! ## The words the register view writes, bit by bit (R113, R114) -/

theorem getLsbD_keep (r : Word) (i : Nat) :
    (keep r).getLsbD i = ((r.getLsbD i && (0x070F#16).getLsbD i) || (0x8080#16).getLsbD i) := by
  simp [keep]

theorem getLsbD_setStatusWord (r : Word) (d : Dir) (st : Status) (i : Nat) (h : i < 16) :
    (setStatusWord r d st).getLsbD i =
      ((keep r).getLsbD i || (!decide (i < statPos d) && (statOf d r ^^^ st.code).getLsbD (i - statPos d))) := by
  simp [setStatusWord, h]

theorem getLsbD_clearCtrWord (r : Word) (d : Dir) (i : Nat) (h : i < 16) :
    (clearCtrWord r d).getLsbD i = ((keep r).getLsbD i && !(ctrMask d).getLsbD i) := by
  simp [clearCtrWord, h]

theorem getLsbD_configureWord (r : Word) (n : Slot) (t : EpType) (i : Nat) (h : i < 16) :
    (configureWord r n t).getLsbD i =
      ((0x8080#16).getLsbD i || (r.getLsbD i && (0x0100#16).getLsbD i) ||
        (!decide (i < 9) && t.code.getLsbD (i - 9)) || (BitVec.ofNat 16 n).getLsbD i) := by
  simp [configureWord, h]

/-- The keep word: both CTR flags kept, every toggle mask 0, the rest as read (R113). -/
theorem fields_keep (r : Word) :
    (∀ d, ctrOf d (keep r) = true) ∧ (∀ d, dtogOf d (keep r) = false) ∧ (∀ d, statOf d (keep r) = 0) ∧
      (keep r).extractLsb' 9 2 = r.extractLsb' 9 2 ∧ kindOf (keep r) = kindOf r ∧ eaOf (keep r) = eaOf r := by
  refine ⟨?_, ?_, ?_, ?_, ?_, ?_⟩
  · intro d; cases d <;> simp [-BitVec.getLsbD_eq_getElem, ctrOf, getLsbD_keep]
  · intro d; cases d <;> simp [-BitVec.getLsbD_eq_getElem, dtogOf, getLsbD_keep]
  · intro d
    apply BitVec.eq_of_getLsbD_eq
    intro i hi
    have : i = 0 ∨ i = 1 := by omega
    rcases this with rfl | rfl <;> cases d <;> simp [-BitVec.getLsbD_eq_getElem, getLsbD_statOf, statPos, getLsbD_keep]
  · apply BitVec.eq_of_getLsbD_eq
    intro i hi
    have : i = 0 ∨ i = 1 := by omega
    rcases this with rfl | rfl <;> simp [-BitVec.getLsbD_eq_getElem, getLsbD_keep]
  · simp [-BitVec.getLsbD_eq_getElem, kindOf, getLsbD_keep]
  · apply BitVec.eq_of_getLsbD_eq
    intro i hi
    have : i = 0 ∨ i = 1 ∨ i = 2 ∨ i = 3 := by omega
    rcases this with rfl | rfl | rfl | rfl <;> simp [-BitVec.getLsbD_eq_getElem, eaOf, getLsbD_keep]

/-- The word of `ep_set_status`: the keep word with one status toggle mask (R114). -/
theorem fields_setStatusWord (r : Word) (d : Dir) (st : Status) :
    (∀ e, ctrOf e (setStatusWord r d st) = true) ∧ (∀ e, dtogOf e (setStatusWord r d st) = false) ∧
      (∀ e, statOf e (setStatusWord r d st) = if e = d then statOf d r ^^^ st.code else 0) ∧
      (setStatusWord r d st).extractLsb' 9 2 = r.extractLsb' 9 2 ∧ kindOf (setStatusWord r d st) = kindOf r ∧
      eaOf (setStatusWord r d st) = eaOf r := by
  refine ⟨?_, ?_, ?_, ?_, ?_, ?_⟩
  · intro e
    cases e <;> cases d <;> simp [-BitVec.getLsbD_eq_getElem, ctrOf, getLsbD_setStatusWord, getLsbD_keep, statPos]
  · intro e
    cases e <;> cases d <;> simp [-BitVec.getLsbD_eq_getElem, dtogOf, getLsbD_setStatusWord, getLsbD_keep, statPos]
  · intro e
    apply BitVec.eq_of_getLsbD_eq
    intro i hi
    have : i = 0 ∨ i = 1 := by omega
    rcases this with rfl | rfl <;> cases e <;> cases d <;>
      simp [-BitVec.getLsbD_eq_getElem, getLsbD_statOf, statPos, getLsbD_setStatusWord, getLsbD_keep]
  · apply BitVec.eq_of_getLsbD_eq
    intro i hi
    have : i = 0 ∨ i = 1 := by omega
    rcases this with rfl | rfl <;> cases d <;>
      simp [-BitVec.getLsbD_eq_getElem, getLsbD_setStatusWord, getLsbD_keep, statPos]
  · cases d <;> simp [-BitVec.getLsbD_eq_getElem, kindOf, getLsbD_setStatusWord, getLsbD_keep, statPos]
  · apply BitVec.eq_of_getLsbD_eq
    intro i hi
    have : i = 0 ∨ i = 1 ∨ i = 2 ∨ i = 3 := by omega
    rcases this with rfl | rfl | rfl | rfl <;> cases d <;>
      simp [-BitVec.getLsbD_eq_getElem, eaOf, getLsbD_setStatusWord, getLsbD_keep, statPos]

/-- The word of `ep_clear_ctr`: the keep word with one CTR bit cleared (R114). -/
theorem fields_clearCtrWord (r : Word) (d : Dir) :
    (∀ e, ctrOf e (clearCtrWord r d) = !decide (e = d)) ∧ (∀ e, dtogOf e (clearCtrWord r d) = false) ∧
      (∀ e, statOf e (clearCtrWord r d) = 0) ∧ (clearCtrWord r d).extractLsb' 9 2 = r.extractLsb' 9 2 ∧
      kindOf (clearCtrWord r d) = kindOf r ∧ eaOf (clearCtrWord r d) = eaOf r := by
  refine ⟨?_, ?_, ?_, ?_, ?_, ?_⟩
  · intro e
    cases e <;> cases d <;> simp [-BitVec.getLsbD_eq_getElem, ctrOf, getLsbD_clearCtrWord, getLsbD_keep, ctrMask]
  · intro e
    cases e <;> cases d <;> simp [-BitVec.getLsbD_eq_getElem, dtogOf, getLsbD_clearCtrWord, getLsbD_keep, ctrMask]
  · intro e
    apply BitVec.eq_of_getLsbD_eq
    intro i hi
    have : i = 0 ∨ i = 1 := by omega
    rcases this with rfl | rfl <;> cases e <;> cases d <;>
      simp [-BitVec.getLsbD_eq_getElem, getLsbD_statOf, statPos, getLsbD_clearCtrWord, getLsbD_keep, ctrMask]
  · apply BitVec.eq_of_getLsbD_eq
    intro i hi
    have : i = 0 ∨ i = 1 := by omega
    rcases this with rfl | rfl <;> cases d <;>
      simp [-BitVec.getLsbD_eq_getElem, getLsbD_clearCtrWord, getLsbD_keep, ctrMask]
  · cases d <;> simp [-BitVec.getLsbD_eq_getElem, kindOf, getLsbD_clearCtrWord, getLsbD_keep, ctrMask]
  · apply BitVec.eq_of_getLsbD_eq
    intro i hi
    have : i = 0 ∨ i = 1 ∨ i = 2 ∨ i = 3 := by omega
    rcases this with rfl | rfl | rfl | rfl <;> cases d <;>
      simp [-BitVec.getLsbD_eq_getElem, eaOf, getLsbD_clearCtrWord, getLsbD_keep, ctrMask]

/-- The word of `ep_configure`: both CTR flags kept, every toggle mask 0, EP_KIND as read, the type and the slot index
(R114, R170). -/
theorem fields_configureWord (r : Word) (n : Slot) (t : EpType) :
    (∀ e, ctrOf e (configureWord r n t) = true) ∧ (∀ e, dtogOf e (configureWord r n t) = false) ∧
      (∀ e, statOf e (configureWord r n t) = 0) ∧ (configureWord r n t).extractLsb' 9 2 = t.code ∧
      kindOf (configureWord r n t) = kindOf r ∧ eaOf (configureWord r n t) = BitVec.ofNat 4 n := by
  have hn : ∀ i, 3 ≤ i → (BitVec.ofNat 16 n).getLsbD i = false := by
    intro i hi
    have : (n : Nat) < 2 ^ i := Nat.lt_of_lt_of_le n.isLt (Nat.pow_le_pow_right (n := 2) (by decide) hi)
    simp [BitVec.getLsbD_ofNat, Nat.testBit_lt_two_pow this]
  refine ⟨?_, ?_, ?_, ?_, ?_, ?_⟩
  · intro e; cases e <;> simp [-BitVec.getLsbD_eq_getElem, ctrOf, getLsbD_configureWord]
  · intro e; cases e <;> simp [-BitVec.getLsbD_eq_getElem, dtogOf, getLsbD_configureWord, hn]
  · intro e
    apply BitVec.eq_of_getLsbD_eq
    intro i hi
    have : i = 0 ∨ i = 1 := by omega
    rcases this with rfl | rfl <;> cases e <;>
      simp [-BitVec.getLsbD_eq_getElem, getLsbD_statOf, statPos, getLsbD_configureWord, hn]
  · apply BitVec.eq_of_getLsbD_eq
    intro i hi
    have : i = 0 ∨ i = 1 := by omega
    rcases this with rfl | rfl <;> simp [-BitVec.getLsbD_eq_getElem, getLsbD_configureWord, hn]
  · simp [-BitVec.getLsbD_eq_getElem, kindOf, getLsbD_configureWord, hn]
  · apply BitVec.eq_of_getLsbD_eq
    intro i hi
    have : i = 0 ∨ i = 1 ∨ i = 2 ∨ i = 3 := by omega
    have hs (j : Nat) (hj : j < 4) : (BitVec.ofNat 4 n).getLsbD j = (BitVec.ofNat 16 n).getLsbD j := by
      have : j < 16 := by omega
      rw [BitVec.getLsbD_ofNat, BitVec.getLsbD_ofNat]; simp [hj, this]
    rw [hs i hi]
    rcases this with rfl | rfl | rfl | rfl <;> simp [-BitVec.getLsbD_eq_getElem, eaOf, getLsbD_configureWord]

/-! ## The register view's words through the gate -/

/-- The EPR after the word of `ep_set_status`, written over `r'` from a read value `r` (R154, R172). -/
theorem fields_gate_set (r r' : Word) (d : Dir) (st : Status) :
    let q := gateEpr r' (setStatusWord r d st)
    (∀ e, ctrOf e q = ctrOf e r') ∧ (∀ e, dtogOf e q = dtogOf e r') ∧ statOf d q = statOf d r' ^^^ statOf d r ^^^ st.code ∧
    (∀ e, e ≠ d → statOf e q = statOf e r') ∧ setupOf q = setupOf r' ∧ typeOf q = typeOf r ∧ kindOf q = kindOf r ∧ eaOf q = eaOf r := by
  obtain ⟨h1, h2, h3, h4, h5, h6⟩ := fields_setStatusWord r d st
  refine ⟨?_, ?_, ?_, ?_, ?_, ?_, ?_, ?_⟩
  · intro e; simp [ctrOf_gateEpr, h1]
  · intro e; simp [dtogOf_gateEpr, h2]
  · simp [statOf_gateEpr, h3, BitVec.xor_assoc]
  · intro e he; simp [statOf_gateEpr, h3, he]
  · simp [setupOf_gateEpr]
  · rw [typeOf_gateEpr, typeOf, h4]; rfl
  · simp [kindOf_gateEpr, h5]
  · simp [eaOf_gateEpr, h6]

/-- The EPR after the word of `ep_clear_ctr`, written over `r'` from a read value `r` (R151, R174). -/
theorem fields_gate_clear (r r' : Word) (d : Dir) :
    let q := gateEpr r' (clearCtrWord r d)
    ctrOf d q = false ∧ (∀ e, e ≠ d → ctrOf e q = ctrOf e r') ∧ (∀ e, dtogOf e q = dtogOf e r') ∧
    (∀ e, statOf e q = statOf e r') ∧ setupOf q = setupOf r' ∧ typeOf q = typeOf r ∧ kindOf q = kindOf r ∧ eaOf q = eaOf r := by
  obtain ⟨h1, h2, h3, h4, h5, h6⟩ := fields_clearCtrWord r d
  refine ⟨?_, ?_, ?_, ?_, ?_, ?_, ?_, ?_⟩
  · simp [ctrOf_gateEpr, h1]
  · intro e he; simp [ctrOf_gateEpr, h1, he]
  · intro e; simp [dtogOf_gateEpr, h2]
  · intro e; simp [statOf_gateEpr, h3]
  · simp [setupOf_gateEpr]
  · rw [typeOf_gateEpr, typeOf, h4]; rfl
  · simp [kindOf_gateEpr, h5]
  · simp [eaOf_gateEpr, h6]

/-- The EPR after the word of `ep_configure`, written over `r'` from a read value `r` (R170). -/
theorem fields_gate_conf (r r' : Word) (n : Slot) (t : EpType) :
    let q := gateEpr r' (configureWord r n t)
    (∀ e, ctrOf e q = ctrOf e r') ∧ (∀ e, dtogOf e q = dtogOf e r') ∧
    (∀ e, statOf e q = statOf e r') ∧ setupOf q = setupOf r' ∧ typeOf q = t ∧ kindOf q = kindOf r ∧ eaOf q = BitVec.ofNat 4 n := by
  obtain ⟨h1, h2, h3, h4, h5, h6⟩ := fields_configureWord r n t
  refine ⟨?_, ?_, ?_, ?_, ?_, ?_, ?_⟩
  · intro e; simp [ctrOf_gateEpr, h1]
  · intro e; simp [dtogOf_gateEpr, h2]
  · intro e; simp [statOf_gateEpr, h3]
  · simp [setupOf_gateEpr]
  · rw [typeOf_gateEpr, typeOf, h4, EpType.ofCode_code]
  · simp [kindOf_gateEpr, h5]
  · simp [eaOf_gateEpr, h6]

/-! ## The updates the hardware makes, bit by bit -/

theorem getLsbD_setStat (d : Dir) (st : Status) (r : Word) (i : Nat) (h : i < 16) :
    (setStat d st r).getLsbD i =
      if statPos d ≤ i ∧ i < statPos d + 2 then st.code.getLsbD (i - statPos d) else r.getLsbD i := by
  have h3 : (3#16).getLsbD (i - statPos d) = decide (i - statPos d < 2) := by
    have hb : i - statPos d < 16 := by omega
    generalize i - statPos d = j at hb
    revert hb; revert j; decide
  have h5 : 2 ≤ i - statPos d → st.code.getLsbD (i - statPos d) = false := BitVec.getLsbD_of_ge _ _
  simp only [setStat, BitVec.getLsbD_or, BitVec.getLsbD_and, BitVec.getLsbD_not, BitVec.getLsbD_shiftLeft,
    BitVec.getLsbD_setWidth, h, h3]
  by_cases h1 : i < statPos d
  · have : ¬ statPos d ≤ i := by omega
    simp [h1, this]
  · have h6 : i - statPos d < 16 := by omega
    by_cases h2 : i < statPos d + 2
    · have h7 : i - statPos d < 2 := by omega
      have h8 : statPos d ≤ i := by omega
      simp [-BitVec.getLsbD_eq_getElem, h1, h2, h6, h7, h8]
    · have h7 : ¬ i - statPos d < 2 := by omega
      simp [-BitVec.getLsbD_eq_getElem, h1, h2, h6, h7, h5 (by omega)]

@[simp] theorem statOf_setStat (d e : Dir) (st : Status) (r : Word) :
    statOf d (setStat e st r) = if d = e then st.code else statOf d r := by
  apply BitVec.eq_of_getLsbD_eq
  intro i hi
  have : i = 0 ∨ i = 1 := by omega
  rcases this with rfl | rfl <;> cases d <;> cases e <;> simp [-BitVec.getLsbD_eq_getElem, getLsbD_statOf, statPos, getLsbD_setStat]

end Sys2Proof.Machine
end

