-- ==== Sys2Proof/Laws/Memory.lean ====
section
/-! SUPPORT. Laws of packet memory: what a byte reads as after each operation, and that each operation keeps the
canonical form. -/

namespace Sys2Proof.Machine

/-! ## Reading after writing -/

@[simp] theorem Memory.byte_put_same (m : Memory) (a : Nat) (b : Byte) : Memory.byte (Memory.put m a b) a = some b := by
  induction m with
  | nil => simp [Memory.put, Memory.byte]
  | cons c m ih =>
    obtain ⟨k, c⟩ := c
    unfold Memory.put
    split
    · simp [Memory.byte]
    · split
      · simp [Memory.byte]
      · rename_i h1 h2
        simp [Memory.byte, ih, Ne.symm h2]

theorem Memory.byte_put_ne (m : Memory) (a x : Nat) (b : Byte) (h : x ≠ a) :
    Memory.byte (Memory.put m a b) x = Memory.byte m x := by
  induction m with
  | nil => simp [Memory.put, Memory.byte, Ne.symm h]
  | cons c m ih =>
    obtain ⟨k, c⟩ := c
    unfold Memory.put
    split
    · simp [Memory.byte, Ne.symm h]
    · split
      · rename_i h2
        subst h2
        simp [Memory.byte, Ne.symm h]
      · simp [Memory.byte, ih]

theorem Memory.byte_put (m : Memory) (a x : Nat) (b : Byte) :
    Memory.byte (Memory.put m a b) x = if x = a then some b else Memory.byte m x := by
  by_cases h : x = a
  · subst h; simp
  · simp [h, Memory.byte_put_ne m a x b h]

theorem Memory.byte_erase (m : Memory) (a x : Nat) :
    Memory.byte (Memory.erase m a) x = if x = a then none else Memory.byte m x := by
  induction m with
  | nil => simp [Memory.erase, Memory.byte]
  | cons c m ih =>
    obtain ⟨k, c⟩ := c
    unfold Memory.erase
    by_cases hk : k = a
    · subst hk
      rw [if_pos rfl, ih]
      by_cases hx : x = k
      · simp [hx]
      · simp [hx, Memory.byte, Ne.symm hx]
    · rw [if_neg hk]
      by_cases hx : k = x
      · subst hx; simp [Memory.byte, hk]
      · simp [Memory.byte, hx, ih]

/-- Bytes stored at consecutive offsets: inside, the byte stored; outside, what was there. -/
theorem Memory.byte_putAll (bs : List Byte) (m : Memory) (a x : Nat) :
    Memory.byte (Memory.putAll m a bs) x =
      if a ≤ x ∧ x < a + bs.length then bs[x - a]? else Memory.byte m x := by
  induction bs generalizing m a with
  | nil =>
    simp [Memory.putAll]
  | cons b bs ih =>
    simp only [Memory.putAll, ih, List.length_cons, Memory.byte_put]
    by_cases h1 : x = a
    · subst h1; simp
    · by_cases h2 : a + 1 ≤ x ∧ x < a + 1 + bs.length
      · have h3 : a ≤ x ∧ x < a + (bs.length + 1) := by omega
        have h4 : x - a = (x - (a + 1)) + 1 := by omega
        simp [h2, h3, h4]
      · have h3 : ¬ (a ≤ x ∧ x < a + (bs.length + 1)) := by omega
        simp only [if_neg h1, if_neg h2, if_neg h3]

/-- Bytes made `undef` at consecutive offsets. -/
theorem Memory.byte_eraseAll (n : Nat) (m : Memory) (a x : Nat) :
    Memory.byte (Memory.eraseAll m a n) x = if a ≤ x ∧ x < a + n then none else Memory.byte m x := by
  induction n generalizing m a with
  | zero =>
    simp [Memory.eraseAll]
  | succ n ih =>
    simp only [Memory.eraseAll, ih, Memory.byte_erase]
    by_cases h1 : x = a
    · subst h1; simp
    · by_cases h2 : a + 1 ≤ x ∧ x < a + 1 + n
      · have h3 : a ≤ x ∧ x < a + (n + 1) := by omega
        simp [h2, h3]
      · have h3 : ¬ (a ≤ x ∧ x < a + (n + 1)) := by omega
        simp only [if_neg h1, if_neg h2, if_neg h3]

/-- A word stored: its low byte at the offset, its high byte behind it, every other byte as before (R82). -/
theorem Memory.byte_putPmaWord (m : Memory) (off x : Nat) (w : Word) :
    Memory.byte (putPmaWord m off w) x =
      if x = off + 1 then some (highByte w) else if x = off then some (lowByte w) else Memory.byte m x := by
  simp [putPmaWord, Memory.byte_put]

@[simp] theorem Memory.length_bytes (n : Nat) (m : Memory) (a : Nat) : (Memory.bytes m a n).length = n := by
  induction n generalizing a with
  | zero => rfl
  | succ n ih => simp [Memory.bytes, ih]

theorem Memory.getElem?_bytes (n : Nat) (m : Memory) (a k : Nat) (h : k < n) :
    (Memory.bytes m a n)[k]? = some (Memory.byte m (a + k)) := by
  induction n generalizing a k with
  | zero => omega
  | succ n ih =>
    cases k with
    | zero => simp [Memory.bytes]
    | succ k =>
      have h' : k < n := by omega
      have e : a + 1 + k = a + (k + 1) := by omega
      simp [Memory.bytes, ih (a + 1) k h', e]

/-! ## The canonical form -/

theorem Memory.risingFrom_mono (m : Memory) (lo lo' : Nat) (h : lo' ≤ lo) (hm : Memory.risingFrom lo m = true) :
    Memory.risingFrom lo' m = true := by
  cases m with
  | nil => rfl
  | cons c m =>
    obtain ⟨k, c⟩ := c
    simp only [Memory.risingFrom, Bool.and_eq_true, decide_eq_true_eq] at hm ⊢
    exact ⟨⟨by omega, hm.1.2⟩, hm.2⟩

theorem Memory.risingFrom_put (m : Memory) (lo a : Nat) (b : Byte) (h : lo ≤ a) (ha : a < Config.pmaSize)
    (hm : Memory.risingFrom lo m = true) : Memory.risingFrom lo (Memory.put m a b) = true := by
  induction m generalizing lo with
  | nil => simp [Memory.put, Memory.risingFrom, h, ha]
  | cons c m ih =>
    obtain ⟨k, c⟩ := c
    simp only [Memory.risingFrom, Bool.and_eq_true, decide_eq_true_eq] at hm
    unfold Memory.put
    split
    · simp only [Memory.risingFrom, Bool.and_eq_true, decide_eq_true_eq]
      exact ⟨⟨h, ha⟩, ⟨by omega, hm.1.2⟩, hm.2⟩
    · split
      · rename_i e
        subst e
        simp only [Memory.risingFrom, Bool.and_eq_true, decide_eq_true_eq]
        exact ⟨⟨h, ha⟩, hm.2⟩
      · simp only [Memory.risingFrom, Bool.and_eq_true, decide_eq_true_eq]
        exact ⟨hm.1, ih (k + 1) (by omega) hm.2⟩

theorem Memory.risingFrom_erase (m : Memory) (lo a : Nat) (hm : Memory.risingFrom lo m = true) :
    Memory.risingFrom lo (Memory.erase m a) = true := by
  induction m generalizing lo with
  | nil => rfl
  | cons c m ih =>
    obtain ⟨k, c⟩ := c
    simp only [Memory.risingFrom, Bool.and_eq_true, decide_eq_true_eq] at hm
    unfold Memory.erase
    split
    · exact ih lo (Memory.risingFrom_mono m (k + 1) lo (by omega) hm.2)
    · simp only [Memory.risingFrom, Bool.and_eq_true, decide_eq_true_eq]
      exact ⟨hm.1, ih (k + 1) hm.2⟩

/-- Storing a byte inside `PMA_SIZE` keeps the canonical form. -/
theorem Memory.wf_put (m : Memory) (a : Nat) (b : Byte) (ha : a < Config.pmaSize) (hm : Memory.wf m = true) :
    Memory.wf (Memory.put m a b) = true :=
  Memory.risingFrom_put m 0 a b (Nat.zero_le a) ha hm

/-- Making a byte `undef` keeps the canonical form. -/
theorem Memory.wf_erase (m : Memory) (a : Nat) (hm : Memory.wf m = true) : Memory.wf (Memory.erase m a) = true :=
  Memory.risingFrom_erase m 0 a hm

theorem Memory.wf_putAll (bs : List Byte) (m : Memory) (a : Nat) (ha : a + bs.length ≤ Config.pmaSize)
    (hm : Memory.wf m = true) : Memory.wf (Memory.putAll m a bs) = true := by
  induction bs generalizing m a with
  | nil => exact hm
  | cons b bs ih =>
    simp only [List.length_cons] at ha
    exact ih (Memory.put m a b) (a + 1) (by omega) (Memory.wf_put m a b (by omega) hm)

theorem Memory.wf_eraseAll (n : Nat) (m : Memory) (a : Nat) (hm : Memory.wf m = true) :
    Memory.wf (Memory.eraseAll m a n) = true := by
  induction n generalizing m a with
  | zero => exact hm
  | succ n ih => exact ih _ _ (Memory.wf_erase m a hm)

theorem Memory.wf_putPmaWord (m : Memory) (off : Nat) (w : Word) (h : off + 2 ≤ Config.pmaSize)
    (hm : Memory.wf m = true) : Memory.wf (putPmaWord m off w) = true :=
  Memory.wf_put _ _ _ (by omega) (Memory.wf_put _ _ _ (by omega) hm)

/-- An offset at or past `PMA_SIZE` holds no value. -/
theorem Memory.byte_eq_none_of_wf (m : Memory) (lo a : Nat) (h : Memory.risingFrom lo m = true)
    (ha : Config.pmaSize ≤ a) : Memory.byte m a = none := by
  induction m generalizing lo with
  | nil => rfl
  | cons c m ih =>
    obtain ⟨k, c⟩ := c
    simp only [Memory.risingFrom, Bool.and_eq_true, decide_eq_true_eq] at h
    have hk : k ≠ a := by omega
    simp [Memory.byte, hk, ih (k + 1) h.2]

/-- Canonical memories that read alike are equal. -/
theorem Memory.ext_of_wf (m m' : Memory) (lo : Nat) (h : Memory.risingFrom lo m = true)
    (h' : Memory.risingFrom lo m' = true) (e : ∀ a, Memory.byte m a = Memory.byte m' a) : m = m' := by
  have low : ∀ (m : Memory) (lo a : Nat), Memory.risingFrom lo m = true → a < lo → Memory.byte m a = none := by
    intro m
    induction m with
    | nil => intros; rfl
    | cons c m ih =>
      obtain ⟨k, c⟩ := c
      intro lo a h ha
      simp only [Memory.risingFrom, Bool.and_eq_true, decide_eq_true_eq] at h
      have hk : k ≠ a := by omega
      simp only [Memory.byte, hk, if_false]
      exact ih (k + 1) a h.2 (by omega)
  induction m generalizing m' lo with
  | nil =>
    cases m' with
    | nil => rfl
    | cons c m' =>
      obtain ⟨k, c⟩ := c
      have := e k
      simp [Memory.byte] at this
  | cons c m ih =>
    obtain ⟨k, c⟩ := c
    cases m' with
    | nil =>
      have := e k
      simp [Memory.byte] at this
    | cons c' m' =>
      obtain ⟨k', c'⟩ := c'
      simp only [Memory.risingFrom, Bool.and_eq_true, decide_eq_true_eq] at h h'
      have hk : k = k' := by
        have e1 := e k
        have e2 := e k'
        simp only [Memory.byte, if_true] at e1 e2
        by_contra hne
        have hne' : k' ≠ k := fun x => hne x.symm
        rw [if_neg hne'] at e1
        rw [if_neg hne] at e2
        by_cases hlt : k < k'
        · rw [low m' (k' + 1) k h'.2 (by omega)] at e1
          simp at e1
        · rw [low m (k + 1) k' h.2 (by omega)] at e2
          simp at e2
      subst hk
      have hc : c = c' := by
        have := e k
        simpa [Memory.byte] using this
      subst hc
      congr 1
      refine ih m' (k + 1) h.2 h'.2 fun a => ?_
      by_cases ha : k = a
      · subst ha
        rw [low m (k + 1) k h.2 (by omega), low m' (k + 1) k h'.2 (by omega)]
      · have := e a
        simpa [Memory.byte, ha] using this

end Sys2Proof.Machine
end

