-- ==== Sys2Proof/Laws/State.lean ====
section
/-! SUPPORT. What each named update of the state does to each field: one lemma a pair, true by rfl, so that no proof
unfolds a record update; and the read-after-write laws of the indexed fields. -/

namespace Sys2Proof.Machine

@[simp] theorem State.setEpr_epr (s : State) (n : Slot) (w : Word) : (s.setEpr n w).epr = s.epr.set n w := rfl
@[simp] theorem State.setEpr_cntr (s : State) (n : Slot) (w : Word) : (s.setEpr n w).cntr = s.cntr := rfl
@[simp] theorem State.setEpr_istr (s : State) (n : Slot) (w : Word) : (s.setEpr n w).istr = s.istr := rfl
@[simp] theorem State.setEpr_fnr (s : State) (n : Slot) (w : Word) : (s.setEpr n w).fnr = s.fnr := rfl
@[simp] theorem State.setEpr_daddr (s : State) (n : Slot) (w : Word) : (s.setEpr n w).daddr = s.daddr := rfl
@[simp] theorem State.setEpr_btable (s : State) (n : Slot) (w : Word) : (s.setEpr n w).btable = s.btable := rfl
@[simp] theorem State.setEpr_pma (s : State) (n : Slot) (w : Word) : (s.setEpr n w).pma = s.pma := rfl
@[simp] theorem State.setEpr_ep (s : State) (n : Slot) (w : Word) : (s.setEpr n w).ep = s.ep := rfl
@[simp] theorem State.setEpr_rxCap (s : State) (n : Slot) (w : Word) : (s.setEpr n w).rxCap = s.rxCap := rfl
@[simp] theorem State.setEpr_txCap (s : State) (n : Slot) (w : Word) : (s.setEpr n w).txCap = s.txCap := rfl
@[simp] theorem State.setEpr_nextFree (s : State) (n : Slot) (w : Word) : (s.setEpr n w).nextFree = s.nextFree := rfl
@[simp] theorem State.setEpr_maxIndex (s : State) (n : Slot) (w : Word) : (s.setEpr n w).maxIndex = s.maxIndex := rfl
@[simp] theorem State.setEpr_phase (s : State) (n : Slot) (w : Word) : (s.setEpr n w).phase = s.phase := rfl
@[simp] theorem State.setEpr_resetCap (s : State) (n : Slot) (w : Word) : (s.setEpr n w).resetCap = s.resetCap := rfl
@[simp] theorem State.setEpr_pinLevel (s : State) (n : Slot) (w : Word) : (s.setEpr n w).pinLevel = s.pinLevel := rfl
@[simp] theorem State.setEpr_events (s : State) (n : Slot) (w : Word) : (s.setEpr n w).events = s.events := rfl
@[simp] theorem State.setEpr_result (s : State) (n : Slot) (w : Word) : (s.setEpr n w).result = s.result := rfl
@[simp] theorem State.setEpr_program (s : State) (n : Slot) (w : Word) : (s.setEpr n w).program = s.program := rfl
@[simp] theorem State.setEpr_pos (s : State) (n : Slot) (w : Word) : (s.setEpr n w).pos = s.pos := rfl
@[simp] theorem State.setEpr_sched (s : State) (n : Slot) (w : Word) : (s.setEpr n w).sched = s.sched := rfl
@[simp] theorem State.setEpr_draws (s : State) (n : Slot) (w : Word) : (s.setEpr n w).draws = s.draws := rfl

@[simp] theorem State.setAllEp_epr (s : State) (r : EpRecord) : (s.setAllEp r).epr = s.epr := rfl
@[simp] theorem State.setAllEp_cntr (s : State) (r : EpRecord) : (s.setAllEp r).cntr = s.cntr := rfl
@[simp] theorem State.setAllEp_istr (s : State) (r : EpRecord) : (s.setAllEp r).istr = s.istr := rfl
@[simp] theorem State.setAllEp_fnr (s : State) (r : EpRecord) : (s.setAllEp r).fnr = s.fnr := rfl
@[simp] theorem State.setAllEp_daddr (s : State) (r : EpRecord) : (s.setAllEp r).daddr = s.daddr := rfl
@[simp] theorem State.setAllEp_btable (s : State) (r : EpRecord) : (s.setAllEp r).btable = s.btable := rfl
@[simp] theorem State.setAllEp_pma (s : State) (r : EpRecord) : (s.setAllEp r).pma = s.pma := rfl
@[simp] theorem State.setAllEp_ep (s : State) (r : EpRecord) : (s.setAllEp r).ep = Vector.replicate 8 r := rfl
@[simp] theorem State.setAllEp_rxCap (s : State) (r : EpRecord) : (s.setAllEp r).rxCap = s.rxCap := rfl
@[simp] theorem State.setAllEp_txCap (s : State) (r : EpRecord) : (s.setAllEp r).txCap = s.txCap := rfl
@[simp] theorem State.setAllEp_nextFree (s : State) (r : EpRecord) : (s.setAllEp r).nextFree = s.nextFree := rfl
@[simp] theorem State.setAllEp_maxIndex (s : State) (r : EpRecord) : (s.setAllEp r).maxIndex = s.maxIndex := rfl
@[simp] theorem State.setAllEp_phase (s : State) (r : EpRecord) : (s.setAllEp r).phase = s.phase := rfl
@[simp] theorem State.setAllEp_resetCap (s : State) (r : EpRecord) : (s.setAllEp r).resetCap = s.resetCap := rfl
@[simp] theorem State.setAllEp_pinLevel (s : State) (r : EpRecord) : (s.setAllEp r).pinLevel = s.pinLevel := rfl
@[simp] theorem State.setAllEp_events (s : State) (r : EpRecord) : (s.setAllEp r).events = s.events := rfl
@[simp] theorem State.setAllEp_result (s : State) (r : EpRecord) : (s.setAllEp r).result = s.result := rfl
@[simp] theorem State.setAllEp_program (s : State) (r : EpRecord) : (s.setAllEp r).program = s.program := rfl
@[simp] theorem State.setAllEp_pos (s : State) (r : EpRecord) : (s.setAllEp r).pos = s.pos := rfl
@[simp] theorem State.setAllEp_sched (s : State) (r : EpRecord) : (s.setAllEp r).sched = s.sched := rfl
@[simp] theorem State.setAllEp_draws (s : State) (r : EpRecord) : (s.setAllEp r).draws = s.draws := rfl

@[simp] theorem State.setAllRxCap_epr (s : State) (c : Nat) : (s.setAllRxCap c).epr = s.epr := rfl
@[simp] theorem State.setAllRxCap_cntr (s : State) (c : Nat) : (s.setAllRxCap c).cntr = s.cntr := rfl
@[simp] theorem State.setAllRxCap_istr (s : State) (c : Nat) : (s.setAllRxCap c).istr = s.istr := rfl
@[simp] theorem State.setAllRxCap_fnr (s : State) (c : Nat) : (s.setAllRxCap c).fnr = s.fnr := rfl
@[simp] theorem State.setAllRxCap_daddr (s : State) (c : Nat) : (s.setAllRxCap c).daddr = s.daddr := rfl
@[simp] theorem State.setAllRxCap_btable (s : State) (c : Nat) : (s.setAllRxCap c).btable = s.btable := rfl
@[simp] theorem State.setAllRxCap_pma (s : State) (c : Nat) : (s.setAllRxCap c).pma = s.pma := rfl
@[simp] theorem State.setAllRxCap_ep (s : State) (c : Nat) : (s.setAllRxCap c).ep = s.ep := rfl
@[simp] theorem State.setAllRxCap_rxCap (s : State) (c : Nat) : (s.setAllRxCap c).rxCap = Vector.replicate 8 c := rfl
@[simp] theorem State.setAllRxCap_txCap (s : State) (c : Nat) : (s.setAllRxCap c).txCap = s.txCap := rfl
@[simp] theorem State.setAllRxCap_nextFree (s : State) (c : Nat) : (s.setAllRxCap c).nextFree = s.nextFree := rfl
@[simp] theorem State.setAllRxCap_maxIndex (s : State) (c : Nat) : (s.setAllRxCap c).maxIndex = s.maxIndex := rfl
@[simp] theorem State.setAllRxCap_phase (s : State) (c : Nat) : (s.setAllRxCap c).phase = s.phase := rfl
@[simp] theorem State.setAllRxCap_resetCap (s : State) (c : Nat) : (s.setAllRxCap c).resetCap = s.resetCap := rfl
@[simp] theorem State.setAllRxCap_pinLevel (s : State) (c : Nat) : (s.setAllRxCap c).pinLevel = s.pinLevel := rfl
@[simp] theorem State.setAllRxCap_events (s : State) (c : Nat) : (s.setAllRxCap c).events = s.events := rfl
@[simp] theorem State.setAllRxCap_result (s : State) (c : Nat) : (s.setAllRxCap c).result = s.result := rfl
@[simp] theorem State.setAllRxCap_program (s : State) (c : Nat) : (s.setAllRxCap c).program = s.program := rfl
@[simp] theorem State.setAllRxCap_pos (s : State) (c : Nat) : (s.setAllRxCap c).pos = s.pos := rfl
@[simp] theorem State.setAllRxCap_sched (s : State) (c : Nat) : (s.setAllRxCap c).sched = s.sched := rfl
@[simp] theorem State.setAllRxCap_draws (s : State) (c : Nat) : (s.setAllRxCap c).draws = s.draws := rfl

@[simp] theorem State.setAllTxCap_epr (s : State) (c : Nat) : (s.setAllTxCap c).epr = s.epr := rfl
@[simp] theorem State.setAllTxCap_cntr (s : State) (c : Nat) : (s.setAllTxCap c).cntr = s.cntr := rfl
@[simp] theorem State.setAllTxCap_istr (s : State) (c : Nat) : (s.setAllTxCap c).istr = s.istr := rfl
@[simp] theorem State.setAllTxCap_fnr (s : State) (c : Nat) : (s.setAllTxCap c).fnr = s.fnr := rfl
@[simp] theorem State.setAllTxCap_daddr (s : State) (c : Nat) : (s.setAllTxCap c).daddr = s.daddr := rfl
@[simp] theorem State.setAllTxCap_btable (s : State) (c : Nat) : (s.setAllTxCap c).btable = s.btable := rfl
@[simp] theorem State.setAllTxCap_pma (s : State) (c : Nat) : (s.setAllTxCap c).pma = s.pma := rfl
@[simp] theorem State.setAllTxCap_ep (s : State) (c : Nat) : (s.setAllTxCap c).ep = s.ep := rfl
@[simp] theorem State.setAllTxCap_rxCap (s : State) (c : Nat) : (s.setAllTxCap c).rxCap = s.rxCap := rfl
@[simp] theorem State.setAllTxCap_txCap (s : State) (c : Nat) : (s.setAllTxCap c).txCap = Vector.replicate 8 c := rfl
@[simp] theorem State.setAllTxCap_nextFree (s : State) (c : Nat) : (s.setAllTxCap c).nextFree = s.nextFree := rfl
@[simp] theorem State.setAllTxCap_maxIndex (s : State) (c : Nat) : (s.setAllTxCap c).maxIndex = s.maxIndex := rfl
@[simp] theorem State.setAllTxCap_phase (s : State) (c : Nat) : (s.setAllTxCap c).phase = s.phase := rfl
@[simp] theorem State.setAllTxCap_resetCap (s : State) (c : Nat) : (s.setAllTxCap c).resetCap = s.resetCap := rfl
@[simp] theorem State.setAllTxCap_pinLevel (s : State) (c : Nat) : (s.setAllTxCap c).pinLevel = s.pinLevel := rfl
@[simp] theorem State.setAllTxCap_events (s : State) (c : Nat) : (s.setAllTxCap c).events = s.events := rfl
@[simp] theorem State.setAllTxCap_result (s : State) (c : Nat) : (s.setAllTxCap c).result = s.result := rfl
@[simp] theorem State.setAllTxCap_program (s : State) (c : Nat) : (s.setAllTxCap c).program = s.program := rfl
@[simp] theorem State.setAllTxCap_pos (s : State) (c : Nat) : (s.setAllTxCap c).pos = s.pos := rfl
@[simp] theorem State.setAllTxCap_sched (s : State) (c : Nat) : (s.setAllTxCap c).sched = s.sched := rfl
@[simp] theorem State.setAllTxCap_draws (s : State) (c : Nat) : (s.setAllTxCap c).draws = s.draws := rfl

@[simp] theorem State.setAllEpr_epr (s : State) (w : Word) : (s.setAllEpr w).epr = Vector.replicate 8 w := rfl
@[simp] theorem State.setAllEpr_cntr (s : State) (w : Word) : (s.setAllEpr w).cntr = s.cntr := rfl
@[simp] theorem State.setAllEpr_istr (s : State) (w : Word) : (s.setAllEpr w).istr = s.istr := rfl
@[simp] theorem State.setAllEpr_fnr (s : State) (w : Word) : (s.setAllEpr w).fnr = s.fnr := rfl
@[simp] theorem State.setAllEpr_daddr (s : State) (w : Word) : (s.setAllEpr w).daddr = s.daddr := rfl
@[simp] theorem State.setAllEpr_btable (s : State) (w : Word) : (s.setAllEpr w).btable = s.btable := rfl
@[simp] theorem State.setAllEpr_pma (s : State) (w : Word) : (s.setAllEpr w).pma = s.pma := rfl
@[simp] theorem State.setAllEpr_ep (s : State) (w : Word) : (s.setAllEpr w).ep = s.ep := rfl
@[simp] theorem State.setAllEpr_rxCap (s : State) (w : Word) : (s.setAllEpr w).rxCap = s.rxCap := rfl
@[simp] theorem State.setAllEpr_txCap (s : State) (w : Word) : (s.setAllEpr w).txCap = s.txCap := rfl
@[simp] theorem State.setAllEpr_nextFree (s : State) (w : Word) : (s.setAllEpr w).nextFree = s.nextFree := rfl
@[simp] theorem State.setAllEpr_maxIndex (s : State) (w : Word) : (s.setAllEpr w).maxIndex = s.maxIndex := rfl
@[simp] theorem State.setAllEpr_phase (s : State) (w : Word) : (s.setAllEpr w).phase = s.phase := rfl
@[simp] theorem State.setAllEpr_resetCap (s : State) (w : Word) : (s.setAllEpr w).resetCap = s.resetCap := rfl
@[simp] theorem State.setAllEpr_pinLevel (s : State) (w : Word) : (s.setAllEpr w).pinLevel = s.pinLevel := rfl
@[simp] theorem State.setAllEpr_events (s : State) (w : Word) : (s.setAllEpr w).events = s.events := rfl
@[simp] theorem State.setAllEpr_result (s : State) (w : Word) : (s.setAllEpr w).result = s.result := rfl
@[simp] theorem State.setAllEpr_program (s : State) (w : Word) : (s.setAllEpr w).program = s.program := rfl
@[simp] theorem State.setAllEpr_pos (s : State) (w : Word) : (s.setAllEpr w).pos = s.pos := rfl
@[simp] theorem State.setAllEpr_sched (s : State) (w : Word) : (s.setAllEpr w).sched = s.sched := rfl
@[simp] theorem State.setAllEpr_draws (s : State) (w : Word) : (s.setAllEpr w).draws = s.draws := rfl

@[simp] theorem State.setCntr_epr (s : State) (w : Word) : (s.setCntr w).epr = s.epr := rfl
@[simp] theorem State.setCntr_cntr (s : State) (w : Word) : (s.setCntr w).cntr = w := rfl
@[simp] theorem State.setCntr_istr (s : State) (w : Word) : (s.setCntr w).istr = s.istr := rfl
@[simp] theorem State.setCntr_fnr (s : State) (w : Word) : (s.setCntr w).fnr = s.fnr := rfl
@[simp] theorem State.setCntr_daddr (s : State) (w : Word) : (s.setCntr w).daddr = s.daddr := rfl
@[simp] theorem State.setCntr_btable (s : State) (w : Word) : (s.setCntr w).btable = s.btable := rfl
@[simp] theorem State.setCntr_pma (s : State) (w : Word) : (s.setCntr w).pma = s.pma := rfl
@[simp] theorem State.setCntr_ep (s : State) (w : Word) : (s.setCntr w).ep = s.ep := rfl
@[simp] theorem State.setCntr_rxCap (s : State) (w : Word) : (s.setCntr w).rxCap = s.rxCap := rfl
@[simp] theorem State.setCntr_txCap (s : State) (w : Word) : (s.setCntr w).txCap = s.txCap := rfl
@[simp] theorem State.setCntr_nextFree (s : State) (w : Word) : (s.setCntr w).nextFree = s.nextFree := rfl
@[simp] theorem State.setCntr_maxIndex (s : State) (w : Word) : (s.setCntr w).maxIndex = s.maxIndex := rfl
@[simp] theorem State.setCntr_phase (s : State) (w : Word) : (s.setCntr w).phase = s.phase := rfl
@[simp] theorem State.setCntr_resetCap (s : State) (w : Word) : (s.setCntr w).resetCap = s.resetCap := rfl
@[simp] theorem State.setCntr_pinLevel (s : State) (w : Word) : (s.setCntr w).pinLevel = s.pinLevel := rfl
@[simp] theorem State.setCntr_events (s : State) (w : Word) : (s.setCntr w).events = s.events := rfl
@[simp] theorem State.setCntr_result (s : State) (w : Word) : (s.setCntr w).result = s.result := rfl
@[simp] theorem State.setCntr_program (s : State) (w : Word) : (s.setCntr w).program = s.program := rfl
@[simp] theorem State.setCntr_pos (s : State) (w : Word) : (s.setCntr w).pos = s.pos := rfl
@[simp] theorem State.setCntr_sched (s : State) (w : Word) : (s.setCntr w).sched = s.sched := rfl
@[simp] theorem State.setCntr_draws (s : State) (w : Word) : (s.setCntr w).draws = s.draws := rfl

@[simp] theorem State.setIstr_epr (s : State) (w : Word) : (s.setIstr w).epr = s.epr := rfl
@[simp] theorem State.setIstr_cntr (s : State) (w : Word) : (s.setIstr w).cntr = s.cntr := rfl
@[simp] theorem State.setIstr_istr (s : State) (w : Word) : (s.setIstr w).istr = w := rfl
@[simp] theorem State.setIstr_fnr (s : State) (w : Word) : (s.setIstr w).fnr = s.fnr := rfl
@[simp] theorem State.setIstr_daddr (s : State) (w : Word) : (s.setIstr w).daddr = s.daddr := rfl
@[simp] theorem State.setIstr_btable (s : State) (w : Word) : (s.setIstr w).btable = s.btable := rfl
@[simp] theorem State.setIstr_pma (s : State) (w : Word) : (s.setIstr w).pma = s.pma := rfl
@[simp] theorem State.setIstr_ep (s : State) (w : Word) : (s.setIstr w).ep = s.ep := rfl
@[simp] theorem State.setIstr_rxCap (s : State) (w : Word) : (s.setIstr w).rxCap = s.rxCap := rfl
@[simp] theorem State.setIstr_txCap (s : State) (w : Word) : (s.setIstr w).txCap = s.txCap := rfl
@[simp] theorem State.setIstr_nextFree (s : State) (w : Word) : (s.setIstr w).nextFree = s.nextFree := rfl
@[simp] theorem State.setIstr_maxIndex (s : State) (w : Word) : (s.setIstr w).maxIndex = s.maxIndex := rfl
@[simp] theorem State.setIstr_phase (s : State) (w : Word) : (s.setIstr w).phase = s.phase := rfl
@[simp] theorem State.setIstr_resetCap (s : State) (w : Word) : (s.setIstr w).resetCap = s.resetCap := rfl
@[simp] theorem State.setIstr_pinLevel (s : State) (w : Word) : (s.setIstr w).pinLevel = s.pinLevel := rfl
@[simp] theorem State.setIstr_events (s : State) (w : Word) : (s.setIstr w).events = s.events := rfl
@[simp] theorem State.setIstr_result (s : State) (w : Word) : (s.setIstr w).result = s.result := rfl
@[simp] theorem State.setIstr_program (s : State) (w : Word) : (s.setIstr w).program = s.program := rfl
@[simp] theorem State.setIstr_pos (s : State) (w : Word) : (s.setIstr w).pos = s.pos := rfl
@[simp] theorem State.setIstr_sched (s : State) (w : Word) : (s.setIstr w).sched = s.sched := rfl
@[simp] theorem State.setIstr_draws (s : State) (w : Word) : (s.setIstr w).draws = s.draws := rfl

@[simp] theorem State.setFnr_epr (s : State) (w : Word) : (s.setFnr w).epr = s.epr := rfl
@[simp] theorem State.setFnr_cntr (s : State) (w : Word) : (s.setFnr w).cntr = s.cntr := rfl
@[simp] theorem State.setFnr_istr (s : State) (w : Word) : (s.setFnr w).istr = s.istr := rfl
@[simp] theorem State.setFnr_fnr (s : State) (w : Word) : (s.setFnr w).fnr = w := rfl
@[simp] theorem State.setFnr_daddr (s : State) (w : Word) : (s.setFnr w).daddr = s.daddr := rfl
@[simp] theorem State.setFnr_btable (s : State) (w : Word) : (s.setFnr w).btable = s.btable := rfl
@[simp] theorem State.setFnr_pma (s : State) (w : Word) : (s.setFnr w).pma = s.pma := rfl
@[simp] theorem State.setFnr_ep (s : State) (w : Word) : (s.setFnr w).ep = s.ep := rfl
@[simp] theorem State.setFnr_rxCap (s : State) (w : Word) : (s.setFnr w).rxCap = s.rxCap := rfl
@[simp] theorem State.setFnr_txCap (s : State) (w : Word) : (s.setFnr w).txCap = s.txCap := rfl
@[simp] theorem State.setFnr_nextFree (s : State) (w : Word) : (s.setFnr w).nextFree = s.nextFree := rfl
@[simp] theorem State.setFnr_maxIndex (s : State) (w : Word) : (s.setFnr w).maxIndex = s.maxIndex := rfl
@[simp] theorem State.setFnr_phase (s : State) (w : Word) : (s.setFnr w).phase = s.phase := rfl
@[simp] theorem State.setFnr_resetCap (s : State) (w : Word) : (s.setFnr w).resetCap = s.resetCap := rfl
@[simp] theorem State.setFnr_pinLevel (s : State) (w : Word) : (s.setFnr w).pinLevel = s.pinLevel := rfl
@[simp] theorem State.setFnr_events (s : State) (w : Word) : (s.setFnr w).events = s.events := rfl
@[simp] theorem State.setFnr_result (s : State) (w : Word) : (s.setFnr w).result = s.result := rfl
@[simp] theorem State.setFnr_program (s : State) (w : Word) : (s.setFnr w).program = s.program := rfl
@[simp] theorem State.setFnr_pos (s : State) (w : Word) : (s.setFnr w).pos = s.pos := rfl
@[simp] theorem State.setFnr_sched (s : State) (w : Word) : (s.setFnr w).sched = s.sched := rfl
@[simp] theorem State.setFnr_draws (s : State) (w : Word) : (s.setFnr w).draws = s.draws := rfl

@[simp] theorem State.setDaddr_epr (s : State) (w : Word) : (s.setDaddr w).epr = s.epr := rfl
@[simp] theorem State.setDaddr_cntr (s : State) (w : Word) : (s.setDaddr w).cntr = s.cntr := rfl
@[simp] theorem State.setDaddr_istr (s : State) (w : Word) : (s.setDaddr w).istr = s.istr := rfl
@[simp] theorem State.setDaddr_fnr (s : State) (w : Word) : (s.setDaddr w).fnr = s.fnr := rfl
@[simp] theorem State.setDaddr_daddr (s : State) (w : Word) : (s.setDaddr w).daddr = w := rfl
@[simp] theorem State.setDaddr_btable (s : State) (w : Word) : (s.setDaddr w).btable = s.btable := rfl
@[simp] theorem State.setDaddr_pma (s : State) (w : Word) : (s.setDaddr w).pma = s.pma := rfl
@[simp] theorem State.setDaddr_ep (s : State) (w : Word) : (s.setDaddr w).ep = s.ep := rfl
@[simp] theorem State.setDaddr_rxCap (s : State) (w : Word) : (s.setDaddr w).rxCap = s.rxCap := rfl
@[simp] theorem State.setDaddr_txCap (s : State) (w : Word) : (s.setDaddr w).txCap = s.txCap := rfl
@[simp] theorem State.setDaddr_nextFree (s : State) (w : Word) : (s.setDaddr w).nextFree = s.nextFree := rfl
@[simp] theorem State.setDaddr_maxIndex (s : State) (w : Word) : (s.setDaddr w).maxIndex = s.maxIndex := rfl
@[simp] theorem State.setDaddr_phase (s : State) (w : Word) : (s.setDaddr w).phase = s.phase := rfl
@[simp] theorem State.setDaddr_resetCap (s : State) (w : Word) : (s.setDaddr w).resetCap = s.resetCap := rfl
@[simp] theorem State.setDaddr_pinLevel (s : State) (w : Word) : (s.setDaddr w).pinLevel = s.pinLevel := rfl
@[simp] theorem State.setDaddr_events (s : State) (w : Word) : (s.setDaddr w).events = s.events := rfl
@[simp] theorem State.setDaddr_result (s : State) (w : Word) : (s.setDaddr w).result = s.result := rfl
@[simp] theorem State.setDaddr_program (s : State) (w : Word) : (s.setDaddr w).program = s.program := rfl
@[simp] theorem State.setDaddr_pos (s : State) (w : Word) : (s.setDaddr w).pos = s.pos := rfl
@[simp] theorem State.setDaddr_sched (s : State) (w : Word) : (s.setDaddr w).sched = s.sched := rfl
@[simp] theorem State.setDaddr_draws (s : State) (w : Word) : (s.setDaddr w).draws = s.draws := rfl

@[simp] theorem State.setBtable_epr (s : State) (w : Word) : (s.setBtable w).epr = s.epr := rfl
@[simp] theorem State.setBtable_cntr (s : State) (w : Word) : (s.setBtable w).cntr = s.cntr := rfl
@[simp] theorem State.setBtable_istr (s : State) (w : Word) : (s.setBtable w).istr = s.istr := rfl
@[simp] theorem State.setBtable_fnr (s : State) (w : Word) : (s.setBtable w).fnr = s.fnr := rfl
@[simp] theorem State.setBtable_daddr (s : State) (w : Word) : (s.setBtable w).daddr = s.daddr := rfl
@[simp] theorem State.setBtable_btable (s : State) (w : Word) : (s.setBtable w).btable = w := rfl
@[simp] theorem State.setBtable_pma (s : State) (w : Word) : (s.setBtable w).pma = s.pma := rfl
@[simp] theorem State.setBtable_ep (s : State) (w : Word) : (s.setBtable w).ep = s.ep := rfl
@[simp] theorem State.setBtable_rxCap (s : State) (w : Word) : (s.setBtable w).rxCap = s.rxCap := rfl
@[simp] theorem State.setBtable_txCap (s : State) (w : Word) : (s.setBtable w).txCap = s.txCap := rfl
@[simp] theorem State.setBtable_nextFree (s : State) (w : Word) : (s.setBtable w).nextFree = s.nextFree := rfl
@[simp] theorem State.setBtable_maxIndex (s : State) (w : Word) : (s.setBtable w).maxIndex = s.maxIndex := rfl
@[simp] theorem State.setBtable_phase (s : State) (w : Word) : (s.setBtable w).phase = s.phase := rfl
@[simp] theorem State.setBtable_resetCap (s : State) (w : Word) : (s.setBtable w).resetCap = s.resetCap := rfl
@[simp] theorem State.setBtable_pinLevel (s : State) (w : Word) : (s.setBtable w).pinLevel = s.pinLevel := rfl
@[simp] theorem State.setBtable_events (s : State) (w : Word) : (s.setBtable w).events = s.events := rfl
@[simp] theorem State.setBtable_result (s : State) (w : Word) : (s.setBtable w).result = s.result := rfl
@[simp] theorem State.setBtable_program (s : State) (w : Word) : (s.setBtable w).program = s.program := rfl
@[simp] theorem State.setBtable_pos (s : State) (w : Word) : (s.setBtable w).pos = s.pos := rfl
@[simp] theorem State.setBtable_sched (s : State) (w : Word) : (s.setBtable w).sched = s.sched := rfl
@[simp] theorem State.setBtable_draws (s : State) (w : Word) : (s.setBtable w).draws = s.draws := rfl

@[simp] theorem State.setPma_epr (s : State) (m : List Host.Cell) : (s.setPma m).epr = s.epr := rfl
@[simp] theorem State.setPma_cntr (s : State) (m : List Host.Cell) : (s.setPma m).cntr = s.cntr := rfl
@[simp] theorem State.setPma_istr (s : State) (m : List Host.Cell) : (s.setPma m).istr = s.istr := rfl
@[simp] theorem State.setPma_fnr (s : State) (m : List Host.Cell) : (s.setPma m).fnr = s.fnr := rfl
@[simp] theorem State.setPma_daddr (s : State) (m : List Host.Cell) : (s.setPma m).daddr = s.daddr := rfl
@[simp] theorem State.setPma_btable (s : State) (m : List Host.Cell) : (s.setPma m).btable = s.btable := rfl
@[simp] theorem State.setPma_pma (s : State) (m : List Host.Cell) : (s.setPma m).pma = m := rfl
@[simp] theorem State.setPma_ep (s : State) (m : List Host.Cell) : (s.setPma m).ep = s.ep := rfl
@[simp] theorem State.setPma_rxCap (s : State) (m : List Host.Cell) : (s.setPma m).rxCap = s.rxCap := rfl
@[simp] theorem State.setPma_txCap (s : State) (m : List Host.Cell) : (s.setPma m).txCap = s.txCap := rfl
@[simp] theorem State.setPma_nextFree (s : State) (m : List Host.Cell) : (s.setPma m).nextFree = s.nextFree := rfl
@[simp] theorem State.setPma_maxIndex (s : State) (m : List Host.Cell) : (s.setPma m).maxIndex = s.maxIndex := rfl
@[simp] theorem State.setPma_phase (s : State) (m : List Host.Cell) : (s.setPma m).phase = s.phase := rfl
@[simp] theorem State.setPma_resetCap (s : State) (m : List Host.Cell) : (s.setPma m).resetCap = s.resetCap := rfl
@[simp] theorem State.setPma_pinLevel (s : State) (m : List Host.Cell) : (s.setPma m).pinLevel = s.pinLevel := rfl
@[simp] theorem State.setPma_events (s : State) (m : List Host.Cell) : (s.setPma m).events = s.events := rfl
@[simp] theorem State.setPma_result (s : State) (m : List Host.Cell) : (s.setPma m).result = s.result := rfl
@[simp] theorem State.setPma_program (s : State) (m : List Host.Cell) : (s.setPma m).program = s.program := rfl
@[simp] theorem State.setPma_pos (s : State) (m : List Host.Cell) : (s.setPma m).pos = s.pos := rfl
@[simp] theorem State.setPma_sched (s : State) (m : List Host.Cell) : (s.setPma m).sched = s.sched := rfl
@[simp] theorem State.setPma_draws (s : State) (m : List Host.Cell) : (s.setPma m).draws = s.draws := rfl

@[simp] theorem State.setEp_epr (s : State) (n : Slot) (r : EpRecord) : (s.setEp n r).epr = s.epr := rfl
@[simp] theorem State.setEp_cntr (s : State) (n : Slot) (r : EpRecord) : (s.setEp n r).cntr = s.cntr := rfl
@[simp] theorem State.setEp_istr (s : State) (n : Slot) (r : EpRecord) : (s.setEp n r).istr = s.istr := rfl
@[simp] theorem State.setEp_fnr (s : State) (n : Slot) (r : EpRecord) : (s.setEp n r).fnr = s.fnr := rfl
@[simp] theorem State.setEp_daddr (s : State) (n : Slot) (r : EpRecord) : (s.setEp n r).daddr = s.daddr := rfl
@[simp] theorem State.setEp_btable (s : State) (n : Slot) (r : EpRecord) : (s.setEp n r).btable = s.btable := rfl
@[simp] theorem State.setEp_pma (s : State) (n : Slot) (r : EpRecord) : (s.setEp n r).pma = s.pma := rfl
@[simp] theorem State.setEp_ep (s : State) (n : Slot) (r : EpRecord) : (s.setEp n r).ep = s.ep.set n r := rfl
@[simp] theorem State.setEp_rxCap (s : State) (n : Slot) (r : EpRecord) : (s.setEp n r).rxCap = s.rxCap := rfl
@[simp] theorem State.setEp_txCap (s : State) (n : Slot) (r : EpRecord) : (s.setEp n r).txCap = s.txCap := rfl
@[simp] theorem State.setEp_nextFree (s : State) (n : Slot) (r : EpRecord) : (s.setEp n r).nextFree = s.nextFree := rfl
@[simp] theorem State.setEp_maxIndex (s : State) (n : Slot) (r : EpRecord) : (s.setEp n r).maxIndex = s.maxIndex := rfl
@[simp] theorem State.setEp_phase (s : State) (n : Slot) (r : EpRecord) : (s.setEp n r).phase = s.phase := rfl
@[simp] theorem State.setEp_resetCap (s : State) (n : Slot) (r : EpRecord) : (s.setEp n r).resetCap = s.resetCap := rfl
@[simp] theorem State.setEp_pinLevel (s : State) (n : Slot) (r : EpRecord) : (s.setEp n r).pinLevel = s.pinLevel := rfl
@[simp] theorem State.setEp_events (s : State) (n : Slot) (r : EpRecord) : (s.setEp n r).events = s.events := rfl
@[simp] theorem State.setEp_result (s : State) (n : Slot) (r : EpRecord) : (s.setEp n r).result = s.result := rfl
@[simp] theorem State.setEp_program (s : State) (n : Slot) (r : EpRecord) : (s.setEp n r).program = s.program := rfl
@[simp] theorem State.setEp_pos (s : State) (n : Slot) (r : EpRecord) : (s.setEp n r).pos = s.pos := rfl
@[simp] theorem State.setEp_sched (s : State) (n : Slot) (r : EpRecord) : (s.setEp n r).sched = s.sched := rfl
@[simp] theorem State.setEp_draws (s : State) (n : Slot) (r : EpRecord) : (s.setEp n r).draws = s.draws := rfl

@[simp] theorem State.setRxCap_epr (s : State) (n : Slot) (c : Nat) : (s.setRxCap n c).epr = s.epr := rfl
@[simp] theorem State.setRxCap_cntr (s : State) (n : Slot) (c : Nat) : (s.setRxCap n c).cntr = s.cntr := rfl
@[simp] theorem State.setRxCap_istr (s : State) (n : Slot) (c : Nat) : (s.setRxCap n c).istr = s.istr := rfl
@[simp] theorem State.setRxCap_fnr (s : State) (n : Slot) (c : Nat) : (s.setRxCap n c).fnr = s.fnr := rfl
@[simp] theorem State.setRxCap_daddr (s : State) (n : Slot) (c : Nat) : (s.setRxCap n c).daddr = s.daddr := rfl
@[simp] theorem State.setRxCap_btable (s : State) (n : Slot) (c : Nat) : (s.setRxCap n c).btable = s.btable := rfl
@[simp] theorem State.setRxCap_pma (s : State) (n : Slot) (c : Nat) : (s.setRxCap n c).pma = s.pma := rfl
@[simp] theorem State.setRxCap_ep (s : State) (n : Slot) (c : Nat) : (s.setRxCap n c).ep = s.ep := rfl
@[simp] theorem State.setRxCap_rxCap (s : State) (n : Slot) (c : Nat) : (s.setRxCap n c).rxCap = s.rxCap.set n c := rfl
@[simp] theorem State.setRxCap_txCap (s : State) (n : Slot) (c : Nat) : (s.setRxCap n c).txCap = s.txCap := rfl
@[simp] theorem State.setRxCap_nextFree (s : State) (n : Slot) (c : Nat) : (s.setRxCap n c).nextFree = s.nextFree := rfl
@[simp] theorem State.setRxCap_maxIndex (s : State) (n : Slot) (c : Nat) : (s.setRxCap n c).maxIndex = s.maxIndex := rfl
@[simp] theorem State.setRxCap_phase (s : State) (n : Slot) (c : Nat) : (s.setRxCap n c).phase = s.phase := rfl
@[simp] theorem State.setRxCap_resetCap (s : State) (n : Slot) (c : Nat) : (s.setRxCap n c).resetCap = s.resetCap := rfl
@[simp] theorem State.setRxCap_pinLevel (s : State) (n : Slot) (c : Nat) : (s.setRxCap n c).pinLevel = s.pinLevel := rfl
@[simp] theorem State.setRxCap_events (s : State) (n : Slot) (c : Nat) : (s.setRxCap n c).events = s.events := rfl
@[simp] theorem State.setRxCap_result (s : State) (n : Slot) (c : Nat) : (s.setRxCap n c).result = s.result := rfl
@[simp] theorem State.setRxCap_program (s : State) (n : Slot) (c : Nat) : (s.setRxCap n c).program = s.program := rfl
@[simp] theorem State.setRxCap_pos (s : State) (n : Slot) (c : Nat) : (s.setRxCap n c).pos = s.pos := rfl
@[simp] theorem State.setRxCap_sched (s : State) (n : Slot) (c : Nat) : (s.setRxCap n c).sched = s.sched := rfl
@[simp] theorem State.setRxCap_draws (s : State) (n : Slot) (c : Nat) : (s.setRxCap n c).draws = s.draws := rfl

@[simp] theorem State.setTxCap_epr (s : State) (n : Slot) (c : Nat) : (s.setTxCap n c).epr = s.epr := rfl
@[simp] theorem State.setTxCap_cntr (s : State) (n : Slot) (c : Nat) : (s.setTxCap n c).cntr = s.cntr := rfl
@[simp] theorem State.setTxCap_istr (s : State) (n : Slot) (c : Nat) : (s.setTxCap n c).istr = s.istr := rfl
@[simp] theorem State.setTxCap_fnr (s : State) (n : Slot) (c : Nat) : (s.setTxCap n c).fnr = s.fnr := rfl
@[simp] theorem State.setTxCap_daddr (s : State) (n : Slot) (c : Nat) : (s.setTxCap n c).daddr = s.daddr := rfl
@[simp] theorem State.setTxCap_btable (s : State) (n : Slot) (c : Nat) : (s.setTxCap n c).btable = s.btable := rfl
@[simp] theorem State.setTxCap_pma (s : State) (n : Slot) (c : Nat) : (s.setTxCap n c).pma = s.pma := rfl
@[simp] theorem State.setTxCap_ep (s : State) (n : Slot) (c : Nat) : (s.setTxCap n c).ep = s.ep := rfl
@[simp] theorem State.setTxCap_rxCap (s : State) (n : Slot) (c : Nat) : (s.setTxCap n c).rxCap = s.rxCap := rfl
@[simp] theorem State.setTxCap_txCap (s : State) (n : Slot) (c : Nat) : (s.setTxCap n c).txCap = s.txCap.set n c := rfl
@[simp] theorem State.setTxCap_nextFree (s : State) (n : Slot) (c : Nat) : (s.setTxCap n c).nextFree = s.nextFree := rfl
@[simp] theorem State.setTxCap_maxIndex (s : State) (n : Slot) (c : Nat) : (s.setTxCap n c).maxIndex = s.maxIndex := rfl
@[simp] theorem State.setTxCap_phase (s : State) (n : Slot) (c : Nat) : (s.setTxCap n c).phase = s.phase := rfl
@[simp] theorem State.setTxCap_resetCap (s : State) (n : Slot) (c : Nat) : (s.setTxCap n c).resetCap = s.resetCap := rfl
@[simp] theorem State.setTxCap_pinLevel (s : State) (n : Slot) (c : Nat) : (s.setTxCap n c).pinLevel = s.pinLevel := rfl
@[simp] theorem State.setTxCap_events (s : State) (n : Slot) (c : Nat) : (s.setTxCap n c).events = s.events := rfl
@[simp] theorem State.setTxCap_result (s : State) (n : Slot) (c : Nat) : (s.setTxCap n c).result = s.result := rfl
@[simp] theorem State.setTxCap_program (s : State) (n : Slot) (c : Nat) : (s.setTxCap n c).program = s.program := rfl
@[simp] theorem State.setTxCap_pos (s : State) (n : Slot) (c : Nat) : (s.setTxCap n c).pos = s.pos := rfl
@[simp] theorem State.setTxCap_sched (s : State) (n : Slot) (c : Nat) : (s.setTxCap n c).sched = s.sched := rfl
@[simp] theorem State.setTxCap_draws (s : State) (n : Slot) (c : Nat) : (s.setTxCap n c).draws = s.draws := rfl

@[simp] theorem State.setNextFree_epr (s : State) (off : Nat) : (s.setNextFree off).epr = s.epr := rfl
@[simp] theorem State.setNextFree_cntr (s : State) (off : Nat) : (s.setNextFree off).cntr = s.cntr := rfl
@[simp] theorem State.setNextFree_istr (s : State) (off : Nat) : (s.setNextFree off).istr = s.istr := rfl
@[simp] theorem State.setNextFree_fnr (s : State) (off : Nat) : (s.setNextFree off).fnr = s.fnr := rfl
@[simp] theorem State.setNextFree_daddr (s : State) (off : Nat) : (s.setNextFree off).daddr = s.daddr := rfl
@[simp] theorem State.setNextFree_btable (s : State) (off : Nat) : (s.setNextFree off).btable = s.btable := rfl
@[simp] theorem State.setNextFree_pma (s : State) (off : Nat) : (s.setNextFree off).pma = s.pma := rfl
@[simp] theorem State.setNextFree_ep (s : State) (off : Nat) : (s.setNextFree off).ep = s.ep := rfl
@[simp] theorem State.setNextFree_rxCap (s : State) (off : Nat) : (s.setNextFree off).rxCap = s.rxCap := rfl
@[simp] theorem State.setNextFree_txCap (s : State) (off : Nat) : (s.setNextFree off).txCap = s.txCap := rfl
@[simp] theorem State.setNextFree_nextFree (s : State) (off : Nat) : (s.setNextFree off).nextFree = off := rfl
@[simp] theorem State.setNextFree_maxIndex (s : State) (off : Nat) : (s.setNextFree off).maxIndex = s.maxIndex := rfl
@[simp] theorem State.setNextFree_phase (s : State) (off : Nat) : (s.setNextFree off).phase = s.phase := rfl
@[simp] theorem State.setNextFree_resetCap (s : State) (off : Nat) : (s.setNextFree off).resetCap = s.resetCap := rfl
@[simp] theorem State.setNextFree_pinLevel (s : State) (off : Nat) : (s.setNextFree off).pinLevel = s.pinLevel := rfl
@[simp] theorem State.setNextFree_events (s : State) (off : Nat) : (s.setNextFree off).events = s.events := rfl
@[simp] theorem State.setNextFree_result (s : State) (off : Nat) : (s.setNextFree off).result = s.result := rfl
@[simp] theorem State.setNextFree_program (s : State) (off : Nat) : (s.setNextFree off).program = s.program := rfl
@[simp] theorem State.setNextFree_pos (s : State) (off : Nat) : (s.setNextFree off).pos = s.pos := rfl
@[simp] theorem State.setNextFree_sched (s : State) (off : Nat) : (s.setNextFree off).sched = s.sched := rfl
@[simp] theorem State.setNextFree_draws (s : State) (off : Nat) : (s.setNextFree off).draws = s.draws := rfl

@[simp] theorem State.setMaxIndex_epr (s : State) (n : Slot) : (s.setMaxIndex n).epr = s.epr := rfl
@[simp] theorem State.setMaxIndex_cntr (s : State) (n : Slot) : (s.setMaxIndex n).cntr = s.cntr := rfl
@[simp] theorem State.setMaxIndex_istr (s : State) (n : Slot) : (s.setMaxIndex n).istr = s.istr := rfl
@[simp] theorem State.setMaxIndex_fnr (s : State) (n : Slot) : (s.setMaxIndex n).fnr = s.fnr := rfl
@[simp] theorem State.setMaxIndex_daddr (s : State) (n : Slot) : (s.setMaxIndex n).daddr = s.daddr := rfl
@[simp] theorem State.setMaxIndex_btable (s : State) (n : Slot) : (s.setMaxIndex n).btable = s.btable := rfl
@[simp] theorem State.setMaxIndex_pma (s : State) (n : Slot) : (s.setMaxIndex n).pma = s.pma := rfl
@[simp] theorem State.setMaxIndex_ep (s : State) (n : Slot) : (s.setMaxIndex n).ep = s.ep := rfl
@[simp] theorem State.setMaxIndex_rxCap (s : State) (n : Slot) : (s.setMaxIndex n).rxCap = s.rxCap := rfl
@[simp] theorem State.setMaxIndex_txCap (s : State) (n : Slot) : (s.setMaxIndex n).txCap = s.txCap := rfl
@[simp] theorem State.setMaxIndex_nextFree (s : State) (n : Slot) : (s.setMaxIndex n).nextFree = s.nextFree := rfl
@[simp] theorem State.setMaxIndex_maxIndex (s : State) (n : Slot) : (s.setMaxIndex n).maxIndex = n := rfl
@[simp] theorem State.setMaxIndex_phase (s : State) (n : Slot) : (s.setMaxIndex n).phase = s.phase := rfl
@[simp] theorem State.setMaxIndex_resetCap (s : State) (n : Slot) : (s.setMaxIndex n).resetCap = s.resetCap := rfl
@[simp] theorem State.setMaxIndex_pinLevel (s : State) (n : Slot) : (s.setMaxIndex n).pinLevel = s.pinLevel := rfl
@[simp] theorem State.setMaxIndex_events (s : State) (n : Slot) : (s.setMaxIndex n).events = s.events := rfl
@[simp] theorem State.setMaxIndex_result (s : State) (n : Slot) : (s.setMaxIndex n).result = s.result := rfl
@[simp] theorem State.setMaxIndex_program (s : State) (n : Slot) : (s.setMaxIndex n).program = s.program := rfl
@[simp] theorem State.setMaxIndex_pos (s : State) (n : Slot) : (s.setMaxIndex n).pos = s.pos := rfl
@[simp] theorem State.setMaxIndex_sched (s : State) (n : Slot) : (s.setMaxIndex n).sched = s.sched := rfl
@[simp] theorem State.setMaxIndex_draws (s : State) (n : Slot) : (s.setMaxIndex n).draws = s.draws := rfl

@[simp] theorem State.setPhase_epr (s : State) (p : Phase) : (s.setPhase p).epr = s.epr := rfl
@[simp] theorem State.setPhase_cntr (s : State) (p : Phase) : (s.setPhase p).cntr = s.cntr := rfl
@[simp] theorem State.setPhase_istr (s : State) (p : Phase) : (s.setPhase p).istr = s.istr := rfl
@[simp] theorem State.setPhase_fnr (s : State) (p : Phase) : (s.setPhase p).fnr = s.fnr := rfl
@[simp] theorem State.setPhase_daddr (s : State) (p : Phase) : (s.setPhase p).daddr = s.daddr := rfl
@[simp] theorem State.setPhase_btable (s : State) (p : Phase) : (s.setPhase p).btable = s.btable := rfl
@[simp] theorem State.setPhase_pma (s : State) (p : Phase) : (s.setPhase p).pma = s.pma := rfl
@[simp] theorem State.setPhase_ep (s : State) (p : Phase) : (s.setPhase p).ep = s.ep := rfl
@[simp] theorem State.setPhase_rxCap (s : State) (p : Phase) : (s.setPhase p).rxCap = s.rxCap := rfl
@[simp] theorem State.setPhase_txCap (s : State) (p : Phase) : (s.setPhase p).txCap = s.txCap := rfl
@[simp] theorem State.setPhase_nextFree (s : State) (p : Phase) : (s.setPhase p).nextFree = s.nextFree := rfl
@[simp] theorem State.setPhase_maxIndex (s : State) (p : Phase) : (s.setPhase p).maxIndex = s.maxIndex := rfl
@[simp] theorem State.setPhase_phase (s : State) (p : Phase) : (s.setPhase p).phase = p := rfl
@[simp] theorem State.setPhase_resetCap (s : State) (p : Phase) : (s.setPhase p).resetCap = s.resetCap := rfl
@[simp] theorem State.setPhase_pinLevel (s : State) (p : Phase) : (s.setPhase p).pinLevel = s.pinLevel := rfl
@[simp] theorem State.setPhase_events (s : State) (p : Phase) : (s.setPhase p).events = s.events := rfl
@[simp] theorem State.setPhase_result (s : State) (p : Phase) : (s.setPhase p).result = s.result := rfl
@[simp] theorem State.setPhase_program (s : State) (p : Phase) : (s.setPhase p).program = s.program := rfl
@[simp] theorem State.setPhase_pos (s : State) (p : Phase) : (s.setPhase p).pos = s.pos := rfl
@[simp] theorem State.setPhase_sched (s : State) (p : Phase) : (s.setPhase p).sched = s.sched := rfl
@[simp] theorem State.setPhase_draws (s : State) (p : Phase) : (s.setPhase p).draws = s.draws := rfl

@[simp] theorem State.setResetCap_epr (s : State) (c : Option ResetCap) : (s.setResetCap c).epr = s.epr := rfl
@[simp] theorem State.setResetCap_cntr (s : State) (c : Option ResetCap) : (s.setResetCap c).cntr = s.cntr := rfl
@[simp] theorem State.setResetCap_istr (s : State) (c : Option ResetCap) : (s.setResetCap c).istr = s.istr := rfl
@[simp] theorem State.setResetCap_fnr (s : State) (c : Option ResetCap) : (s.setResetCap c).fnr = s.fnr := rfl
@[simp] theorem State.setResetCap_daddr (s : State) (c : Option ResetCap) : (s.setResetCap c).daddr = s.daddr := rfl
@[simp] theorem State.setResetCap_btable (s : State) (c : Option ResetCap) : (s.setResetCap c).btable = s.btable := rfl
@[simp] theorem State.setResetCap_pma (s : State) (c : Option ResetCap) : (s.setResetCap c).pma = s.pma := rfl
@[simp] theorem State.setResetCap_ep (s : State) (c : Option ResetCap) : (s.setResetCap c).ep = s.ep := rfl
@[simp] theorem State.setResetCap_rxCap (s : State) (c : Option ResetCap) : (s.setResetCap c).rxCap = s.rxCap := rfl
@[simp] theorem State.setResetCap_txCap (s : State) (c : Option ResetCap) : (s.setResetCap c).txCap = s.txCap := rfl
@[simp] theorem State.setResetCap_nextFree (s : State) (c : Option ResetCap) : (s.setResetCap c).nextFree = s.nextFree := rfl
@[simp] theorem State.setResetCap_maxIndex (s : State) (c : Option ResetCap) : (s.setResetCap c).maxIndex = s.maxIndex := rfl
@[simp] theorem State.setResetCap_phase (s : State) (c : Option ResetCap) : (s.setResetCap c).phase = s.phase := rfl
@[simp] theorem State.setResetCap_resetCap (s : State) (c : Option ResetCap) : (s.setResetCap c).resetCap = c := rfl
@[simp] theorem State.setResetCap_pinLevel (s : State) (c : Option ResetCap) : (s.setResetCap c).pinLevel = s.pinLevel := rfl
@[simp] theorem State.setResetCap_events (s : State) (c : Option ResetCap) : (s.setResetCap c).events = s.events := rfl
@[simp] theorem State.setResetCap_result (s : State) (c : Option ResetCap) : (s.setResetCap c).result = s.result := rfl
@[simp] theorem State.setResetCap_program (s : State) (c : Option ResetCap) : (s.setResetCap c).program = s.program := rfl
@[simp] theorem State.setResetCap_pos (s : State) (c : Option ResetCap) : (s.setResetCap c).pos = s.pos := rfl
@[simp] theorem State.setResetCap_sched (s : State) (c : Option ResetCap) : (s.setResetCap c).sched = s.sched := rfl
@[simp] theorem State.setResetCap_draws (s : State) (c : Option ResetCap) : (s.setResetCap c).draws = s.draws := rfl

@[simp] theorem State.setPinLevel_epr (s : State) (l : PinLevel) : (s.setPinLevel l).epr = s.epr := rfl
@[simp] theorem State.setPinLevel_cntr (s : State) (l : PinLevel) : (s.setPinLevel l).cntr = s.cntr := rfl
@[simp] theorem State.setPinLevel_istr (s : State) (l : PinLevel) : (s.setPinLevel l).istr = s.istr := rfl
@[simp] theorem State.setPinLevel_fnr (s : State) (l : PinLevel) : (s.setPinLevel l).fnr = s.fnr := rfl
@[simp] theorem State.setPinLevel_daddr (s : State) (l : PinLevel) : (s.setPinLevel l).daddr = s.daddr := rfl
@[simp] theorem State.setPinLevel_btable (s : State) (l : PinLevel) : (s.setPinLevel l).btable = s.btable := rfl
@[simp] theorem State.setPinLevel_pma (s : State) (l : PinLevel) : (s.setPinLevel l).pma = s.pma := rfl
@[simp] theorem State.setPinLevel_ep (s : State) (l : PinLevel) : (s.setPinLevel l).ep = s.ep := rfl
@[simp] theorem State.setPinLevel_rxCap (s : State) (l : PinLevel) : (s.setPinLevel l).rxCap = s.rxCap := rfl
@[simp] theorem State.setPinLevel_txCap (s : State) (l : PinLevel) : (s.setPinLevel l).txCap = s.txCap := rfl
@[simp] theorem State.setPinLevel_nextFree (s : State) (l : PinLevel) : (s.setPinLevel l).nextFree = s.nextFree := rfl
@[simp] theorem State.setPinLevel_maxIndex (s : State) (l : PinLevel) : (s.setPinLevel l).maxIndex = s.maxIndex := rfl
@[simp] theorem State.setPinLevel_phase (s : State) (l : PinLevel) : (s.setPinLevel l).phase = s.phase := rfl
@[simp] theorem State.setPinLevel_resetCap (s : State) (l : PinLevel) : (s.setPinLevel l).resetCap = s.resetCap := rfl
@[simp] theorem State.setPinLevel_pinLevel (s : State) (l : PinLevel) : (s.setPinLevel l).pinLevel = l := rfl
@[simp] theorem State.setPinLevel_events (s : State) (l : PinLevel) : (s.setPinLevel l).events = s.events := rfl
@[simp] theorem State.setPinLevel_result (s : State) (l : PinLevel) : (s.setPinLevel l).result = s.result := rfl
@[simp] theorem State.setPinLevel_program (s : State) (l : PinLevel) : (s.setPinLevel l).program = s.program := rfl
@[simp] theorem State.setPinLevel_pos (s : State) (l : PinLevel) : (s.setPinLevel l).pos = s.pos := rfl
@[simp] theorem State.setPinLevel_sched (s : State) (l : PinLevel) : (s.setPinLevel l).sched = s.sched := rfl
@[simp] theorem State.setPinLevel_draws (s : State) (l : PinLevel) : (s.setPinLevel l).draws = s.draws := rfl

@[simp] theorem State.pushEvent_epr (s : State) (e : HostEvent) : (s.pushEvent e).epr = s.epr := rfl
@[simp] theorem State.pushEvent_cntr (s : State) (e : HostEvent) : (s.pushEvent e).cntr = s.cntr := rfl
@[simp] theorem State.pushEvent_istr (s : State) (e : HostEvent) : (s.pushEvent e).istr = s.istr := rfl
@[simp] theorem State.pushEvent_fnr (s : State) (e : HostEvent) : (s.pushEvent e).fnr = s.fnr := rfl
@[simp] theorem State.pushEvent_daddr (s : State) (e : HostEvent) : (s.pushEvent e).daddr = s.daddr := rfl
@[simp] theorem State.pushEvent_btable (s : State) (e : HostEvent) : (s.pushEvent e).btable = s.btable := rfl
@[simp] theorem State.pushEvent_pma (s : State) (e : HostEvent) : (s.pushEvent e).pma = s.pma := rfl
@[simp] theorem State.pushEvent_ep (s : State) (e : HostEvent) : (s.pushEvent e).ep = s.ep := rfl
@[simp] theorem State.pushEvent_rxCap (s : State) (e : HostEvent) : (s.pushEvent e).rxCap = s.rxCap := rfl
@[simp] theorem State.pushEvent_txCap (s : State) (e : HostEvent) : (s.pushEvent e).txCap = s.txCap := rfl
@[simp] theorem State.pushEvent_nextFree (s : State) (e : HostEvent) : (s.pushEvent e).nextFree = s.nextFree := rfl
@[simp] theorem State.pushEvent_maxIndex (s : State) (e : HostEvent) : (s.pushEvent e).maxIndex = s.maxIndex := rfl
@[simp] theorem State.pushEvent_phase (s : State) (e : HostEvent) : (s.pushEvent e).phase = s.phase := rfl
@[simp] theorem State.pushEvent_resetCap (s : State) (e : HostEvent) : (s.pushEvent e).resetCap = s.resetCap := rfl
@[simp] theorem State.pushEvent_pinLevel (s : State) (e : HostEvent) : (s.pushEvent e).pinLevel = s.pinLevel := rfl
@[simp] theorem State.pushEvent_events (s : State) (e : HostEvent) : (s.pushEvent e).events = s.events ++ [e] := rfl
@[simp] theorem State.pushEvent_result (s : State) (e : HostEvent) : (s.pushEvent e).result = s.result := rfl
@[simp] theorem State.pushEvent_program (s : State) (e : HostEvent) : (s.pushEvent e).program = s.program := rfl
@[simp] theorem State.pushEvent_pos (s : State) (e : HostEvent) : (s.pushEvent e).pos = s.pos := rfl
@[simp] theorem State.pushEvent_sched (s : State) (e : HostEvent) : (s.pushEvent e).sched = s.sched := rfl
@[simp] theorem State.pushEvent_draws (s : State) (e : HostEvent) : (s.pushEvent e).draws = s.draws := rfl

@[simp] theorem State.setResult_epr (s : State) (r : Result) : (s.setResult r).epr = s.epr := rfl
@[simp] theorem State.setResult_cntr (s : State) (r : Result) : (s.setResult r).cntr = s.cntr := rfl
@[simp] theorem State.setResult_istr (s : State) (r : Result) : (s.setResult r).istr = s.istr := rfl
@[simp] theorem State.setResult_fnr (s : State) (r : Result) : (s.setResult r).fnr = s.fnr := rfl
@[simp] theorem State.setResult_daddr (s : State) (r : Result) : (s.setResult r).daddr = s.daddr := rfl
@[simp] theorem State.setResult_btable (s : State) (r : Result) : (s.setResult r).btable = s.btable := rfl
@[simp] theorem State.setResult_pma (s : State) (r : Result) : (s.setResult r).pma = s.pma := rfl
@[simp] theorem State.setResult_ep (s : State) (r : Result) : (s.setResult r).ep = s.ep := rfl
@[simp] theorem State.setResult_rxCap (s : State) (r : Result) : (s.setResult r).rxCap = s.rxCap := rfl
@[simp] theorem State.setResult_txCap (s : State) (r : Result) : (s.setResult r).txCap = s.txCap := rfl
@[simp] theorem State.setResult_nextFree (s : State) (r : Result) : (s.setResult r).nextFree = s.nextFree := rfl
@[simp] theorem State.setResult_maxIndex (s : State) (r : Result) : (s.setResult r).maxIndex = s.maxIndex := rfl
@[simp] theorem State.setResult_phase (s : State) (r : Result) : (s.setResult r).phase = s.phase := rfl
@[simp] theorem State.setResult_resetCap (s : State) (r : Result) : (s.setResult r).resetCap = s.resetCap := rfl
@[simp] theorem State.setResult_pinLevel (s : State) (r : Result) : (s.setResult r).pinLevel = s.pinLevel := rfl
@[simp] theorem State.setResult_events (s : State) (r : Result) : (s.setResult r).events = s.events := rfl
@[simp] theorem State.setResult_result (s : State) (r : Result) : (s.setResult r).result = r := rfl
@[simp] theorem State.setResult_program (s : State) (r : Result) : (s.setResult r).program = s.program := rfl
@[simp] theorem State.setResult_pos (s : State) (r : Result) : (s.setResult r).pos = s.pos := rfl
@[simp] theorem State.setResult_sched (s : State) (r : Result) : (s.setResult r).sched = s.sched := rfl
@[simp] theorem State.setResult_draws (s : State) (r : Result) : (s.setResult r).draws = s.draws := rfl

@[simp] theorem State.setProgram_epr (s : State) (p : List Encoded) : (s.setProgram p).epr = s.epr := rfl
@[simp] theorem State.setProgram_cntr (s : State) (p : List Encoded) : (s.setProgram p).cntr = s.cntr := rfl
@[simp] theorem State.setProgram_istr (s : State) (p : List Encoded) : (s.setProgram p).istr = s.istr := rfl
@[simp] theorem State.setProgram_fnr (s : State) (p : List Encoded) : (s.setProgram p).fnr = s.fnr := rfl
@[simp] theorem State.setProgram_daddr (s : State) (p : List Encoded) : (s.setProgram p).daddr = s.daddr := rfl
@[simp] theorem State.setProgram_btable (s : State) (p : List Encoded) : (s.setProgram p).btable = s.btable := rfl
@[simp] theorem State.setProgram_pma (s : State) (p : List Encoded) : (s.setProgram p).pma = s.pma := rfl
@[simp] theorem State.setProgram_ep (s : State) (p : List Encoded) : (s.setProgram p).ep = s.ep := rfl
@[simp] theorem State.setProgram_rxCap (s : State) (p : List Encoded) : (s.setProgram p).rxCap = s.rxCap := rfl
@[simp] theorem State.setProgram_txCap (s : State) (p : List Encoded) : (s.setProgram p).txCap = s.txCap := rfl
@[simp] theorem State.setProgram_nextFree (s : State) (p : List Encoded) : (s.setProgram p).nextFree = s.nextFree := rfl
@[simp] theorem State.setProgram_maxIndex (s : State) (p : List Encoded) : (s.setProgram p).maxIndex = s.maxIndex := rfl
@[simp] theorem State.setProgram_phase (s : State) (p : List Encoded) : (s.setProgram p).phase = s.phase := rfl
@[simp] theorem State.setProgram_resetCap (s : State) (p : List Encoded) : (s.setProgram p).resetCap = s.resetCap := rfl
@[simp] theorem State.setProgram_pinLevel (s : State) (p : List Encoded) : (s.setProgram p).pinLevel = s.pinLevel := rfl
@[simp] theorem State.setProgram_events (s : State) (p : List Encoded) : (s.setProgram p).events = s.events := rfl
@[simp] theorem State.setProgram_result (s : State) (p : List Encoded) : (s.setProgram p).result = s.result := rfl
@[simp] theorem State.setProgram_program (s : State) (p : List Encoded) : (s.setProgram p).program = p := rfl
@[simp] theorem State.setProgram_pos (s : State) (p : List Encoded) : (s.setProgram p).pos = s.pos := rfl
@[simp] theorem State.setProgram_sched (s : State) (p : List Encoded) : (s.setProgram p).sched = s.sched := rfl
@[simp] theorem State.setProgram_draws (s : State) (p : List Encoded) : (s.setProgram p).draws = s.draws := rfl

@[simp] theorem State.setPos_epr (s : State) (p : Nat) : (s.setPos p).epr = s.epr := rfl
@[simp] theorem State.setPos_cntr (s : State) (p : Nat) : (s.setPos p).cntr = s.cntr := rfl
@[simp] theorem State.setPos_istr (s : State) (p : Nat) : (s.setPos p).istr = s.istr := rfl
@[simp] theorem State.setPos_fnr (s : State) (p : Nat) : (s.setPos p).fnr = s.fnr := rfl
@[simp] theorem State.setPos_daddr (s : State) (p : Nat) : (s.setPos p).daddr = s.daddr := rfl
@[simp] theorem State.setPos_btable (s : State) (p : Nat) : (s.setPos p).btable = s.btable := rfl
@[simp] theorem State.setPos_pma (s : State) (p : Nat) : (s.setPos p).pma = s.pma := rfl
@[simp] theorem State.setPos_ep (s : State) (p : Nat) : (s.setPos p).ep = s.ep := rfl
@[simp] theorem State.setPos_rxCap (s : State) (p : Nat) : (s.setPos p).rxCap = s.rxCap := rfl
@[simp] theorem State.setPos_txCap (s : State) (p : Nat) : (s.setPos p).txCap = s.txCap := rfl
@[simp] theorem State.setPos_nextFree (s : State) (p : Nat) : (s.setPos p).nextFree = s.nextFree := rfl
@[simp] theorem State.setPos_maxIndex (s : State) (p : Nat) : (s.setPos p).maxIndex = s.maxIndex := rfl
@[simp] theorem State.setPos_phase (s : State) (p : Nat) : (s.setPos p).phase = s.phase := rfl
@[simp] theorem State.setPos_resetCap (s : State) (p : Nat) : (s.setPos p).resetCap = s.resetCap := rfl
@[simp] theorem State.setPos_pinLevel (s : State) (p : Nat) : (s.setPos p).pinLevel = s.pinLevel := rfl
@[simp] theorem State.setPos_events (s : State) (p : Nat) : (s.setPos p).events = s.events := rfl
@[simp] theorem State.setPos_result (s : State) (p : Nat) : (s.setPos p).result = s.result := rfl
@[simp] theorem State.setPos_program (s : State) (p : Nat) : (s.setPos p).program = s.program := rfl
@[simp] theorem State.setPos_pos (s : State) (p : Nat) : (s.setPos p).pos = p := rfl
@[simp] theorem State.setPos_sched (s : State) (p : Nat) : (s.setPos p).sched = s.sched := rfl
@[simp] theorem State.setPos_draws (s : State) (p : Nat) : (s.setPos p).draws = s.draws := rfl

@[simp] theorem State.setSched_epr (s : State) (l : List (List BusStep)) : (s.setSched l).epr = s.epr := rfl
@[simp] theorem State.setSched_cntr (s : State) (l : List (List BusStep)) : (s.setSched l).cntr = s.cntr := rfl
@[simp] theorem State.setSched_istr (s : State) (l : List (List BusStep)) : (s.setSched l).istr = s.istr := rfl
@[simp] theorem State.setSched_fnr (s : State) (l : List (List BusStep)) : (s.setSched l).fnr = s.fnr := rfl
@[simp] theorem State.setSched_daddr (s : State) (l : List (List BusStep)) : (s.setSched l).daddr = s.daddr := rfl
@[simp] theorem State.setSched_btable (s : State) (l : List (List BusStep)) : (s.setSched l).btable = s.btable := rfl
@[simp] theorem State.setSched_pma (s : State) (l : List (List BusStep)) : (s.setSched l).pma = s.pma := rfl
@[simp] theorem State.setSched_ep (s : State) (l : List (List BusStep)) : (s.setSched l).ep = s.ep := rfl
@[simp] theorem State.setSched_rxCap (s : State) (l : List (List BusStep)) : (s.setSched l).rxCap = s.rxCap := rfl
@[simp] theorem State.setSched_txCap (s : State) (l : List (List BusStep)) : (s.setSched l).txCap = s.txCap := rfl
@[simp] theorem State.setSched_nextFree (s : State) (l : List (List BusStep)) : (s.setSched l).nextFree = s.nextFree := rfl
@[simp] theorem State.setSched_maxIndex (s : State) (l : List (List BusStep)) : (s.setSched l).maxIndex = s.maxIndex := rfl
@[simp] theorem State.setSched_phase (s : State) (l : List (List BusStep)) : (s.setSched l).phase = s.phase := rfl
@[simp] theorem State.setSched_resetCap (s : State) (l : List (List BusStep)) : (s.setSched l).resetCap = s.resetCap := rfl
@[simp] theorem State.setSched_pinLevel (s : State) (l : List (List BusStep)) : (s.setSched l).pinLevel = s.pinLevel := rfl
@[simp] theorem State.setSched_events (s : State) (l : List (List BusStep)) : (s.setSched l).events = s.events := rfl
@[simp] theorem State.setSched_result (s : State) (l : List (List BusStep)) : (s.setSched l).result = s.result := rfl
@[simp] theorem State.setSched_program (s : State) (l : List (List BusStep)) : (s.setSched l).program = s.program := rfl
@[simp] theorem State.setSched_pos (s : State) (l : List (List BusStep)) : (s.setSched l).pos = s.pos := rfl
@[simp] theorem State.setSched_sched (s : State) (l : List (List BusStep)) : (s.setSched l).sched = l := rfl
@[simp] theorem State.setSched_draws (s : State) (l : List (List BusStep)) : (s.setSched l).draws = s.draws := rfl

@[simp] theorem State.bumpDraws_epr (s : State) : (s.bumpDraws).epr = s.epr := rfl
@[simp] theorem State.bumpDraws_cntr (s : State) : (s.bumpDraws).cntr = s.cntr := rfl
@[simp] theorem State.bumpDraws_istr (s : State) : (s.bumpDraws).istr = s.istr := rfl
@[simp] theorem State.bumpDraws_fnr (s : State) : (s.bumpDraws).fnr = s.fnr := rfl
@[simp] theorem State.bumpDraws_daddr (s : State) : (s.bumpDraws).daddr = s.daddr := rfl
@[simp] theorem State.bumpDraws_btable (s : State) : (s.bumpDraws).btable = s.btable := rfl
@[simp] theorem State.bumpDraws_pma (s : State) : (s.bumpDraws).pma = s.pma := rfl
@[simp] theorem State.bumpDraws_ep (s : State) : (s.bumpDraws).ep = s.ep := rfl
@[simp] theorem State.bumpDraws_rxCap (s : State) : (s.bumpDraws).rxCap = s.rxCap := rfl
@[simp] theorem State.bumpDraws_txCap (s : State) : (s.bumpDraws).txCap = s.txCap := rfl
@[simp] theorem State.bumpDraws_nextFree (s : State) : (s.bumpDraws).nextFree = s.nextFree := rfl
@[simp] theorem State.bumpDraws_maxIndex (s : State) : (s.bumpDraws).maxIndex = s.maxIndex := rfl
@[simp] theorem State.bumpDraws_phase (s : State) : (s.bumpDraws).phase = s.phase := rfl
@[simp] theorem State.bumpDraws_resetCap (s : State) : (s.bumpDraws).resetCap = s.resetCap := rfl
@[simp] theorem State.bumpDraws_pinLevel (s : State) : (s.bumpDraws).pinLevel = s.pinLevel := rfl
@[simp] theorem State.bumpDraws_events (s : State) : (s.bumpDraws).events = s.events := rfl
@[simp] theorem State.bumpDraws_result (s : State) : (s.bumpDraws).result = s.result := rfl
@[simp] theorem State.bumpDraws_program (s : State) : (s.bumpDraws).program = s.program := rfl
@[simp] theorem State.bumpDraws_pos (s : State) : (s.bumpDraws).pos = s.pos := rfl
@[simp] theorem State.bumpDraws_sched (s : State) : (s.bumpDraws).sched = s.sched := rfl
@[simp] theorem State.bumpDraws_draws (s : State) : (s.bumpDraws).draws = s.draws + 1 := rfl

@[simp] theorem State.eprAt_setEpr_same (s : State) (n : Slot) (w : Word) : (s.setEpr n w).eprAt n = w := by
  simp [State.eprAt]

theorem State.eprAt_setEpr_ne (s : State) (n m : Slot) (w : Word) (h : n ≠ m) :
    (s.setEpr n w).eprAt m = s.eprAt m := by
  have h' : (n : Nat) ≠ m := fun e => h (Fin.ext e)
  simp [State.eprAt, h']

theorem State.eprAt_setEpr (s : State) (n m : Slot) (w : Word) :
    (s.setEpr n w).eprAt m = if n = m then w else s.eprAt m := by
  by_cases h : n = m
  · subst h; simp
  · simp [h, State.eprAt_setEpr_ne s n m w h]

@[simp] theorem State.epAt_setEp_same (s : State) (n : Slot) (r : EpRecord) : (s.setEp n r).epAt n = r := by
  simp [State.epAt]

theorem State.epAt_setEp_ne (s : State) (n m : Slot) (r : EpRecord) (h : n ≠ m) :
    (s.setEp n r).epAt m = s.epAt m := by
  have h' : (n : Nat) ≠ m := fun e => h (Fin.ext e)
  simp [State.epAt, h']

theorem State.epAt_setEp (s : State) (n m : Slot) (r : EpRecord) :
    (s.setEp n r).epAt m = if n = m then r else s.epAt m := by
  by_cases h : n = m
  · subst h; simp
  · simp [h, State.epAt_setEp_ne s n m r h]

@[simp] theorem State.txCapAt_setTxCap_same (s : State) (n : Slot) (c : Nat) : (s.setTxCap n c).txCapAt n = c := by
  simp [State.txCapAt]

theorem State.txCapAt_setTxCap_ne (s : State) (n m : Slot) (c : Nat) (h : n ≠ m) :
    (s.setTxCap n c).txCapAt m = s.txCapAt m := by
  have h' : (n : Nat) ≠ m := fun e => h (Fin.ext e)
  simp [State.txCapAt, h']

theorem State.txCapAt_setTxCap (s : State) (n m : Slot) (c : Nat) :
    (s.setTxCap n c).txCapAt m = if n = m then c else s.txCapAt m := by
  by_cases h : n = m
  · subst h; simp
  · simp [h, State.txCapAt_setTxCap_ne s n m c h]

@[simp] theorem State.rxCapAt_setRxCap_same (s : State) (n : Slot) (c : Nat) : (s.setRxCap n c).rxCapAt n = c := by
  simp [State.rxCapAt]

theorem State.rxCapAt_setRxCap_ne (s : State) (n m : Slot) (c : Nat) (h : n ≠ m) :
    (s.setRxCap n c).rxCapAt m = s.rxCapAt m := by
  have h' : (n : Nat) ≠ m := fun e => h (Fin.ext e)
  simp [State.rxCapAt, h']

theorem State.rxCapAt_setRxCap (s : State) (n m : Slot) (c : Nat) :
    (s.setRxCap n c).rxCapAt m = if n = m then c else s.rxCapAt m := by
  by_cases h : n = m
  · subst h; simp
  · simp [h, State.rxCapAt_setRxCap_ne s n m c h]

@[simp] theorem State.epAt_setAllEp (s : State) (r : EpRecord) (n : Slot) : (s.setAllEp r).epAt n = r := by
  simp [State.epAt]

@[simp] theorem State.rxCapAt_setAllRxCap (s : State) (c : Nat) (n : Slot) : (s.setAllRxCap c).rxCapAt n = c := by
  simp [State.rxCapAt]

@[simp] theorem State.txCapAt_setAllTxCap (s : State) (c : Nat) (n : Slot) : (s.setAllTxCap c).txCapAt n = c := by
  simp [State.txCapAt]

@[simp] theorem State.eprAt_setAllEpr (s : State) (w : Word) (n : Slot) : (s.setAllEpr w).eprAt n = w := by
  simp [State.eprAt]

@[simp] theorem State.eprAt_setAllEp (s : State) (r : EpRecord) (i : Slot) : (s.setAllEp r).eprAt i = s.eprAt i := rfl
@[simp] theorem State.eprAt_setAllRxCap (s : State) (c : Nat) (i : Slot) : (s.setAllRxCap c).eprAt i = s.eprAt i := rfl
@[simp] theorem State.eprAt_setAllTxCap (s : State) (c : Nat) (i : Slot) : (s.setAllTxCap c).eprAt i = s.eprAt i := rfl
@[simp] theorem State.eprAt_setCntr (s : State) (w : Word) (i : Slot) : (s.setCntr w).eprAt i = s.eprAt i := rfl
@[simp] theorem State.eprAt_setIstr (s : State) (w : Word) (i : Slot) : (s.setIstr w).eprAt i = s.eprAt i := rfl
@[simp] theorem State.eprAt_setFnr (s : State) (w : Word) (i : Slot) : (s.setFnr w).eprAt i = s.eprAt i := rfl
@[simp] theorem State.eprAt_setDaddr (s : State) (w : Word) (i : Slot) : (s.setDaddr w).eprAt i = s.eprAt i := rfl
@[simp] theorem State.eprAt_setBtable (s : State) (w : Word) (i : Slot) : (s.setBtable w).eprAt i = s.eprAt i := rfl
@[simp] theorem State.eprAt_setPma (s : State) (m : List Host.Cell) (i : Slot) : (s.setPma m).eprAt i = s.eprAt i := rfl
@[simp] theorem State.eprAt_setEp (s : State) (n : Slot) (r : EpRecord) (i : Slot) : (s.setEp n r).eprAt i = s.eprAt i := rfl
@[simp] theorem State.eprAt_setRxCap (s : State) (n : Slot) (c : Nat) (i : Slot) : (s.setRxCap n c).eprAt i = s.eprAt i := rfl
@[simp] theorem State.eprAt_setTxCap (s : State) (n : Slot) (c : Nat) (i : Slot) : (s.setTxCap n c).eprAt i = s.eprAt i := rfl
@[simp] theorem State.eprAt_setNextFree (s : State) (off : Nat) (i : Slot) : (s.setNextFree off).eprAt i = s.eprAt i := rfl
@[simp] theorem State.eprAt_setMaxIndex (s : State) (n : Slot) (i : Slot) : (s.setMaxIndex n).eprAt i = s.eprAt i := rfl
@[simp] theorem State.eprAt_setPhase (s : State) (p : Phase) (i : Slot) : (s.setPhase p).eprAt i = s.eprAt i := rfl
@[simp] theorem State.eprAt_setResetCap (s : State) (c : Option ResetCap) (i : Slot) : (s.setResetCap c).eprAt i = s.eprAt i := rfl
@[simp] theorem State.eprAt_setPinLevel (s : State) (l : PinLevel) (i : Slot) : (s.setPinLevel l).eprAt i = s.eprAt i := rfl
@[simp] theorem State.eprAt_pushEvent (s : State) (e : HostEvent) (i : Slot) : (s.pushEvent e).eprAt i = s.eprAt i := rfl
@[simp] theorem State.eprAt_setResult (s : State) (r : Result) (i : Slot) : (s.setResult r).eprAt i = s.eprAt i := rfl
@[simp] theorem State.eprAt_setProgram (s : State) (p : List Encoded) (i : Slot) : (s.setProgram p).eprAt i = s.eprAt i := rfl
@[simp] theorem State.eprAt_setPos (s : State) (p : Nat) (i : Slot) : (s.setPos p).eprAt i = s.eprAt i := rfl
@[simp] theorem State.eprAt_setSched (s : State) (l : List (List BusStep)) (i : Slot) : (s.setSched l).eprAt i = s.eprAt i := rfl
@[simp] theorem State.eprAt_bumpDraws (s : State) (i : Slot) : (s.bumpDraws).eprAt i = s.eprAt i := rfl

@[simp] theorem State.epAt_setEpr (s : State) (n : Slot) (w : Word) (i : Slot) : (s.setEpr n w).epAt i = s.epAt i := rfl
@[simp] theorem State.epAt_setAllRxCap (s : State) (c : Nat) (i : Slot) : (s.setAllRxCap c).epAt i = s.epAt i := rfl
@[simp] theorem State.epAt_setAllTxCap (s : State) (c : Nat) (i : Slot) : (s.setAllTxCap c).epAt i = s.epAt i := rfl
@[simp] theorem State.epAt_setAllEpr (s : State) (w : Word) (i : Slot) : (s.setAllEpr w).epAt i = s.epAt i := rfl
@[simp] theorem State.epAt_setCntr (s : State) (w : Word) (i : Slot) : (s.setCntr w).epAt i = s.epAt i := rfl
@[simp] theorem State.epAt_setIstr (s : State) (w : Word) (i : Slot) : (s.setIstr w).epAt i = s.epAt i := rfl
@[simp] theorem State.epAt_setFnr (s : State) (w : Word) (i : Slot) : (s.setFnr w).epAt i = s.epAt i := rfl
@[simp] theorem State.epAt_setDaddr (s : State) (w : Word) (i : Slot) : (s.setDaddr w).epAt i = s.epAt i := rfl
@[simp] theorem State.epAt_setBtable (s : State) (w : Word) (i : Slot) : (s.setBtable w).epAt i = s.epAt i := rfl
@[simp] theorem State.epAt_setPma (s : State) (m : List Host.Cell) (i : Slot) : (s.setPma m).epAt i = s.epAt i := rfl
@[simp] theorem State.epAt_setRxCap (s : State) (n : Slot) (c : Nat) (i : Slot) : (s.setRxCap n c).epAt i = s.epAt i := rfl
@[simp] theorem State.epAt_setTxCap (s : State) (n : Slot) (c : Nat) (i : Slot) : (s.setTxCap n c).epAt i = s.epAt i := rfl
@[simp] theorem State.epAt_setNextFree (s : State) (off : Nat) (i : Slot) : (s.setNextFree off).epAt i = s.epAt i := rfl
@[simp] theorem State.epAt_setMaxIndex (s : State) (n : Slot) (i : Slot) : (s.setMaxIndex n).epAt i = s.epAt i := rfl
@[simp] theorem State.epAt_setPhase (s : State) (p : Phase) (i : Slot) : (s.setPhase p).epAt i = s.epAt i := rfl
@[simp] theorem State.epAt_setResetCap (s : State) (c : Option ResetCap) (i : Slot) : (s.setResetCap c).epAt i = s.epAt i := rfl
@[simp] theorem State.epAt_setPinLevel (s : State) (l : PinLevel) (i : Slot) : (s.setPinLevel l).epAt i = s.epAt i := rfl
@[simp] theorem State.epAt_pushEvent (s : State) (e : HostEvent) (i : Slot) : (s.pushEvent e).epAt i = s.epAt i := rfl
@[simp] theorem State.epAt_setResult (s : State) (r : Result) (i : Slot) : (s.setResult r).epAt i = s.epAt i := rfl
@[simp] theorem State.epAt_setProgram (s : State) (p : List Encoded) (i : Slot) : (s.setProgram p).epAt i = s.epAt i := rfl
@[simp] theorem State.epAt_setPos (s : State) (p : Nat) (i : Slot) : (s.setPos p).epAt i = s.epAt i := rfl
@[simp] theorem State.epAt_setSched (s : State) (l : List (List BusStep)) (i : Slot) : (s.setSched l).epAt i = s.epAt i := rfl
@[simp] theorem State.epAt_bumpDraws (s : State) (i : Slot) : (s.bumpDraws).epAt i = s.epAt i := rfl

@[simp] theorem State.txCapAt_setEpr (s : State) (n : Slot) (w : Word) (i : Slot) : (s.setEpr n w).txCapAt i = s.txCapAt i := rfl
@[simp] theorem State.txCapAt_setAllEp (s : State) (r : EpRecord) (i : Slot) : (s.setAllEp r).txCapAt i = s.txCapAt i := rfl
@[simp] theorem State.txCapAt_setAllRxCap (s : State) (c : Nat) (i : Slot) : (s.setAllRxCap c).txCapAt i = s.txCapAt i := rfl
@[simp] theorem State.txCapAt_setAllEpr (s : State) (w : Word) (i : Slot) : (s.setAllEpr w).txCapAt i = s.txCapAt i := rfl
@[simp] theorem State.txCapAt_setCntr (s : State) (w : Word) (i : Slot) : (s.setCntr w).txCapAt i = s.txCapAt i := rfl
@[simp] theorem State.txCapAt_setIstr (s : State) (w : Word) (i : Slot) : (s.setIstr w).txCapAt i = s.txCapAt i := rfl
@[simp] theorem State.txCapAt_setFnr (s : State) (w : Word) (i : Slot) : (s.setFnr w).txCapAt i = s.txCapAt i := rfl
@[simp] theorem State.txCapAt_setDaddr (s : State) (w : Word) (i : Slot) : (s.setDaddr w).txCapAt i = s.txCapAt i := rfl
@[simp] theorem State.txCapAt_setBtable (s : State) (w : Word) (i : Slot) : (s.setBtable w).txCapAt i = s.txCapAt i := rfl
@[simp] theorem State.txCapAt_setPma (s : State) (m : List Host.Cell) (i : Slot) : (s.setPma m).txCapAt i = s.txCapAt i := rfl
@[simp] theorem State.txCapAt_setEp (s : State) (n : Slot) (r : EpRecord) (i : Slot) : (s.setEp n r).txCapAt i = s.txCapAt i := rfl
@[simp] theorem State.txCapAt_setRxCap (s : State) (n : Slot) (c : Nat) (i : Slot) : (s.setRxCap n c).txCapAt i = s.txCapAt i := rfl
@[simp] theorem State.txCapAt_setNextFree (s : State) (off : Nat) (i : Slot) : (s.setNextFree off).txCapAt i = s.txCapAt i := rfl
@[simp] theorem State.txCapAt_setMaxIndex (s : State) (n : Slot) (i : Slot) : (s.setMaxIndex n).txCapAt i = s.txCapAt i := rfl
@[simp] theorem State.txCapAt_setPhase (s : State) (p : Phase) (i : Slot) : (s.setPhase p).txCapAt i = s.txCapAt i := rfl
@[simp] theorem State.txCapAt_setResetCap (s : State) (c : Option ResetCap) (i : Slot) : (s.setResetCap c).txCapAt i = s.txCapAt i := rfl
@[simp] theorem State.txCapAt_setPinLevel (s : State) (l : PinLevel) (i : Slot) : (s.setPinLevel l).txCapAt i = s.txCapAt i := rfl
@[simp] theorem State.txCapAt_pushEvent (s : State) (e : HostEvent) (i : Slot) : (s.pushEvent e).txCapAt i = s.txCapAt i := rfl
@[simp] theorem State.txCapAt_setResult (s : State) (r : Result) (i : Slot) : (s.setResult r).txCapAt i = s.txCapAt i := rfl
@[simp] theorem State.txCapAt_setProgram (s : State) (p : List Encoded) (i : Slot) : (s.setProgram p).txCapAt i = s.txCapAt i := rfl
@[simp] theorem State.txCapAt_setPos (s : State) (p : Nat) (i : Slot) : (s.setPos p).txCapAt i = s.txCapAt i := rfl
@[simp] theorem State.txCapAt_setSched (s : State) (l : List (List BusStep)) (i : Slot) : (s.setSched l).txCapAt i = s.txCapAt i := rfl
@[simp] theorem State.txCapAt_bumpDraws (s : State) (i : Slot) : (s.bumpDraws).txCapAt i = s.txCapAt i := rfl

@[simp] theorem State.rxCapAt_setEpr (s : State) (n : Slot) (w : Word) (i : Slot) : (s.setEpr n w).rxCapAt i = s.rxCapAt i := rfl
@[simp] theorem State.rxCapAt_setAllEp (s : State) (r : EpRecord) (i : Slot) : (s.setAllEp r).rxCapAt i = s.rxCapAt i := rfl
@[simp] theorem State.rxCapAt_setAllTxCap (s : State) (c : Nat) (i : Slot) : (s.setAllTxCap c).rxCapAt i = s.rxCapAt i := rfl
@[simp] theorem State.rxCapAt_setAllEpr (s : State) (w : Word) (i : Slot) : (s.setAllEpr w).rxCapAt i = s.rxCapAt i := rfl
@[simp] theorem State.rxCapAt_setCntr (s : State) (w : Word) (i : Slot) : (s.setCntr w).rxCapAt i = s.rxCapAt i := rfl
@[simp] theorem State.rxCapAt_setIstr (s : State) (w : Word) (i : Slot) : (s.setIstr w).rxCapAt i = s.rxCapAt i := rfl
@[simp] theorem State.rxCapAt_setFnr (s : State) (w : Word) (i : Slot) : (s.setFnr w).rxCapAt i = s.rxCapAt i := rfl
@[simp] theorem State.rxCapAt_setDaddr (s : State) (w : Word) (i : Slot) : (s.setDaddr w).rxCapAt i = s.rxCapAt i := rfl
@[simp] theorem State.rxCapAt_setBtable (s : State) (w : Word) (i : Slot) : (s.setBtable w).rxCapAt i = s.rxCapAt i := rfl
@[simp] theorem State.rxCapAt_setPma (s : State) (m : List Host.Cell) (i : Slot) : (s.setPma m).rxCapAt i = s.rxCapAt i := rfl
@[simp] theorem State.rxCapAt_setEp (s : State) (n : Slot) (r : EpRecord) (i : Slot) : (s.setEp n r).rxCapAt i = s.rxCapAt i := rfl
@[simp] theorem State.rxCapAt_setTxCap (s : State) (n : Slot) (c : Nat) (i : Slot) : (s.setTxCap n c).rxCapAt i = s.rxCapAt i := rfl
@[simp] theorem State.rxCapAt_setNextFree (s : State) (off : Nat) (i : Slot) : (s.setNextFree off).rxCapAt i = s.rxCapAt i := rfl
@[simp] theorem State.rxCapAt_setMaxIndex (s : State) (n : Slot) (i : Slot) : (s.setMaxIndex n).rxCapAt i = s.rxCapAt i := rfl
@[simp] theorem State.rxCapAt_setPhase (s : State) (p : Phase) (i : Slot) : (s.setPhase p).rxCapAt i = s.rxCapAt i := rfl
@[simp] theorem State.rxCapAt_setResetCap (s : State) (c : Option ResetCap) (i : Slot) : (s.setResetCap c).rxCapAt i = s.rxCapAt i := rfl
@[simp] theorem State.rxCapAt_setPinLevel (s : State) (l : PinLevel) (i : Slot) : (s.setPinLevel l).rxCapAt i = s.rxCapAt i := rfl
@[simp] theorem State.rxCapAt_pushEvent (s : State) (e : HostEvent) (i : Slot) : (s.pushEvent e).rxCapAt i = s.rxCapAt i := rfl
@[simp] theorem State.rxCapAt_setResult (s : State) (r : Result) (i : Slot) : (s.setResult r).rxCapAt i = s.rxCapAt i := rfl
@[simp] theorem State.rxCapAt_setProgram (s : State) (p : List Encoded) (i : Slot) : (s.setProgram p).rxCapAt i = s.rxCapAt i := rfl
@[simp] theorem State.rxCapAt_setPos (s : State) (p : Nat) (i : Slot) : (s.setPos p).rxCapAt i = s.rxCapAt i := rfl
@[simp] theorem State.rxCapAt_setSched (s : State) (l : List (List BusStep)) (i : Slot) : (s.setSched l).rxCapAt i = s.rxCapAt i := rfl
@[simp] theorem State.rxCapAt_bumpDraws (s : State) (i : Slot) : (s.bumpDraws).rxCapAt i = s.rxCapAt i := rfl

/-- Writing the value an EPR already holds changes nothing. -/
theorem State.setEpr_self (s : State) (n : Slot) (w : Word) (h : s.eprAt n = w) : s.setEpr n w = s := by
  subst h; simp [State.setEpr, State.eprAt]

/-- The last of two writes to one EPR is the one that counts. -/
theorem State.setEpr_setEpr (s : State) (n : Slot) (w v : Word) : (s.setEpr n w).setEpr n v = s.setEpr n v := by
  simp [State.setEpr]

/-- Endpoint registers that agree at every slot are one register file. -/
theorem State.epr_ext (s t : State) (h : ∀ n : Slot, s.eprAt n = t.eprAt n) : s.epr = t.epr := by
  apply Vector.ext
  intro i hi
  exact h ⟨i, hi⟩

end Sys2Proof.Machine
end

