-- ==== Sys2Proof/Laws/Ops.lean ====
section
/-! SUPPORT. Laws of how an operation ends, of the driver's accesses and of the lookups: what each can answer, said once. -/

namespace Sys2Proof.Machine

/-! ## How an operation ends -/

@[simp] theorem Act.andThen_done {α β : Type} (v : α) (s : State) (k : α → State → Act β) :
    (Act.done v s).andThen k = k v s := rfl
@[simp] theorem Act.andThen_fault {α β : Type} (f : Fault) (k : α → State → Act β) :
    (Act.fault f : Act α).andThen k = .fault f := rfl
@[simp] theorem Act.andThen_refused {α β : Type} (r : Refusal) (k : α → State → Act β) :
    (Act.refused r : Act α).andThen k = .refused r := rfl
@[simp] theorem Act.ofExcept_ok {α : Type} (v : α) (s : State) : Act.ofExcept (.ok v) s = .done v s := rfl
@[simp] theorem Act.ofExcept_error {α : Type} (f : Fault) (s : State) : (Act.ofExcept (.error f) s : Act α) = .fault f := rfl
@[simp] theorem Act.returning_done (v : Result) (s : State) : (Act.done v s).returning = .next (s.setResult v) := rfl
@[simp] theorem Act.returning_fault (f : Fault) : (Act.fault f).returning = .fault f := rfl
@[simp] theorem Act.returning_refused (r : Refusal) : (Act.refused r).returning = .refused r := rfl
@[simp] theorem Act.returningUnit_done (v : Unit) (s : State) :
    (Act.done v s).returningUnit = .next (s.setResult .unit) := rfl
@[simp] theorem Act.returningUnit_fault (f : Fault) : (Act.fault f).returningUnit = .fault f := rfl
@[simp] theorem Act.returningUnit_refused (r : Refusal) : (Act.refused r).returningUnit = .refused r := rfl
@[simp] theorem Act.silent_done (v : Unit) (s : State) : (Act.done v s).silent = .next s := rfl
@[simp] theorem Act.silent_fault (f : Fault) : (Act.fault f).silent = .fault f := rfl
@[simp] theorem Act.silent_refused (r : Refusal) : (Act.refused r).silent = .refused r := rfl
@[simp] theorem advanced_next (s : State) : advanced (.next s) = .next s.advance := rfl
@[simp] theorem advanced_fault (f : Fault) : advanced (.fault f) = .fault f := rfl
@[simp] theorem advanced_refused (r : Refusal) : advanced (.refused r) = .refused r := rfl

theorem Act.andThen_assoc {α β γ : Type} (a : Act α) (k : α → State → Act β) (l : β → State → Act γ) :
    (a.andThen k).andThen l = a.andThen fun v s => (k v s).andThen l := by
  cases a <;> rfl

/-- A sequence ends with a value exactly when its first part does and its second part does from there. -/
theorem Act.andThen_eq_done {α β : Type} {a : Act α} {k : α → State → Act β} {v : β} {t : State} :
    a.andThen k = .done v t ↔ ∃ u s, a = .done u s ∧ k u s = .done v t := by
  cases a <;> simp

theorem Act.returning_eq_next {a : Act Result} {t : State} :
    a.returning = .next t ↔ ∃ v s, a = .done v s ∧ t = s.setResult v := by
  cases a <;> simp [eq_comm]

theorem Act.returningUnit_eq_next {a : Act Unit} {t : State} :
    a.returningUnit = .next t ↔ ∃ s, a = .done () s ∧ t = s.setResult .unit := by
  cases a <;> simp [eq_comm]

theorem Act.silent_eq_next {a : Act Unit} {t : State} : a.silent = .next t ↔ a = .done () t := by
  cases a <;> simp

theorem advanced_eq_next {o : Host.Outcome State Fault Refusal} {t : State} :
    advanced o = .next t ↔ ∃ s, o = .next s ∧ t = s.advance := by
  cases o <;> simp [advanced, eq_comm]

/-! ## What holds of the state a part ends in -/

/-- Whenever the part ends with a value, the state it ends in has the property. -/
def Act.Leaves {α : Type} (a : Act α) (P : State → Prop) : Prop := ∀ v t, a = .done v t → P t

theorem Act.leaves_done {α : Type} {v : α} {s : State} {P : State → Prop} (h : P s) : (Act.done v s).Leaves P := by
  intro u t e; cases e; exact h

theorem Act.leaves_fault {α : Type} {f : Fault} {P : State → Prop} : (Act.fault f : Act α).Leaves P := by
  intro u t e; cases e

theorem Act.leaves_refused {α : Type} {r : Refusal} {P : State → Prop} : (Act.refused r : Act α).Leaves P := by
  intro u t e; cases e

theorem Act.leaves_ofExcept {α : Type} {x : Except Fault α} {s : State} {P : State → Prop} (h : P s) :
    (Act.ofExcept x s).Leaves P := by
  cases x
  · exact leaves_fault
  · exact leaves_done h

theorem Act.leaves_andThen {α β : Type} {a : Act α} {k : α → State → Act β} {P Q : State → Prop}
    (ha : a.Leaves P) (hk : ∀ v s, P s → (k v s).Leaves Q) : (a.andThen k).Leaves Q := by
  intro v t e
  obtain ⟨u, s, e1, e2⟩ := andThen_eq_done.mp e
  exact hk u s (ha u s e1) v t e2

theorem Act.leaves_mono {α : Type} {a : Act α} {P Q : State → Prop} (ha : a.Leaves P) (h : ∀ s, P s → Q s) :
    a.Leaves Q := fun v t e => h t (ha v t e)

theorem Act.leaves_onSlot {α : Type} {n : Nat} {f : Fault} {k : Slot → Act α} {P : State → Prop}
    (h : ∀ i, (k i).Leaves P) : (onSlot n f k).Leaves P := by
  unfold onSlot
  split
  · exact h _
  · exact leaves_fault

/-! ## Slots -/

@[simp] theorem slotOf_val (i : Slot) : slotOf (i : Nat) = some i := by
  simp [slotOf]

theorem slotOf_eq_some {n : Nat} {i : Slot} : slotOf n = some i ↔ n = i := by
  unfold slotOf
  split
  · simp [Fin.ext_iff]
  · rename_i h
    simp only [reduceCtorEq, false_iff]
    intro e; exact h (e ▸ i.isLt)

theorem slotOf_eq_none {n : Nat} : slotOf n = none ↔ Config.nEp ≤ n := by
  unfold slotOf
  split <;> simp <;> omega

@[simp] theorem onSlot_val {α : Type} (i : Slot) (f : Fault) (k : Slot → Act α) : onSlot (i : Nat) f k = k i := by
  simp [onSlot]

theorem onSlot_of_ge {α : Type} {n : Nat} (h : Config.nEp ≤ n) (f : Fault) (k : Slot → Act α) :
    onSlot n f k = .fault f := by
  simp [onSlot, slotOf_eq_none.mpr h]

theorem mem_allSlots (i : Slot) : i ∈ allSlots := by
  revert i; decide

/-! ## The interrupt flags -/

/-- The summary flag CTR looks at the endpoint registers only (R42). -/
theorem State.anyCtr_congr {s t : State} (h : t.epr = s.epr) : t.anyCtr = s.anyCtr := by
  unfold State.anyCtr State.eprAt
  rw [h]

/-! ## The driver's accesses -/

/-- With no bus step placed before the next access, nothing falls before it. -/
theorem interleave_undisturbed {s : State} (h : s.sched = []) : interleave s = .done () s := by
  simp [interleave, h]

theorem regRead_undisturbed {s : State} (h : s.sched = []) (r : Reg) :
    regRead r s = .done (s.regValue r) (s.afterRead r) := by
  simp [regRead, interleave_undisturbed h]

theorem regWrite_undisturbed {s : State} (h : s.sched = []) (r : Reg) (w : Word) :
    regWrite r w s = .done () (s.storeReg r w) := by
  simp [regWrite, interleave_undisturbed h]

theorem istrRead_undisturbed {s : State} (h : s.sched = []) : istrRead s = .done s.istrFlags s.bumpDraws := by
  simp [istrRead, interleave_undisturbed h, State.afterRead]

theorem fnrReadDp_undisturbed {s : State} (h : s.sched = []) : fnrReadDp s = .done s.rxdp s.bumpDraws := by
  simp [fnrReadDp, interleave_undisturbed h, State.afterRead]

theorem memRead_undisturbed {s : State} (h : s.sched = []) (off : Nat) :
    memRead off s = Act.ofExcept (pmaWord s.pma off) s := by
  simp [memRead, interleave_undisturbed h]

theorem memWrite_undisturbed {s : State} (h : s.sched = []) (off : Nat) (w : Word) :
    memWrite off w s = (Act.ofExcept (pmaStore s.pma off w) s).andThen fun m s => .done () (s.setPma m) := by
  simp [memWrite, interleave_undisturbed h]

@[simp] theorem State.storeReg_sched (s : State) (r : Reg) (w : Word) : (s.storeReg r w).sched = s.sched := by
  cases r <;> rfl

@[simp] theorem State.afterRead_epr (s : State) (n : Slot) : s.afterRead (.epr n) = s := rfl
@[simp] theorem State.afterRead_cntr (s : State) : s.afterRead .cntr = s := rfl
@[simp] theorem State.afterRead_daddr (s : State) : s.afterRead .daddr = s := rfl
@[simp] theorem State.afterRead_btable (s : State) : s.afterRead .btable = s := rfl

/-- An endpoint register read with no bus step before it. -/
theorem regRead_epr_undisturbed {s : State} (h : s.sched = []) (n : Slot) :
    regRead (.epr n) s = .done (s.eprAt n) s := regRead_undisturbed h _

/-- A word access that succeeds: the offset is even, the word lies inside packet memory (R84). -/
theorem pmaWord_eq_ok {m : Memory} {off : Nat} {w : Option Byte × Option Byte} :
    pmaWord m off = .ok w ↔
      off % 2 = 0 ∧ off + 2 ≤ Config.pmaSize ∧ w = (Memory.byte m off, Memory.byte m (off + 1)) := by
  unfold pmaWord
  split
  · simp; omega
  · split
    · simp; omega
    · simp only [Except.ok.injEq, eq_comm (b := w)]
      constructor
      · intro h; exact ⟨by omega, by omega, h⟩
      · intro h; exact h.2.2

theorem pmaStore_eq_ok {m m' : Memory} {off : Nat} {w : Word} :
    pmaStore m off w = .ok m' ↔ off % 2 = 0 ∧ off + 2 ≤ Config.pmaSize ∧ m' = putPmaWord m off w := by
  unfold pmaStore
  split
  · simp; omega
  · split
    · simp; omega
    · simp only [Except.ok.injEq, eq_comm (b := m')]
      constructor
      · intro h; exact ⟨by omega, by omega, h⟩
      · intro h; exact h.2.2

theorem definedWord_eq_ok {x : Option Byte × Option Byte} {w : Word} :
    definedWord x = .ok w ↔ ∃ lo hi, x = (some lo, some hi) ∧ w = wordOfBytes lo hi := by
  obtain ⟨a, b⟩ := x
  cases a <;> cases b <;> simp [definedWord, eq_comm]

/-- The bits of the word two bytes make (R82). -/
theorem getLsbD_wordOfBytes (lo hi : Byte) (i : Nat) :
    (wordOfBytes lo hi).getLsbD i = if i < 8 then lo.getLsbD i else hi.getLsbD (i - 8) :=
  BitVec.getLsbD_append

/-- A word read back from the two bytes it was stored as (R82). -/
@[simp] theorem wordOfBytes_low_high (w : Word) : wordOfBytes (lowByte w) (highByte w) = w := by
  apply BitVec.eq_of_getLsbD_eq
  intro i hi
  rw [getLsbD_wordOfBytes]
  split
  · rename_i h
    simp [lowByte, h]
  · have h8 : i - 8 < 8 := by omega
    have e : 8 + (i - 8) = i := by omega
    simp [highByte, h8, e]

@[simp] theorem lowByte_wordOfBytes (lo hi : Byte) : lowByte (wordOfBytes lo hi) = lo := by
  apply BitVec.eq_of_getLsbD_eq
  intro i h
  simp [lowByte, h, getLsbD_wordOfBytes]

@[simp] theorem highByte_wordOfBytes (lo hi : Byte) : highByte (wordOfBytes lo hi) = hi := by
  apply BitVec.eq_of_getLsbD_eq
  intro i h
  simp [highByte, h, getLsbD_wordOfBytes]

/-! ## What an access leaves, under any interleaving -/

/-- What every bus step keeps, every part of an operation's boundary keeps. -/
theorem leaves_runBus {P : State → Prop} (hP : ∀ b s, P s → (busStep b s).Leaves P) (bs : List BusStep) (s : State)
    (h : P s) : (runBus bs s).Leaves P := by
  induction bs generalizing s with
  | nil => exact Act.leaves_done h
  | cons b bs ih => exact Act.leaves_andThen (hP b s h) fun _ t ht => ih t ht

theorem leaves_interleave {P : State → Prop} (hS : ∀ s l, P s → P (s.setSched l))
    (hP : ∀ b s, P s → (busStep b s).Leaves P) (s : State) (h : P s) : (interleave s).Leaves P := by
  unfold interleave
  split
  · exact Act.leaves_done h
  · exact leaves_runBus hP _ _ (hS _ _ h)

theorem leaves_regRead {P Q : State → Prop} {s : State} (r : Reg) (hi : (interleave s).Leaves P)
    (hQ : ∀ t, P t → Q (t.afterRead r)) : (regRead r s).Leaves Q :=
  Act.leaves_andThen hi fun _ t ht => Act.leaves_done (hQ t ht)

theorem leaves_regWrite {P Q : State → Prop} {s : State} (r : Reg) (w : Word) (hi : (interleave s).Leaves P)
    (hQ : ∀ t, P t → Q (t.storeReg r w)) : (regWrite r w s).Leaves Q :=
  Act.leaves_andThen hi fun _ t ht => Act.leaves_done (hQ t ht)

theorem leaves_istrRead {P Q : State → Prop} {s : State} (hi : (interleave s).Leaves P)
    (hQ : ∀ t, P t → Q t.bumpDraws) : (istrRead s).Leaves Q :=
  Act.leaves_andThen hi fun _ t ht => Act.leaves_done (hQ t ht)

theorem leaves_fnrReadDp {P Q : State → Prop} {s : State} (hi : (interleave s).Leaves P)
    (hQ : ∀ t, P t → Q t.bumpDraws) : (fnrReadDp s).Leaves Q :=
  Act.leaves_andThen hi fun _ t ht => Act.leaves_done (hQ t ht)

theorem leaves_memRead {P : State → Prop} {s : State} (off : Nat) (hi : (interleave s).Leaves P) :
    (memRead off s).Leaves P :=
  Act.leaves_andThen hi fun _ _ ht => Act.leaves_ofExcept ht

theorem leaves_memWrite {P Q : State → Prop} {s : State} (off : Nat) (w : Word) (hi : (interleave s).Leaves P)
    (hQ : ∀ t, P t → off + 2 ≤ Config.pmaSize → Q (t.setPma (putPmaWord t.pma off w))) : (memWrite off w s).Leaves Q := by
  refine Act.leaves_andThen hi fun _ t ht => ?_
  intro v u e
  obtain ⟨m, t', e1, e2⟩ := Act.andThen_eq_done.mp e
  cases hx : pmaStore t.pma off w with
  | error f => simp [hx] at e1
  | ok m' =>
    simp only [hx, Act.ofExcept_ok, Act.done.injEq] at e1 e2
    obtain ⟨rfl, rfl⟩ := e1
    obtain ⟨-, hr, rfl⟩ := pmaStore_eq_ok.mp hx
    rw [← e2.2]
    exact hQ t ht hr

end Sys2Proof.Machine
end

