-- ==== Sys2Proof/Laws/Bus.lean ====
section
/-! SUPPORT. Laws of the bus engine: which fields a bus step can change, what an accepted packet and a sent packet do, and
what carries over to every access of the driver that bus steps may precede. -/

namespace Sys2Proof.Machine

/-- Two states agree on everything the bus engine does not reach: the driver's records, BTABLE, the reset capability and
pin, the caller's result and the program (R81). -/
structure SameDriver (s t : State) : Prop where
  btable : t.btable = s.btable
  ep : t.ep = s.ep
  rxCap : t.rxCap = s.rxCap
  txCap : t.txCap = s.txCap
  nextFree : t.nextFree = s.nextFree
  maxIndex : t.maxIndex = s.maxIndex
  phase : t.phase = s.phase
  resetCap : t.resetCap = s.resetCap
  pinLevel : t.pinLevel = s.pinLevel
  result : t.result = s.result
  program : t.program = s.program
  pos : t.pos = s.pos
  draws : t.draws = s.draws

theorem SameDriver.refl (s : State) : SameDriver s s := by constructor <;> rfl

theorem SameDriver.trans {s t u : State} (h : SameDriver s t) (k : SameDriver t u) : SameDriver s u := by
  constructor
  · rw [k.btable, h.btable]
  · rw [k.ep, h.ep]
  · rw [k.rxCap, h.rxCap]
  · rw [k.txCap, h.txCap]
  · rw [k.nextFree, h.nextFree]
  · rw [k.maxIndex, h.maxIndex]
  · rw [k.phase, h.phase]
  · rw [k.resetCap, h.resetCap]
  · rw [k.pinLevel, h.pinLevel]
  · rw [k.result, h.result]
  · rw [k.program, h.program]
  · rw [k.pos, h.pos]
  · rw [k.draws, h.draws]

/-! ## Inversion: what a reception and a transmission do -/

/-- A descriptor word read by the bus engine: an even offset inside packet memory, both bytes defined. -/
theorem busBd_eq_ok {s : State} {n : Slot} {f : BdField} {w : Word} :
    s.busBd n f = .ok w ↔
      bdOffset s.btable.toNat n f % 2 = 0 ∧ bdOffset s.btable.toNat n f + 2 ≤ Config.pmaSize ∧
      ∃ lo hi, Memory.byte s.pma (bdOffset s.btable.toNat n f) = some lo ∧
        Memory.byte s.pma (bdOffset s.btable.toNat n f + 1) = some hi ∧ w = wordOfBytes lo hi := by
  unfold State.busBd
  cases h : pmaWord s.pma (bdOffset s.btable.toNat n f) with
  | error e =>
    simp only [reduceCtorEq, false_iff]
    rintro ⟨h1, h2, -⟩
    rw [pmaWord_eq_ok.mpr ⟨h1, h2, rfl⟩] at h
    cases h
  | ok x =>
    obtain ⟨h1, h2, rfl⟩ := pmaWord_eq_ok.mp h
    simp only [definedWord_eq_ok, Prod.mk.injEq]
    constructor
    · rintro ⟨lo, hi, ⟨e1, e2⟩, rfl⟩; exact ⟨h1, h2, lo, hi, e1, e2, rfl⟩
    · rintro ⟨-, -, lo, hi, e1, e2, rfl⟩; exact ⟨lo, hi, ⟨e1, e2⟩, rfl⟩

/-- Packet memory after a reception (R304). -/
def receivedPma (s : State) (n : Slot) (data : List Byte) (cnt a : Word) : Memory :=
  putPmaWord
    (Memory.eraseAll (Memory.putAll s.pma (bufferOffset a) data) (bufferOffset a + data.length)
      (capacity cnt - data.length))
    (bdOffset s.btable.toNat n .countRx) (withCount cnt data.length)

/-- An accepted packet: it fits the declared capacity and the buffer lies in packet memory (R304, R308). -/
theorem receive_eq_done {n : Slot} {data : List Byte} {cnt : Word} {after : Word → Word} {s t : State} :
    receive n data cnt after s = .done () t ↔
      data.length ≤ capacity cnt ∧ ∃ a, s.busBd n .addrRx = .ok a ∧ bufferOffset a + capacity cnt ≤ Config.pmaSize ∧
        t = ((s.setPma (receivedPma s n data cnt a)).setEpr n (after (s.eprAt n))).answer n .out .ack := by
  unfold receive
  split
  · simp; omega
  · cases h : s.busBd n .addrRx with
    | error f => simp
    | ok a =>
      simp only [Except.ok.injEq, exists_eq_left']
      split
      · simp; omega
      · simp only [Act.done.injEq, true_and, receivedPma]
        constructor
        · intro e; exact ⟨by omega, by omega, e.symm⟩
        · intro e; exact e.2.2.symm

theorem withCapacity_eq_done {n : Slot} {s t : State} {k : Word → Act Unit} :
    withCapacity n s k = .done () t ↔ ∃ cnt, s.busBd n .countRx = .ok cnt ∧ capacity cnt ≠ 0 ∧ k cnt = .done () t := by
  unfold withCapacity
  cases s.busBd n .countRx with
  | error f => simp
  | ok cnt => by_cases h : capacity cnt = 0 <;> simp [h]

/-- A packet sent to the host (R306). -/
theorem transmit_eq_done {n : Slot} {acked : Bool} {s t : State} :
    transmit n acked s = .done () t ↔
      ∃ c a, s.busBd n .countTx = .ok c ∧ s.busBd n .addrTx = .ok a ∧
        (countField c ≠ 0 → bufferOffset a + countField c ≤ Config.pmaSize) ∧
        t = if acked then
              (((s.pushEvent (.sent n (Memory.bytes s.pma (bufferOffset a) (countField c)))).setEpr n
                (eprAfterIn (s.eprAt n))).answer n .inn .ack)
            else ((s.pushEvent (.sent n (Memory.bytes s.pma (bufferOffset a) (countField c)))).answer n .inn .none) := by
  unfold transmit
  cases hc : s.busBd n .countTx with
  | error f => simp
  | ok c =>
    cases ha : s.busBd n .addrTx with
    | error f => simp
    | ok a =>
      have hiff : (countField c ≠ 0 ∧ bufferOffset a + countField c > Config.pmaSize) ↔
          ¬ (countField c ≠ 0 → bufferOffset a + countField c ≤ Config.pmaSize) := by
        constructor
        · rintro ⟨h1, h2⟩ h; have := h h1; omega
        · intro h; constructor
          · intro h0; exact h fun h1 => absurd h0 h1
          · by_contra hn; exact h fun _ => by omega
      constructor
      · intro e
        simp only [hiff] at e
        split at e
        · cases e
        · rename_i h
          refine ⟨c, a, rfl, rfl, Classical.not_not.mp h, ?_⟩
          cases acked <;> simpa [eq_comm] using e
      · rintro ⟨c', a', hc', ha', h, rfl⟩
        cases hc'; cases ha'
        simp only [hiff]
        rw [if_neg (Classical.not_not.mpr h)]
        cases acked <;> rfl

theorem transaction_eq_done {e : BitVec 4} {s t : State} {k : Slot → Act Unit} :
    transaction e s k = .done () t ↔
      (s.answering = false ∧ t = s) ∨ (s.answering = true ∧ s.route e = none ∧ t = s) ∨
      (s.answering = true ∧ ∃ n, s.route e = some n ∧ typeOf (s.eprAt n) ≠ .isochronous ∧ k n = .done () t) := by
  unfold transaction
  cases s.answering with
  | false => simp [eq_comm]
  | true =>
    cases s.route e with
    | none => simp [eq_comm]
    | some n => by_cases h : typeOf (s.eprAt n) = .isochronous <;> simp [h]

/-! ## What every bus step keeps -/

/-- A property that survives each kind of change a bus step makes survives every bus step. -/
theorem leaves_busStep {P : State → Prop}
    (event : ∀ s e, P s → P (s.pushEvent e))
    (epr : ∀ s n (f : Word → Word), P s → P (s.setEpr n (f (s.eprAt n))))
    (pma : ∀ s n data cnt a, P s → s.busBd n .countRx = .ok cnt → s.busBd n .addrRx = .ok a →
      bufferOffset a + capacity cnt ≤ Config.pmaSize → data.length ≤ capacity cnt →
      P (s.setPma (receivedPma s n data cnt a)))
    (latch : ∀ s w, P s → w &&& 0x80FF = 0x0000 → P (s.setIstr (s.istr ||| w)))
    (lines : ∀ s dp dm, P s → P (s.setFnr (withLines s.fnr dp dm)))
    (wake : ∀ s, P s → P (s.setCntr (s.cntr &&& 0xFFFB)))
    (reset : ∀ s, P s → P ((s.setAllEpr 0x0000).setDaddr 0x0000))
    (b : BusStep) (s : State) (h : P s) : (busStep b s).Leaves P := by
  have hOn : ∀ t, P t → (whileOn s t).Leaves P := by
    intro t ht; unfold whileOn; split
    · exact Act.leaves_done ht
    · exact Act.leaves_done h
  have hAns : ∀ t, P t → ∀ n d a, P (t.answer n d a) := fun t ht _ _ _ => event t _ ht
  have hRecv : ∀ n data cnt f, s.busBd n .countRx = .ok cnt → (receive n data cnt f s).Leaves P := by
    intro n data cnt f hc v t e
    obtain ⟨hl, a, ha, hr, rfl⟩ := receive_eq_done.mp e
    exact hAns _ (epr _ n f (pma s n data cnt a h hc ha hr hl)) _ _ _
  have hTr : ∀ e (k : Slot → Act Unit), (∀ n, (k n).Leaves P) → (transaction e s k).Leaves P := by
    intro e k hk v t ht
    rcases transaction_eq_done.mp ht with ⟨-, rfl⟩ | ⟨-, -, rfl⟩ | ⟨-, n, -, -, hn⟩
    · exact h
    · exact h
    · exact hk n _ _ hn
  have hAdm : ∀ n (k : Word → Act Unit), (∀ cnt, s.busBd n .countRx = .ok cnt → (k cnt).Leaves P) →
      (withCapacity n s k).Leaves P := by
    intro n k hk v t ht
    obtain ⟨cnt, hc, -, hn⟩ := withCapacity_eq_done.mp ht
    exact hk cnt hc _ _ hn
  have hOut : ∀ n data fresh, (busOutAt n data fresh s).Leaves P := by
    intro n data fresh
    unfold busOutAt
    split
    · exact Act.leaves_done (hAns s h _ _ _)
    · exact Act.leaves_done (hAns s h _ _ _)
    · exact Act.leaves_done (hAns s h _ _ _)
    · refine hAdm n _ fun cnt hc => ?_
      split
      · exact hRecv _ _ _ _ hc
      · exact Act.leaves_done (hAns s h _ _ _)
  cases b with
  | reset =>
    refine hOn _ ?_
    unfold busResetEffect
    split
    · exact reset _ (latch s _ h (by decide))
    · exact latch s _ h (by decide)
  | out e data fresh => exact hTr e _ fun n => hOut n data fresh
  | setup e data =>
    refine hTr e _ fun n => ?_
    unfold busSetupAt
    split
    · split
      · exact Act.leaves_done (hAns s h _ _ _)
      · exact hAdm n _ fun cnt hc => hRecv _ _ _ _ hc
    · exact hOut _ _ _
  | inn e acked =>
    refine hTr e _ fun n => ?_
    unfold busInAt
    split
    · exact Act.leaves_done (hAns s h _ _ _)
    · exact Act.leaves_done (hAns s h _ _ _)
    · exact Act.leaves_done (hAns s h _ _ _)
    · intro v t ht
      obtain ⟨c, a, -, -, -, rfl⟩ := transmit_eq_done.mp ht
      split
      · exact hAns _ (epr _ n eprAfterIn (event s _ h)) _ _ _
      · exact hAns _ (event s _ h) _ _ _
  | suspend => exact hOn _ (latch s _ h (by decide))
  | wakeup dp dm =>
    refine hOn _ ?_
    have h1 := latch s wkupFlag h (by decide)
    have h2 := wake _ h1
    exact lines _ dp dm h2
  | line dp dm => exact Act.leaves_done (lines s dp dm h)
  | other which =>
    refine hOn _ (latch s _ h ?_)
    cases which <;> decide

/-- No bus step reaches the driver's side of the state. -/
theorem busStep_sameDriver (b : BusStep) (s₀ s : State) (h : SameDriver s₀ s) : (busStep b s).Leaves (SameDriver s₀) := by
  refine leaves_busStep ?_ ?_ ?_ ?_ ?_ ?_ ?_ b s h
  · intro s e h; exact h.trans ⟨rfl, rfl, rfl, rfl, rfl, rfl, rfl, rfl, rfl, rfl, rfl, rfl, rfl⟩
  · intro s n f h; exact h.trans ⟨rfl, rfl, rfl, rfl, rfl, rfl, rfl, rfl, rfl, rfl, rfl, rfl, rfl⟩
  · intro s n data cnt a h _ _ _ _; exact h.trans ⟨rfl, rfl, rfl, rfl, rfl, rfl, rfl, rfl, rfl, rfl, rfl, rfl, rfl⟩
  · intro s w h _; exact h.trans ⟨rfl, rfl, rfl, rfl, rfl, rfl, rfl, rfl, rfl, rfl, rfl, rfl, rfl⟩
  · intro s dp dm h; exact h.trans ⟨rfl, rfl, rfl, rfl, rfl, rfl, rfl, rfl, rfl, rfl, rfl, rfl, rfl⟩
  · intro s h; exact h.trans ⟨rfl, rfl, rfl, rfl, rfl, rfl, rfl, rfl, rfl, rfl, rfl, rfl, rfl⟩
  · intro s h; exact h.trans ⟨rfl, rfl, rfl, rfl, rfl, rfl, rfl, rfl, rfl, rfl, rfl, rfl, rfl⟩

/-- Nothing that falls before a driver access reaches the driver's side of the state. -/
theorem interleave_sameDriver (s₀ s : State) (h : SameDriver s₀ s) : (interleave s).Leaves (SameDriver s₀) :=
  leaves_interleave (fun _ _ h => h.trans ⟨rfl, rfl, rfl, rfl, rfl, rfl, rfl, rfl, rfl, rfl, rfl, rfl, rfl⟩)
    (fun b s h => busStep_sameDriver b s₀ s h) s h

/-- A bus step takes no entry from the environment's schedule. -/
theorem busStep_sched (b : BusStep) (s : State) (l : List (List BusStep)) (h : s.sched = l) :
    (busStep b s).Leaves fun t => t.sched = l := by
  refine leaves_busStep ?_ ?_ ?_ ?_ ?_ ?_ ?_ b s h
  · intro s e h; exact h
  · intro s n f h; exact h
  · intro s n data cnt a h _ _ _ _; exact h
  · intro s w h _; exact h
  · intro s dp dm h; exact h
  · intro s h; exact h
  · intro s h; exact h

/-- Packet memory keeps its canonical form through a reception. -/
theorem wf_receivedPma (s : State) (n : Slot) (data : List Byte) (cnt a : Word) (hm : Memory.wf s.pma = true)
    (hc : s.busBd n .countRx = .ok cnt) (hr : bufferOffset a + capacity cnt ≤ Config.pmaSize)
    (hl : data.length ≤ capacity cnt) : Memory.wf (receivedPma s n data cnt a) = true :=
  Memory.wf_putPmaWord _ _ _ (busBd_eq_ok.mp hc).2.1
    (Memory.wf_eraseAll _ _ _ (Memory.wf_putAll _ _ _ (by omega) hm))

end Sys2Proof.Machine
end

