-- ==== Sys2Proof/Laws/Copy.lean ====
section
/-! SUPPORT. Laws of the driver's packet-memory accesses and of the two copy loops (R84, R194, R196), with no bus step in
between: where they complete and what they leave, and each way they stop. -/

namespace Sys2Proof.Machine

theorem roundUp2 (n : Nat) : roundUp n 2 = n + n % 2 := by unfold roundUp; omega

theorem memWrite_ok {s : State} (h : s.sched = []) (off : Nat) (w : Word) (h1 : off % 2 = 0) (h2 : off + 2 ≤ 512) :
    memWrite off w s = .done () (s.setPma (putPmaWord s.pma off w)) := by
  rw [memWrite_undisturbed h, pmaStore_eq_ok.mpr ⟨h1, h2, rfl⟩]; rfl
theorem memWrite_mis {s : State} (h : s.sched = []) (off : Nat) (w : Word) (h1 : off % 2 = 1) :
    memWrite off w s = .fault .pmaMisaligned := by
  rw [memWrite_undisturbed h]; unfold pmaStore; rw [if_pos (by omega)]; rfl
theorem memWrite_oor {s : State} (h : s.sched = []) (off : Nat) (w : Word) (h1 : off % 2 = 0) (h2 : 512 < off + 2) :
    memWrite off w s = .fault .pmaOutOfRange := by
  rw [memWrite_undisturbed h]; unfold pmaStore; rw [if_neg (by omega), if_pos (by simp only [Config.pmaSize]; omega)]; rfl

theorem copyIn_ok : ∀ (src : List Byte) (off : Nat) (s : State), s.sched = [] → CopyInRange off src.length →
    ∃ m, copyIn src off s = .done () (s.setPma m) ∧
      (∀ a, off ≤ a → a < off + roundUp src.length 2 → Memory.byte m a = some (src.getD (a - off) 0x00)) ∧
        (∀ a, a < off ∨ off + roundUp src.length 2 ≤ a → Memory.byte m a = Memory.byte s.pma a)
  | [], off, s, h, hr => ⟨s.pma, rfl, by intro a h1 h2; simp [roundUp] at h2; omega, fun _ _ => rfl⟩
  | [lo], off, s, h, hr => by
    rcases hr with hr | ⟨h1, h2⟩
    · simp at hr
    · rw [roundUp2] at h2
      simp at h2
      refine ⟨_, memWrite_ok h off _ h1 h2, ?_, ?_⟩
      · intro a ha hb
        rw [roundUp2] at hb
        simp at hb
        rw [Memory.byte_putPmaWord]
        have : a = off ∨ a = off + 1 := by omega
        rcases this with rfl | rfl <;> simp
      · intro a ha
        rw [roundUp2] at ha
        simp at ha
        rw [Memory.byte_putPmaWord, if_neg (by omega), if_neg (by omega)]
  | lo :: hi :: rest, off, s, h, hr => by
    rcases hr with hr | ⟨h1, h2⟩
    · simp at hr
    · rw [roundUp2] at h2
      simp only [List.length_cons] at h2
      have hw := memWrite_ok h off (wordOfBytes lo hi) h1 (by simp only [Config.pmaSize] at h2; omega)
      obtain ⟨m, e1, e2, e3⟩ := copyIn_ok rest (off + 2) (s.setPma (putPmaWord s.pma off (wordOfBytes lo hi))) h (Or.inr ⟨by omega, by rw [roundUp2]; omega⟩)
      refine ⟨m, ?_, ?_, ?_⟩
      · unfold copyIn; rw [hw, Act.andThen_done, e1]; rfl
      · intro a ha hb
        rw [roundUp2] at hb
        simp only [List.length_cons] at hb
        by_cases h3 : off + 2 ≤ a
        · rw [e2 a h3 (by rw [roundUp2]; omega)]
          have : a - off = (a - (off + 2)) + 2 := by omega
          simp [this]
        · rw [e3 a (by omega)]
          simp only [State.setPma_pma, Memory.byte_putPmaWord]
          have : a = off ∨ a = off + 1 := by omega
          rcases this with rfl | rfl <;> simp
      · intro a ha
        rw [roundUp2] at ha
        simp only [List.length_cons] at ha
        rw [e3 a (by rw [roundUp2]; omega)]
        simp only [State.setPma_pma, Memory.byte_putPmaWord]
        rw [if_neg (by omega), if_neg (by omega)]

theorem copyIn_mis (src : List Byte) (off : Nat) (s : State) (h : s.sched = []) (hs : src ≠ []) (ho : off % 2 = 1) : copyIn src off s = .fault .pmaMisaligned := by
  match src with
  | [] => exact absurd rfl hs
  | [lo] => exact memWrite_mis h _ _ ho
  | lo :: hi :: rest => unfold copyIn; rw [memWrite_mis h _ _ ho]; rfl

theorem copyIn_oor : ∀ (src : List Byte) (off : Nat) (s : State), s.sched = [] → src ≠ [] → off % 2 = 0 → 512 < off + roundUp src.length 2 → copyIn src off s = .fault .pmaOutOfRange
  | [], off, s, h, hs, ho, hr => absurd rfl hs
  | [lo], off, s, h, hs, ho, hr => memWrite_oor h _ _ ho (by rw [roundUp2] at hr; simpa using hr)
  | lo :: hi :: rest, off, s, h, hs, ho, hr => by
    rw [roundUp2] at hr
    simp only [List.length_cons] at hr
    unfold copyIn
    by_cases h2 : off + 2 ≤ 512
    · rw [memWrite_ok h _ _ ho h2, Act.andThen_done]
      refine copyIn_oor rest (off+2) _ h ?_ (by omega) (by rw [roundUp2]; omega)
      rintro rfl; simp at hr; omega
    · rw [memWrite_oor h _ _ ho (by omega)]; rfl

theorem memRead_ok {s : State} (h : s.sched = []) (off : Nat) (h1 : off % 2 = 0) (h2 : off + 2 ≤ 512) :
    memRead off s = .done (Memory.byte s.pma off, Memory.byte s.pma (off+1)) s := by
  rw [memRead_undisturbed h, pmaWord_eq_ok.mpr ⟨h1, h2, rfl⟩]; rfl
theorem memRead_mis {s : State} (h : s.sched = []) (off : Nat) (h1 : off % 2 = 1) :
    memRead off s = .fault .pmaMisaligned := by
  rw [memRead_undisturbed h]; unfold pmaWord; rw [if_pos (by omega)]; rfl
theorem memRead_oor {s : State} (h : s.sched = []) (off : Nat) (h1 : off % 2 = 0) (h2 : 512 < off + 2) :
    memRead off s = .fault .pmaOutOfRange := by
  rw [memRead_undisturbed h]; unfold pmaWord; rw [if_neg (by omega), if_pos (by simp only [Config.pmaSize]; omega)]; rfl

theorem copyOut_ok : ∀ (len off : Nat) (s : State) (dest : List Byte), s.sched = [] → CopyInRange off len → dest.length = len →
    (∀ k, k < len → Memory.byte s.pma (off + k) = dest[k]?) → copyOut len off s = .done dest s
  | 0, off, s, dest, h, hr, hl, hb => by
    have : dest = [] := List.length_eq_zero_iff.mp hl
    subst this; rfl
  | 1, off, s, dest, h, hr, hl, hb => by
    rcases hr with hr | ⟨h1, h2⟩
    · simp at hr
    rw [roundUp2] at h2; simp at h2
    obtain ⟨b, rfl⟩ := List.length_eq_one_iff.mp hl
    have := hb 0 (by omega)
    simp at this
    unfold copyOut; rw [memRead_ok h _ h1 h2]; simp [this]
  | len + 2, off, s, dest, h, hr, hl, hb => by
    rcases hr with hr | ⟨h1, h2⟩
    · simp at hr
    rw [roundUp2] at h2
    match dest, hl with
    | lo :: hi :: rest, hl =>
      have b0 := hb 0 (by omega)
      have b1 := hb 1 (by omega)
      simp at b0 b1
      unfold copyOut; rw [memRead_ok h _ h1 (by simp only [Config.pmaSize] at h2; omega)]
      have := copyOut_ok len (off+2) s rest h (Or.inr ⟨by omega, by rw [roundUp2]; omega⟩) (by simpa using hl) (by
        intro k hk
        have := hb (k+2) (by omega)
        have e : off + 2 + k = off + (k + 2) := by omega
        rw [e, this]; simp)
      simp [b0, b1, this]

theorem copyOut_undef : ∀ (len off : Nat) (s : State) (k : Nat), s.sched = [] → off % 2 = 0 → k < len → off + k < 512 →
    Memory.byte s.pma (off + k) = none → copyOut len off s = .fault .undefRead
  | 0, off, s, k, h, ho, hk, hr, hb => by omega
  | 1, off, s, k, h, ho, hk, hr, hb => by
    have : k = 0 := by omega
    subst this
    simp at hb
    unfold copyOut; rw [memRead_ok h _ ho (by omega)]; simp [hb]
  | len + 2, off, s, k, h, ho, hk, hr, hb => by
    unfold copyOut; rw [memRead_ok h _ ho (by omega), Act.andThen_done]
    cases b0 : Memory.byte s.pma off with
    | none => rfl
    | some x =>
      cases b1 : Memory.byte s.pma (off+1) with
      | none => rfl
      | some y =>
        have hk2 : 2 ≤ k := by
          by_contra hc
          have : k = 0 ∨ k = 1 := by omega
          rcases this with rfl | rfl
          · simp [b0] at hb
          · simp [b1] at hb
        have e : off + 2 + (k - 2) = off + k := by omega
        have := copyOut_undef len (off+2) s (k-2) h (by omega) (by omega) (by omega) (by rw [e]; exact hb)
        simp [this]

theorem copyOut_mis (len off : Nat) (s : State) (h : s.sched = []) (hl : len ≠ 0) (ho : off % 2 = 1) :
    copyOut len off s = .fault .pmaMisaligned := by
  match len with
  | 0 => exact absurd rfl hl
  | 1 => simp [copyOut, memRead_mis h _ ho]
  | len + 2 => simp [copyOut, memRead_mis h _ ho]

theorem copyOut_oor : ∀ (len off : Nat) (s : State), s.sched = [] → len ≠ 0 → off % 2 = 0 → 512 < off + roundUp len 2 → (∀ k, k < len → off + k < 512 → Memory.byte s.pma (off + k) ≠ none) → copyOut len off s = .fault .pmaOutOfRange
  | 0, off, s, h, hs, ho, hr, hb => absurd rfl hs
  | 1, off, s, h, hs, ho, hr, hb => by unfold copyOut; rw [memRead_oor h _ ho (by rw [roundUp2] at hr; simpa using hr)]; rfl
  | len + 2, off, s, h, hs, ho, hr, hb => by
    rw [roundUp2] at hr
    unfold copyOut
    by_cases h2 : off + 2 ≤ 512
    · rw [memRead_ok h _ ho h2, Act.andThen_done]
      have b0 := hb 0 (by omega) (by omega)
      have b1 := hb 1 (by omega) (by omega)
      obtain ⟨x, hx⟩ := Option.ne_none_iff_exists'.mp b0
      obtain ⟨y, hy⟩ := Option.ne_none_iff_exists'.mp b1
      simp at hx
      rw [hx, hy]
      have := copyOut_oor len (off+2) s h (by rintro rfl; simp at hr; omega) (by omega) (by rw [roundUp2]; omega) (by
        intro k hk ho'
        have e : off + 2 + k = off + (k + 2) := by omega
        rw [e]; exact hb (k+2) (by omega) (by omega))
      simp [this]
    · rw [memRead_oor h _ ho (by omega)]; rfl

end Sys2Proof.Machine
end

