-- ==== Sys2Proof/Laws/Descriptor.lean ====
section
/-! SUPPORT. Laws of the descriptor table, the packet-memory words and the arena, with no bus step before an access. -/

namespace Sys2Proof.Machine

/-! ## Words of packet memory -/

theorem wordAt_putPmaWord_same (m : Memory) (off : Nat) (w : Word) :
    Memory.wordAt (putPmaWord m off w) off = some w := by
  simp [Memory.wordAt, Memory.byte_putPmaWord]

theorem wordAt_putPmaWord_ne (m : Memory) (off x : Nat) (w : Word) (h : x + 2 ≤ off ∨ off + 2 ≤ x) :
    Memory.wordAt (putPmaWord m off w) x = Memory.wordAt m x := by
  unfold Memory.wordAt
  simp only [Memory.byte_putPmaWord]
  rw [if_neg (by omega), if_neg (by omega), if_neg (by omega), if_neg (by omega)]

/-! ## The driver's descriptor accesses (R192, R193) -/

/-- The driver's descriptor table stands at offset 0. -/
theorem bdOffset_driver (n : Slot) (f : BdField) : bdOffset Config.driverBdBase n f = 8 * n + f.offset := by
  simp [bdOffset]

/-- Every descriptor field is an aligned word inside packet memory. -/
theorem bdOffset_driver_ok (n : Slot) (f : BdField) :
    bdOffset Config.driverBdBase n f % 2 = 0 ∧ bdOffset Config.driverBdBase n f + 2 ≤ 512 := by
  rw [bdOffset_driver]
  have := n.isLt
  simp only [Config.nEp] at this
  cases f <;> simp [BdField.offset] <;> omega

theorem bdSet_undisturbed {s : State} (h : s.sched = []) (n : Slot) (f : BdField) (v : Word) :
    bdSet n f v s = .done () (s.setPma (putPmaWord s.pma (8 * n + f.offset) v)) := by
  rw [← bdOffset_driver]
  exact memWrite_ok h _ _ (bdOffset_driver_ok n f).1 (bdOffset_driver_ok n f).2

theorem bdGet_undisturbed {s : State} (h : s.sched = []) (n : Slot) (f : BdField) (w : Word)
    (hw : Memory.wordAt s.pma (8 * n + f.offset) = some w) : bdGet n f s = .done w s := by
  unfold bdGet
  rw [memRead_ok h _ (bdOffset_driver_ok n f).1 (bdOffset_driver_ok n f).2, Act.andThen_done]
  rw [← bdOffset_driver] at hw
  unfold Memory.wordAt at hw
  split at hw
  · rename_i lo hi e1 e2
    cases hw
    rw [e1, e2]
    rfl
  · cases hw

theorem bdGet_undef {s : State} (h : s.sched = []) (n : Slot) (f : BdField)
    (hw : Memory.wordAt s.pma (8 * n + f.offset) = none) : bdGet n f s = .fault .undefRead := by
  unfold bdGet
  rw [memRead_ok h _ (bdOffset_driver_ok n f).1 (bdOffset_driver_ok n f).2, Act.andThen_done]
  rw [← bdOffset_driver] at hw
  unfold Memory.wordAt at hw
  split at hw
  · cases hw
  · rename_i hn
    cases e1 : Memory.byte s.pma (bdOffset Config.driverBdBase n f) with
    | none => rfl
    | some lo =>
      cases e2 : Memory.byte s.pma (bdOffset Config.driverBdBase n f + 1) with
      | none => rfl
      | some hi => exact absurd e2 (hn lo hi e1)

/-! ## The arena (R190) -/

theorem arenaAllocate_fits {s : State} {size : Nat} (h : s.nextFree + roundUp size 2 ≤ 512) :
    arenaAllocate size s = .ok (s.nextFree, s.setNextFree (s.nextFree + roundUp size 2)) := by
  unfold arenaAllocate
  dsimp only
  rw [if_neg (by simp only [Config.pmaSize, Config.wordBytes]; omega)]

theorem arenaAllocate_full {s : State} {size : Nat} (h : 512 < s.nextFree + roundUp size 2) :
    arenaAllocate size s = .error .endpointOverflow := by
  unfold arenaAllocate
  dsimp only
  rw [if_pos (by simp only [Config.pmaSize, Config.wordBytes]; omega)]

/-- The encoder's size is a whole number of words (R201). -/
theorem roundUp_encodeReceiveSize {mps rsize : Nat} {enc : Word} (h : encodeReceiveSize mps = .ok (rsize, enc)) :
    roundUp rsize 2 = rsize := by
  unfold encodeReceiveSize at h
  split at h
  · cases h; simp only [roundUp]; omega
  · split at h
    · cases h; simp only [roundUp]; omega
    · cases h

/-- The count `read` takes from a COUNT_RX word: its low 6 bits (R251). -/
theorem toNat_and_rxCountMask (c : Word) : (c &&& Config.rxCountMask).toNat = c.toNat % 64 := by
  rw [BitVec.toNat_and]
  exact Nat.and_two_pow_sub_one_eq_mod c.toNat 6

/-! ## The allocation search (R220, R225, R227) -/

/-- A turn at a slot that can take the direction: its type is assigned and the direction claimed. -/
theorem allocSearch_available {s : State} {d : Dir} {t : EpType} {mps : Nat} {i : Slot} (h : Available s d t i)
    (pin : Option Nat) (hp : pin = none ∨ pin = some i.val) (fuel : Nat) :
    allocSearch pin d t mps (fuel + 1) i s = claim i d mps (s.setEp i ⟨some t, (s.epAt i).out, (s.epAt i).inn⟩) := by
  unfold allocSearch
  rw [if_neg (by rcases hp with rfl | rfl <;> simp), slotOf_val]
  obtain ⟨h1, h2⟩ := h
  have ht : takeType i t s = s.setEp i ⟨some t, (s.epAt i).out, (s.epAt i).inn⟩ := by
    unfold takeType
    rcases h1 with h1 | h1
    · simp [h1]
    · simp only [h1, reduceCtorEq, if_false]
      have : s.epAt i = ⟨some t, (s.epAt i).out, (s.epAt i).inn⟩ := by rw [← h1]
      rw [← this]
      simp [State.setEp, State.epAt]
  simp only [ht]
  have : claimed i d (s.setEp i ⟨some t, (s.epAt i).out, (s.epAt i).inn⟩) = false := by
    cases d <;> simpa [claimed] using h2
  simp [this]

/-- A turn at a typed slot that cannot take the direction: the search goes on. -/
theorem allocSearch_skip {s : State} {d : Dir} {t u : EpType} {mps : Nat} {i : Slot} (hu : (s.epAt i).type = some u)
    (h : u ≠ t ∨ claimed i d s = true) (pin : Option Nat) (hp : pin = none ∨ pin = some i.val) (fuel : Nat) :
    allocSearch pin d t mps (fuel + 1) i s = allocSearch pin d t mps fuel (i.val + 1) s := by
  rw [allocSearch, if_neg (by rcases hp with rfl | rfl <;> simp), slotOf_val]
  have ht : takeType i t s = s := by simp [takeType, hu]
  simp only [ht, hu]
  by_cases he : u = t
  · subst he
    simp at h
    simp [h]
  · simp [he]

/-- The address of a slot and direction names them (R111). -/
theorem addr_epAddr (i : Slot) (d : Dir) : addrDir (epAddr i d) = d ∧ addrIndex (epAddr i d) = i := by
  cases d <;> revert i <;> decide

end Sys2Proof.Machine
end

