-- ==== Sys2Proof/Laws/RegisterView.lean ====
section
/-! SUPPORT. Laws of the register-view operations on a slot that exists: each as one write over the state its bus steps leave. -/

namespace Sys2Proof.Machine

/-- `u` is the state at the read, `v` the state at the write. -/
theorem epSetStatus_eq {s u v : State} (hu : interleave s = .done () u) (hv : interleave u = .done () v)
    (n : Slot) (d : Dir) (st : Status) :
    epSetStatus n d st s = .done () (v.setEpr n (gateEpr (v.eprAt n) (setStatusWord (u.eprAt n) d st))) := by
  simp [epSetStatus, regRead, hu, regWrite, hv, State.regValue, State.storeReg]

/-- `u` is the state at the read, `v` the state at the write. -/
theorem epClearCtr_eq {s u v : State} (hu : interleave s = .done () u) (hv : interleave u = .done () v)
    (n : Slot) (d : Dir) :
    epClearCtr n d s = .done () (v.setEpr n (gateEpr (v.eprAt n) (clearCtrWord (u.eprAt n) d))) := by
  simp [epClearCtr, regRead, hu, regWrite, hv, State.regValue, State.storeReg]

/-- `u` is the state at the read, `v` the state at the write. -/
theorem epConfigure_eq {s u v : State} (hu : interleave s = .done () u) (hv : interleave u = .done () v)
    (n : Slot) (t : EpType) :
    epConfigure n t s = .done () (v.setEpr n (gateEpr (v.eprAt n) (configureWord (u.eprAt n) n t))) := by
  simp [epConfigure, regRead, hu, regWrite, hv, State.regValue, State.storeReg]

end Sys2Proof.Machine
end

