-- ==== Sys2Proof/Laws/Exec.lean ====
section
/-! SUPPORT. What survives every instruction: a property of states that each shared operation keeps is kept by every
meaning, said once over the whole dispatch. -/

namespace Sys2Proof.Machine

/-- The property survives the shared operations that meanings are built of. -/
structure Kept (P : State → Prop) : Prop where
  access : ∀ s, P s → (interleave s).Leaves P
  draw : ∀ s, P s → P s.bumpDraws
  result : ∀ s r, P s → P (s.setResult r)
  /-- Any register but an EPR; the driver writes BTABLE with 0 only (R331). -/
  reg : ∀ s r w, (∀ n, r ≠ .epr n) → (r = .btable → w = 0x0000) → P s → P (s.storeReg r w)
  configure : ∀ s n t, P s → (epConfigure n t s).Leaves P
  status : ∀ s n d st, P s → (epSetStatus n d st s).Leaves P
  clear : ∀ s n d, P s → (epClearCtr n d s).Leaves P
  word : ∀ s off w, P s → off + 2 ≤ Config.pmaSize → P (s.setPma (putPmaWord s.pma off w))

namespace Kept

variable {P : State → Prop} (k : Kept P) {s : State}
include k

theorem afterRead (r : Reg) (h : P s) : P (s.afterRead r) := by
  cases r <;> first | exact h | exact k.draw _ h

theorem regRead (r : Reg) (h : P s) : (regRead r s).Leaves P := leaves_regRead r (k.access s h) fun _ h => k.afterRead r h

theorem regWrite (r : Reg) (w : Word) (hr : ∀ n, r ≠ .epr n) (hb : r = .btable → w = 0x0000) (h : P s) :
    (regWrite r w s).Leaves P :=
  leaves_regWrite r w (k.access s h) fun t ht => k.reg t r w hr hb ht

theorem istrRead (h : P s) : (istrRead s).Leaves P := leaves_istrRead (k.access s h) k.draw

theorem fnrReadDp (h : P s) : (fnrReadDp s).Leaves P := leaves_fnrReadDp (k.access s h) k.draw

theorem memRead (off : Nat) (h : P s) : (memRead off s).Leaves P := leaves_memRead off (k.access s h)

theorem memWrite (off : Nat) (w : Word) (h : P s) : (memWrite off w s).Leaves P :=
  leaves_memWrite off w (k.access s h) fun t ht ho => k.word t off w ht ho

theorem bdGet (n : Slot) (f : BdField) (h : P s) : (bdGet n f s).Leaves P :=
  Act.leaves_andThen (k.memRead _ h) fun _ _ h => Act.leaves_ofExcept h

theorem bdSet (n : Slot) (f : BdField) (v : Word) (h : P s) : (bdSet n f v s).Leaves P := k.memWrite _ _ h

theorem cntrUpdate (f : Word → Word) (h : P s) : (cntrUpdate f s).Leaves P :=
  Act.leaves_andThen (k.regRead _ h) fun _ _ h => k.regWrite _ _ (by simp) (by simp) h

theorem copyIn : ∀ (src : List Byte) (off : Nat) {s : State}, P s → (copyIn src off s).Leaves P
  | [], _, _, h => Act.leaves_done h
  | [_], _, _, h => k.memWrite _ _ h
  | _ :: _ :: rest, _, _, h => Act.leaves_andThen (k.memWrite _ _ h) fun _ _ h => copyIn rest _ h

theorem copyOut : ∀ (len off : Nat) {s : State}, P s → (copyOut len off s).Leaves P
  | 0, _, _, h => Act.leaves_done h
  | 1, _, _, h => Act.leaves_andThen (k.memRead _ h) fun _ _ h => by
    split
    · exact Act.leaves_done h
    · exact Act.leaves_fault
  | len + 2, _, _, h => Act.leaves_andThen (k.memRead _ h) fun _ _ h => by
    split
    · exact Act.leaves_andThen (copyOut len _ h) fun _ _ h => Act.leaves_done h
    · exact Act.leaves_fault

theorem resetSlots (l : List Slot) {s : State} (h : P s) : (resetSlots l s).Leaves P := by
  induction l generalizing s with
  | nil => exact Act.leaves_done h
  | cons i l ih =>
    refine Act.leaves_andThen (P := P) ?_ fun _ _ h => ih h
    unfold resetSlot
    split
    · exact Act.leaves_done h
    · refine Act.leaves_andThen (k.configure _ _ _ h) fun _ s h => Act.leaves_andThen (P := P) ?_ fun _ s h => ?_
      · split
        · exact k.status _ _ _ _ h
        · exact Act.leaves_done h
      · split
        · exact k.status _ _ _ _ h
        · exact Act.leaves_done h

theorem scanSlots (l : List Slot) (m : ScanMasks) {s : State} (h : P s) : (scanSlots l m s).Leaves P := by
  induction l generalizing s m with
  | nil => exact Act.leaves_done h
  | cons i l ih =>
    unfold Machine.scanSlots
    split
    · refine Act.leaves_andThen (k.regRead _ h) fun _ s h => Act.leaves_andThen (P := P) ?_ fun _ s h => ih _ h
      split
      · exact k.clear _ _ _ h
      · exact Act.leaves_done h
    · exact Act.leaves_done h

theorem writeSlot (i : Slot) (src : List Byte) (h : P s) : (writeSlot i src s).Leaves P := by
  refine Act.leaves_andThen (k.regRead _ h) fun r s h => ?_
  split
  · exact Act.leaves_done h
  · split
    · exact Act.leaves_done h
    · split
      · exact Act.leaves_fault
      · exact Act.leaves_andThen (k.bdGet _ _ h) fun _ _ h => Act.leaves_andThen (k.copyIn _ _ h) fun _ _ h =>
          Act.leaves_andThen (k.bdSet _ _ _ h) fun _ _ h => Act.leaves_andThen (k.status _ _ _ _ h) fun _ _ h =>
            Act.leaves_done h

theorem readSlot (i : Slot) (len : Nat) (h : P s) : (readSlot i len s).Leaves P := by
  refine Act.leaves_andThen (k.regRead _ h) fun r s h => ?_
  split
  · exact Act.leaves_done h
  · split
    · exact Act.leaves_done h
    · refine Act.leaves_andThen (k.bdGet _ _ h) fun c s h => ?_
      dsimp only
      split
      · exact Act.leaves_done h
      · exact Act.leaves_andThen (k.bdGet _ _ h) fun _ _ h => Act.leaves_andThen (k.copyOut _ _ h) fun _ _ h =>
          Act.leaves_andThen (k.clear _ _ _ h) fun _ _ h => Act.leaves_andThen (k.status _ _ _ _ h) fun _ _ h =>
            Act.leaves_done h

theorem pollAct (h : P s) : (pollAct s).Leaves P := by
  refine Act.leaves_andThen (k.istrRead h) fun f s h => ?_
  split
  · exact Act.leaves_andThen (k.fnrReadDp h) fun _ _ h =>
      Act.leaves_andThen (k.regWrite _ _ (by simp) (by simp) h) fun _ _ h => Act.leaves_done h
  · split
    · exact Act.leaves_andThen (k.regWrite _ _ (by simp) (by simp) h) fun _ _ h => Act.leaves_done h
    · split
      · exact Act.leaves_andThen (k.regWrite _ _ (by simp) (by simp) h) fun _ _ h => Act.leaves_done h
      · split
        · exact Act.leaves_andThen (k.scanSlots _ _ h) fun _ _ h => Act.leaves_done h
        · exact Act.leaves_done h

theorem returning {a : Act Result} {t : State} (ha : a.Leaves P) (h : a.returning = .next t) : P t := by
  obtain ⟨v, s, h1, rfl⟩ := Act.returning_eq_next.mp h
  exact k.result _ _ (ha _ _ h1)

theorem returningUnit {a : Act Unit} {t : State} (ha : a.Leaves P) (h : a.returningUnit = .next t) : P t := by
  obtain ⟨s, h1, rfl⟩ := Act.returningUnit_eq_next.mp h
  exact k.result _ _ (ha _ _ h1)

end Kept

/-- The allocation search keeps what taking a slot's type and claiming a direction keep (R220). -/
theorem leaves_allocSearch {P : State → Prop} (d : Dir) (t : EpType) (mps : Nat) (pin : Option Nat) (type : ∀ s i, P s → P (takeType i t s))
    (claim : ∀ s i, P s → (s.epAt i).type = some t → claimed i d s = false → (claim i d mps s).Leaves P) :
    ∀ fuel i {s : State}, P s → (allocSearch pin d t mps fuel i s).Leaves P
  | 0, _, _, h => Act.leaves_done h
  | fuel + 1, i, s, h => by
    unfold allocSearch
    split
    · exact Act.leaves_done h
    · split
      · exact Act.leaves_done h
      · rename_i n _
        have h' := type s n h
        dsimp only
        split
        · exact leaves_allocSearch d t mps pin type claim fuel _ h'
        · split
          · exact leaves_allocSearch d t mps pin type claim fuel _ h'
          · rename_i h1 h2
            exact claim _ n h' (Classical.not_not.mp h1) (by simpa using h2)

/-! ## The arena and the records -/

/-- An allocation in the arena that succeeds (R190). -/
theorem arenaAllocate_eq_ok {size off : Nat} {s u : State} :
    arenaAllocate size s = .ok (off, u) ↔
      s.nextFree + roundUp size 2 ≤ 512 ∧ off = s.nextFree ∧ u = s.setNextFree (s.nextFree + roundUp size 2) := by
  unfold arenaAllocate
  dsimp only
  split
  · rename_i h
    simp only [Config.pmaSize, Config.wordBytes] at h
    simp only [reduceCtorEq, false_iff]
    omega
  · rename_i h
    simp only [Config.pmaSize, Config.wordBytes] at h
    simp only [Except.ok.injEq, Prod.mk.injEq, eq_comm (a := s.nextFree), eq_comm (b := u), Config.wordBytes]
    exact ⟨fun e => ⟨by omega, e⟩, fun e => e.2⟩

/-- Taking a slot's type changes a record without one only (R225). -/
theorem takeType_cases (i : Slot) (t : EpType) (s : State) :
    takeType i t s = s ∨
      ((s.epAt i).type = none ∧ takeType i t s = s.setEp i ⟨some t, (s.epAt i).out, (s.epAt i).inn⟩) := by
  unfold takeType
  dsimp only
  split
  · rename_i h; exact .inr ⟨h, rfl⟩
  · exact .inl rfl

/-- What claiming a direction keeps (R229, R230), for a property that sees the arena, the records and the ghost
capacities apart. -/
theorem Kept.claim {P : State → Prop} (k : Kept P) (arena : ∀ s n, P s → s.nextFree ≤ n → P (s.setNextFree n))
    (record : ∀ s i o n, P s → ((s.epAt i).out = true → o = true) → ((s.epAt i).inn = true → n = true) →
      P (s.setEp i ⟨(s.epAt i).type, o, n⟩))
    (rx : ∀ s i c, P s → P (s.setRxCap i c)) (tx : ∀ s i c, P s → P (s.setTxCap i c))
    (i : Slot) (d : Dir) (mps : Nat) {s : State} (h : P s) : (claim i d mps s).Leaves P := by
  cases d
  · unfold Machine.claim claimOut
    dsimp only
    split
    · exact Act.leaves_done h
    · split
      · exact Act.leaves_done h
      · rename_i h1
        obtain ⟨-, rfl, rfl⟩ := arenaAllocate_eq_ok.mp h1
        exact Act.leaves_andThen (k.bdSet _ _ _ (arena _ _ h (by omega))) fun _ s h =>
          Act.leaves_andThen (k.bdSet _ _ _ h) fun _ s h =>
            Act.leaves_done (rx _ _ _ (record _ _ _ _ h (fun _ => rfl) fun h => h))
  · unfold Machine.claim claimIn
    dsimp only
    split
    · exact Act.leaves_done h
    · rename_i h1
      obtain ⟨-, rfl, rfl⟩ := arenaAllocate_eq_ok.mp h1
      exact Act.leaves_andThen (k.bdSet _ _ _ (arena _ _ h (by omega))) fun _ s h =>
        Act.leaves_andThen (k.bdSet _ _ _ h) fun _ s h =>
          Act.leaves_done (tx _ _ _ (record _ _ _ _ h (fun h => h) fun _ => rfl))

/-! ## Every instruction -/

/-- A kept property holds after every instruction that ends in a next state: beside the shared operations, construction,
the arena, an allocation, a raw EPR write, a bus step and the driver's own bookkeeping need a reason each. -/
theorem Kept.exec {P : State → Prop} (k : Kept P) {s t : State} (i : Instr)
    (construct : ∀ c, i = .construct c → P t)
    (arena : ∀ s size off u, P s → arenaAllocate size s = .ok (off, u) → P u)
    (allocate : ∀ d req ty mps, i = .allocateEndpoint d req ty mps → s.phase = .configured →
      (Machine.allocSearch (req.map addrIndex) d ty mps (Config.nEp + 1) ((req.map addrIndex).getD 1) s).Leaves P)
    (highest : ∀ n, P (s.setMaxIndex n)) (phase : ∀ s, P s → P (s.setPhase .enabled))
    (pin : ∀ s, P s → P (s.setPinLevel .low))
    (raw : isRawEprWrite i = true → ∀ n w, (Machine.regWrite (.epr n) w s).Leaves P)
    (bus : isBusStep i = true → ∀ b, (busStep b s).Leaves P)
    (h : P s) (he : exec i s = .next t) : P t := by
  have stepped : ∀ b, isBusStep i = true → (busStep b s).silent = .next t → P t := fun b hb e =>
    bus hb b _ _ (Act.silent_eq_next.mp e)
  have written : ∀ n w, isRawEprWrite i = true → (writeEpr n w s).returningUnit = .next t → P t := fun n w hr e =>
    k.returningUnit (Act.leaves_onSlot fun m => raw hr m w) e
  cases i with
  | construct c => exact construct c rfl
  | pmaAllocate size =>
    refine k.returning ?_ he
    split
    · exact Act.leaves_done h
    · rename_i h1; exact Act.leaves_done (arena _ _ _ _ h h1)
  | pmaDescriptor n => exact k.returning (Act.leaves_onSlot fun _ => Act.leaves_done h) he
  | pmaRead off len => exact k.returning (Act.leaves_andThen (k.copyOut _ _ h) fun _ _ h => Act.leaves_done h) he
  | pmaWrite off src => exact k.returningUnit (k.copyIn _ _ h) he
  | encodeReceiveSize n =>
    refine k.returning ?_ he
    split
    · exact Act.leaves_done h
    · exact Act.leaves_done h
  | epConfigure n t => exact k.returningUnit (Act.leaves_onSlot fun _ => k.configure _ _ _ h) he
  | epSetStatus n d st => exact k.returningUnit (Act.leaves_onSlot fun _ => k.status _ _ _ _ h) he
  | epClearCtr n d => exact k.returningUnit (Act.leaves_onSlot fun _ => k.clear _ _ _ h) he
  | epSnapshot n =>
    exact k.returning (Act.leaves_onSlot fun _ => Act.leaves_andThen (k.regRead _ h) fun _ _ h => Act.leaves_done h) he
  | eprWrite n w => exact written _ _ rfl he
  | istrWrite w => exact k.returningUnit (k.regWrite _ _ (by simp) (by simp) h) he
  | allocateEndpoint d req ty mps =>
    refine k.returning ?_ he
    split
    · exact Act.leaves_fault
    · rename_i hp
      refine allocate _ _ _ _ rfl ?_
      cases hx : s.phase with
      | configured => rfl
      | enabled => exact absurd hx hp
  | reset =>
    exact k.returningUnit (Act.leaves_andThen (k.resetSlots _ h) fun _ _ h =>
      Act.leaves_andThen (k.regWrite _ _ (by simp) (by simp) h) fun _ _ h => k.regWrite _ _ (by simp) (by simp) h) he
  | write a src =>
    refine k.returning ?_ he
    split
    · exact k.writeSlot _ _ h
    · exact Act.leaves_done h
  | read a len =>
    refine k.returning ?_ he
    split
    · exact k.readSlot _ _ h
    · exact Act.leaves_done h
  | stall a => exact k.returningUnit (Act.leaves_onSlot fun _ => k.status _ _ _ _ h) he
  | unstall a =>
    refine k.returningUnit (Act.leaves_onSlot fun _ => Act.leaves_andThen (k.regRead _ h) fun _ _ h => ?_) he
    split
    · exact k.status _ _ _ _ h
    · exact Act.leaves_done h
  | poll => exact k.returning (Act.leaves_andThen (k.pollAct h) fun _ _ h => Act.leaves_done h) he
  | enable =>
    exact k.returningUnit (Act.leaves_andThen (k.cntrUpdate _ (highest _)) fun _ _ h =>
      Act.leaves_andThen (k.regWrite _ _ (by simp) (by simp) h) fun _ _ h => Act.leaves_andThen (k.cntrUpdate _ h) fun _ _ h =>
        Act.leaves_andThen (k.regWrite _ _ (by simp) (by simp) h) fun _ _ h => Act.leaves_done (phase _ h)) he
  | setDeviceAddress a =>
    refine k.returningUnit ?_ he
    split
    · exact Act.leaves_fault
    · exact k.regWrite _ _ (by simp) (by simp) h
  | suspend => exact k.returningUnit (k.cntrUpdate _ h) he
  | resume => exact k.returningUnit (k.cntrUpdate _ h) he
  | forceReset =>
    refine k.returning ?_ he
    split
    · exact Act.leaves_done h
    · exact Act.leaves_andThen (k.regRead _ h) fun _ _ h => Act.leaves_andThen (k.regWrite _ _ (by simp) (by simp) h) fun _ _ h =>
        Act.leaves_andThen (k.cntrUpdate _ (pin _ h)) fun _ _ h => Act.leaves_done h
  | busReset => exact stepped .reset rfl he
  | busOut e data fresh => exact stepped (.out e data fresh) rfl he
  | busSetup e data => exact stepped (.setup e data) rfl he
  | busIn e acked => exact stepped (.inn e acked) rfl he
  | busSuspend => exact stepped .suspend rfl he
  | busWakeup dp dm => exact stepped (.wakeup dp dm) rfl he
  | busLine dp dm => exact stepped (.line dp dm) rfl he
  | busOtherEvent which => exact stepped (.other which) rfl he
  | epwConfigure t kind n => exact written _ _ rfl he
  | epwSetStatusOut slot ss t kind a => exact written _ _ rfl he
  | epwSetStatusIn slot ss t kind a => exact written _ _ rfl he
  | epwClearCtrOut slot t kind a => exact written _ _ rfl he
  | epwClearCtrIn slot t kind a => exact written _ _ rfl he
  | istrwClearWkup => exact k.returningUnit (k.regWrite _ _ (by simp) (by simp) h) he
  | istrwClearReset => exact k.returningUnit (k.regWrite _ _ (by simp) (by simp) h) he
  | istrwClearSusp => exact k.returningUnit (k.regWrite _ _ (by simp) (by simp) h) he
  | istrwClearAll => exact k.returningUnit (k.regWrite _ _ (by simp) (by simp) h) he
  | daddrwSet a => exact k.returningUnit (k.regWrite _ _ (by simp) (by simp) h) he

/-- A property that every bus step, every gated write and every stored word keeps is kept, whatever the bus engine does
in between. -/
theorem Kept.of_bus {P : State → Prop} (sched : ∀ s l, P s → P (s.setSched l)) (bus : ∀ b s, P s → (busStep b s).Leaves P)
    (draw : ∀ s, P s → P s.bumpDraws) (result : ∀ s r, P s → P (s.setResult r))
    (reg : ∀ s r w, (r = .btable → w = 0x0000) → P s → P (s.storeReg r w))
    (word : ∀ s off w, P s → off + 2 ≤ Config.pmaSize → P (s.setPma (putPmaWord s.pma off w))) : Kept P := by
  have access : ∀ s, P s → (interleave s).Leaves P := fun s h => leaves_interleave sched bus s h
  have rmw : ∀ s r (f : Word → Word), r ≠ .btable → P s →
      ((Machine.regRead r s).andThen fun v s => Machine.regWrite r (f v) s).Leaves P :=
    fun s r f hb h => Act.leaves_andThen (P := P)
      (leaves_regRead r (access s h) fun t ht => by cases r <;> first | exact ht | exact draw _ ht)
      fun _ t ht => leaves_regWrite r _ (access t ht) fun u hu => reg u r _ (fun e => absurd e hb) hu
  exact {
    access := access
    draw := draw
    result := result
    reg := fun s r w _ hb h => reg s r w hb h
    configure := fun s n t h => rmw s (.epr n) (fun r => configureWord r n t) (by simp) h
    status := fun s n d st h => rmw s (.epr n) (fun r => setStatusWord r d st) (by simp) h
    clear := fun s n d h => rmw s (.epr n) (fun r => clearCtrWord r d) (by simp) h
    word := word }

end Sys2Proof.Machine
end

