-- ==== Sys2Proof/Laws/Hardware.lean ====
section
/-! SUPPORT. The updates the hardware makes to an EPR, field by field, the count it writes into COUNT_RX, the slot
a transaction reaches and packet memory after a reception (file 45_bus_engine.md). -/

namespace Sys2Proof.Machine

@[simp] theorem ctrOf_setStat (d : Dir) (st : Status) (r : Word) (e : Dir) : ctrOf e (setStat d st r) = ctrOf e r := by
  cases d <;> cases e <;> simp [-BitVec.getLsbD_eq_getElem, ctrOf, getLsbD_setStat, statPos]

@[simp] theorem dtogOf_setStat (d : Dir) (st : Status) (r : Word) (e : Dir) : dtogOf e (setStat d st r) = dtogOf e r := by
  cases d <;> cases e <;> simp [-BitVec.getLsbD_eq_getElem, dtogOf, getLsbD_setStat, statPos]

@[simp] theorem setupOf_setStat (d : Dir) (st : Status) (r : Word) : setupOf (setStat d st r) = setupOf r := by
  cases d <;> simp [-BitVec.getLsbD_eq_getElem, setupOf, getLsbD_setStat, statPos]

@[simp] theorem kindOf_setStat (d : Dir) (st : Status) (r : Word) : kindOf (setStat d st r) = kindOf r := by
  cases d <;> simp [-BitVec.getLsbD_eq_getElem, kindOf, getLsbD_setStat, statPos]

@[simp] theorem typeOf_setStat (d : Dir) (st : Status) (r : Word) : typeOf (setStat d st r) = typeOf r := by
  unfold typeOf
  congr 1
  apply BitVec.eq_of_getLsbD_eq
  intro i hi
  have : i = 0 ∨ i = 1 := by omega
  rcases this with rfl | rfl <;> cases d <;> simp [-BitVec.getLsbD_eq_getElem, getLsbD_setStat, statPos]

@[simp] theorem eaOf_setStat (d : Dir) (st : Status) (r : Word) : eaOf (setStat d st r) = eaOf r := by
  apply BitVec.eq_of_getLsbD_eq
  intro i hi
  have : i = 0 ∨ i = 1 ∨ i = 2 ∨ i = 3 := by omega
  rcases this with rfl | rfl | rfl | rfl <;> cases d <;> simp [-BitVec.getLsbD_eq_getElem, eaOf, getLsbD_setStat, statPos]

@[simp] theorem ctrOf_setCtr (d : Dir) (r : Word) (e : Dir) : ctrOf e (setCtr d r) = (decide (e = d) || ctrOf e r) := by
  cases d <;> cases e <;> simp [-BitVec.getLsbD_eq_getElem, ctrOf, setCtr, ctrMask]

@[simp] theorem dtogOf_setCtr (d : Dir) (r : Word) (e : Dir) : dtogOf e (setCtr d r) = dtogOf e r := by
  cases d <;> cases e <;> simp [-BitVec.getLsbD_eq_getElem, dtogOf, setCtr, ctrMask]

@[simp] theorem setupOf_setCtr (d : Dir) (r : Word) : setupOf (setCtr d r) = setupOf r := by
  cases d <;> simp [-BitVec.getLsbD_eq_getElem, setupOf, setCtr, ctrMask]

@[simp] theorem kindOf_setCtr (d : Dir) (r : Word) : kindOf (setCtr d r) = kindOf r := by
  cases d <;> simp [-BitVec.getLsbD_eq_getElem, kindOf, setCtr, ctrMask]

@[simp] theorem statOf_setCtr (d : Dir) (r : Word) (e : Dir) : statOf e (setCtr d r) = statOf e r := by
  apply BitVec.eq_of_getLsbD_eq
  intro i hi
  have : i = 0 ∨ i = 1 := by omega
  rcases this with rfl | rfl <;> cases d <;> cases e <;> simp [-BitVec.getLsbD_eq_getElem, getLsbD_statOf, statPos, setCtr, ctrMask]

@[simp] theorem typeOf_setCtr (d : Dir) (r : Word) : typeOf (setCtr d r) = typeOf r := by
  unfold typeOf
  congr 1
  apply BitVec.eq_of_getLsbD_eq
  intro i hi
  have : i = 0 ∨ i = 1 := by omega
  rcases this with rfl | rfl <;> cases d <;> simp [-BitVec.getLsbD_eq_getElem, setCtr, ctrMask]

@[simp] theorem eaOf_setCtr (d : Dir) (r : Word) : eaOf (setCtr d r) = eaOf r := by
  apply BitVec.eq_of_getLsbD_eq
  intro i hi
  have : i = 0 ∨ i = 1 ∨ i = 2 ∨ i = 3 := by omega
  rcases this with rfl | rfl | rfl | rfl <;> cases d <;> simp [-BitVec.getLsbD_eq_getElem, eaOf, setCtr, ctrMask]

@[simp] theorem ctrOf_setSetup (b : Bool) (r : Word) (e : Dir) : ctrOf e (setSetup b r) = ctrOf e r := by
  cases b <;> cases e <;> simp [-BitVec.getLsbD_eq_getElem, ctrOf, setSetup]

@[simp] theorem dtogOf_setSetup (b : Bool) (r : Word) (e : Dir) : dtogOf e (setSetup b r) = dtogOf e r := by
  cases b <;> cases e <;> simp [-BitVec.getLsbD_eq_getElem, dtogOf, setSetup]

@[simp] theorem setupOf_setSetup (b : Bool) (r : Word) : setupOf (setSetup b r) = b := by
  cases b <;> simp [-BitVec.getLsbD_eq_getElem, setupOf, setSetup]

@[simp] theorem kindOf_setSetup (b : Bool) (r : Word) : kindOf (setSetup b r) = kindOf r := by
  cases b <;> simp [-BitVec.getLsbD_eq_getElem, kindOf, setSetup]

@[simp] theorem statOf_setSetup (b : Bool) (r : Word) (e : Dir) : statOf e (setSetup b r) = statOf e r := by
  apply BitVec.eq_of_getLsbD_eq
  intro i hi
  have : i = 0 ∨ i = 1 := by omega
  rcases this with rfl | rfl <;> cases b <;> cases e <;> simp [-BitVec.getLsbD_eq_getElem, getLsbD_statOf, statPos, setSetup]

@[simp] theorem typeOf_setSetup (b : Bool) (r : Word) : typeOf (setSetup b r) = typeOf r := by
  unfold typeOf
  congr 1
  apply BitVec.eq_of_getLsbD_eq
  intro i hi
  have : i = 0 ∨ i = 1 := by omega
  rcases this with rfl | rfl <;> cases b <;> simp [-BitVec.getLsbD_eq_getElem, setSetup]

@[simp] theorem eaOf_setSetup (b : Bool) (r : Word) : eaOf (setSetup b r) = eaOf r := by
  apply BitVec.eq_of_getLsbD_eq
  intro i hi
  have : i = 0 ∨ i = 1 ∨ i = 2 ∨ i = 3 := by omega
  rcases this with rfl | rfl | rfl | rfl <;> cases b <;> simp [-BitVec.getLsbD_eq_getElem, eaOf, setSetup]

@[simp] theorem ctrOf_flipDtog (d : Dir) (r : Word) (e : Dir) : ctrOf e (flipDtog d r) = ctrOf e r := by
  cases d <;> cases e <;> simp [-BitVec.getLsbD_eq_getElem, ctrOf, flipDtog, dtogMask]

@[simp] theorem dtogOf_flipDtog (d : Dir) (r : Word) (e : Dir) : dtogOf e (flipDtog d r) = (decide (e = d) ^^ dtogOf e r) := by
  cases d <;> cases e <;> simp [-BitVec.getLsbD_eq_getElem, dtogOf, flipDtog, dtogMask]

@[simp] theorem setupOf_flipDtog (d : Dir) (r : Word) : setupOf (flipDtog d r) = setupOf r := by
  cases d <;> simp [-BitVec.getLsbD_eq_getElem, setupOf, flipDtog, dtogMask]

@[simp] theorem kindOf_flipDtog (d : Dir) (r : Word) : kindOf (flipDtog d r) = kindOf r := by
  cases d <;> simp [-BitVec.getLsbD_eq_getElem, kindOf, flipDtog, dtogMask]

@[simp] theorem statOf_flipDtog (d : Dir) (r : Word) (e : Dir) : statOf e (flipDtog d r) = statOf e r := by
  apply BitVec.eq_of_getLsbD_eq
  intro i hi
  have : i = 0 ∨ i = 1 := by omega
  rcases this with rfl | rfl <;> cases d <;> cases e <;> simp [-BitVec.getLsbD_eq_getElem, getLsbD_statOf, statPos, flipDtog, dtogMask]

@[simp] theorem typeOf_flipDtog (d : Dir) (r : Word) : typeOf (flipDtog d r) = typeOf r := by
  unfold typeOf
  congr 1
  apply BitVec.eq_of_getLsbD_eq
  intro i hi
  have : i = 0 ∨ i = 1 := by omega
  rcases this with rfl | rfl <;> cases d <;> simp [-BitVec.getLsbD_eq_getElem, flipDtog, dtogMask]

@[simp] theorem eaOf_flipDtog (d : Dir) (r : Word) : eaOf (flipDtog d r) = eaOf r := by
  apply BitVec.eq_of_getLsbD_eq
  intro i hi
  have : i = 0 ∨ i = 1 ∨ i = 2 ∨ i = 3 := by omega
  rcases this with rfl | rfl | rfl | rfl <;> cases d <;> simp [-BitVec.getLsbD_eq_getElem, eaOf, flipDtog, dtogMask]

@[simp] theorem ctrOf_setDtog (d : Dir) (r : Word) (e : Dir) : ctrOf e (setDtog d r) = ctrOf e r := by
  cases d <;> cases e <;> simp [-BitVec.getLsbD_eq_getElem, ctrOf, setDtog, dtogMask]

@[simp] theorem dtogOf_setDtog (d : Dir) (r : Word) (e : Dir) : dtogOf e (setDtog d r) = (decide (e = d) || dtogOf e r) := by
  cases d <;> cases e <;> simp [-BitVec.getLsbD_eq_getElem, dtogOf, setDtog, dtogMask]

@[simp] theorem setupOf_setDtog (d : Dir) (r : Word) : setupOf (setDtog d r) = setupOf r := by
  cases d <;> simp [-BitVec.getLsbD_eq_getElem, setupOf, setDtog, dtogMask]

@[simp] theorem kindOf_setDtog (d : Dir) (r : Word) : kindOf (setDtog d r) = kindOf r := by
  cases d <;> simp [-BitVec.getLsbD_eq_getElem, kindOf, setDtog, dtogMask]

@[simp] theorem statOf_setDtog (d : Dir) (r : Word) (e : Dir) : statOf e (setDtog d r) = statOf e r := by
  apply BitVec.eq_of_getLsbD_eq
  intro i hi
  have : i = 0 ∨ i = 1 := by omega
  rcases this with rfl | rfl <;> cases d <;> cases e <;> simp [-BitVec.getLsbD_eq_getElem, getLsbD_statOf, statPos, setDtog, dtogMask]

@[simp] theorem typeOf_setDtog (d : Dir) (r : Word) : typeOf (setDtog d r) = typeOf r := by
  unfold typeOf
  congr 1
  apply BitVec.eq_of_getLsbD_eq
  intro i hi
  have : i = 0 ∨ i = 1 := by omega
  rcases this with rfl | rfl <;> cases d <;> simp [-BitVec.getLsbD_eq_getElem, setDtog, dtogMask]

@[simp] theorem eaOf_setDtog (d : Dir) (r : Word) : eaOf (setDtog d r) = eaOf r := by
  apply BitVec.eq_of_getLsbD_eq
  intro i hi
  have : i = 0 ∨ i = 1 ∨ i = 2 ∨ i = 3 := by omega
  rcases this with rfl | rfl | rfl | rfl <;> cases d <;> simp [-BitVec.getLsbD_eq_getElem, eaOf, setDtog, dtogMask]

/-! ## The count of a received packet (R304) -/

/-- The count field of the word is the count. -/
theorem countField_withCount (cnt : Word) (n : Nat) (h : n < 1024) : countField (withCount cnt n) = n := by
  have e : (withCount cnt n).extractLsb' 0 10 = BitVec.ofNat 10 n := by
    apply BitVec.eq_of_getLsbD_eq
    intro i hi
    have h1 : (0xFC00 : Word).getLsbD i = false := by revert i; decide
    have h2 : (0x03FF : Word).getLsbD i = true := by revert i; decide
    have h16 : i < 16 := by omega
    rw [BitVec.getLsbD_extractLsb', Nat.zero_add]
    simp only [withCount, BitVec.getLsbD_or, BitVec.getLsbD_and, h1, h2, BitVec.getLsbD_ofNat, h16, hi, Bool.and_false,
      Bool.false_or, Bool.and_true, decide_true, Bool.true_and]
  rw [countField, e, BitVec.toNat_ofNat]
  omega

/-- Bits 15 to 10 stay. -/
theorem blocks_withCount (cnt : Word) (n : Nat) : (withCount cnt n).extractLsb' 10 6 = cnt.extractLsb' 10 6 := by
  apply BitVec.eq_of_getLsbD_eq
  intro i hi
  have h1 : (0xFC00 : Word).getLsbD (10 + i) = true := by revert i; decide
  have h2 : (0x03FF : Word).getLsbD (10 + i) = false := by revert i; decide
  simp only [withCount, BitVec.getLsbD_extractLsb', BitVec.getLsbD_or, BitVec.getLsbD_and, h1, h2, Bool.and_true,
    Bool.and_false, Bool.or_false]

/-- No declared capacity exceeds 1024 bytes (R120). -/
theorem capacity_le (w : Word) : capacity w ≤ 1024 := by
  unfold capacity
  have := (w.extractLsb' 10 5).isLt
  split <;> omega

/-! ## The slot a transaction reaches (R301) -/

theorem route_eq_none {s : State} {e : BitVec 4} (h : ∀ n : Slot, eaOf (s.eprAt n) ≠ e) : s.route e = none := by
  unfold State.route
  rw [List.find?_eq_none]
  intro n _
  simpa using h n

theorem route_eq_some {s : State} {e : BitVec 4} (n : Slot) (h : eaOf (s.eprAt n) = e)
    (hl : ∀ m : Slot, m < n → eaOf (s.eprAt m) ≠ e) : s.route e = some n := by
  unfold State.route allSlots
  have hx : ∀ m : Slot, (eaOf (s.eprAt m) == e) =
      if m = n then true else if m < n then false else (eaOf (s.eprAt m) == e) := by
    intro m
    split
    · rename_i hm; subst hm; simpa using h
    · split
      · rename_i hm; simpa using hl m hm
      · rfl
  simp only [List.find?_cons]
  match n with
  | 0 | 1 | 2 | 3 | 4 | 5 | 6 | 7 => simp [hx]

theorem transaction_reaches {s : State} {e : BitVec 4} {n : Slot} (ha : s.answering = true) (hr : s.route e = some n)
    (hi : typeOf (s.eprAt n) ≠ .isochronous) (k : Slot → Act Unit) : transaction e s k = k n := by
  simp [transaction, ha, hr, hi]

/-! ## Packet memory after a reception (R304) -/

theorem byte_receivedPma (s : State) (n : Slot) (data : List Byte) (cnt a : Word) (hl : data.length ≤ capacity cnt)
    (x : Nat) (h1 : x ≠ s.btable.toNat + 8 * n.val + 6) (h2 : x ≠ s.btable.toNat + 8 * n.val + 7) :
    Memory.byte (receivedPma s n data cnt a) x =
      if bufferOffset a ≤ x ∧ x < bufferOffset a + data.length then data[x - bufferOffset a]?
      else if bufferOffset a + data.length ≤ x ∧ x < bufferOffset a + capacity cnt then none
      else Memory.byte s.pma x := by
  unfold receivedPma
  have : bdOffset s.btable.toNat n .countRx = s.btable.toNat + 8 * n.val + 6 := by simp [bdOffset, BdField.offset]
  rw [this, Memory.byte_putPmaWord, if_neg (by omega), if_neg (by omega), Memory.byte_eraseAll, Memory.byte_putAll]
  by_cases c1 : bufferOffset a ≤ x ∧ x < bufferOffset a + data.length
  · rw [if_pos c1, if_pos c1, if_neg (by omega)]
  · rw [if_neg c1, if_neg c1]
    by_cases c2 : bufferOffset a + data.length ≤ x ∧ x < bufferOffset a + capacity cnt
    · rw [if_pos c2, if_pos (by omega)]
    · rw [if_neg c2, if_neg (by omega)]

end Sys2Proof.Machine
end

