-- ==== Sys2Proof/Laws/PerInstr.lean ====
section
/-! SUPPORT. Statements made of every instruction as syntax, one lemma a constructor. Family TableBits: the encoded command
carries the bits the opcode table gives its row. -/

namespace Sys2Proof.Laws.TableBits

/-- The encoded command of a call begins with its selector (R125). -/
def Selects (i : Instr) (sel : Byte) : Prop := ∃ args, encode i = ⟨.call, sel :: args⟩

/-- The encoded command of a written word holds a word that has the row's fixed bits, and the row's tag
(R114, R115, R117; log entry 3). -/
def Writes (i : Instr) (r : WordRow) : Prop :=
  ∃ w slot, encode i = ⟨.word, putWord w ++ (r.tag :: slot)⟩ ∧ w &&& r.fixedBits.1 = r.fixedBits.2

/-- The encoded command carries its row's bits. -/
def Statement : Instr → Prop
  | .construct resetCap => Selects (.construct resetCap) 0x00
  | .pmaAllocate size => Selects (.pmaAllocate size) 0x01
  | .pmaDescriptor n => Selects (.pmaDescriptor n) 0x02
  | .pmaRead off len => Selects (.pmaRead off len) 0x03
  | .pmaWrite off src => Selects (.pmaWrite off src) 0x04
  | .encodeReceiveSize size => Selects (.encodeReceiveSize size) 0x05
  | .epConfigure n t => Selects (.epConfigure n t) 0x10
  | .epSetStatus n d st => Selects (.epSetStatus n d st) 0x11
  | .epClearCtr n d => Selects (.epClearCtr n d) 0x12
  | .epSnapshot n => Selects (.epSnapshot n) 0x13
  | .eprWrite n w => Selects (.eprWrite n w) 0x18
  | .istrWrite w => Selects (.istrWrite w) 0x19
  | .allocateEndpoint d req t mps => Selects (.allocateEndpoint d req t mps) 0x20
  | .reset => Selects (.reset) 0x30
  | .write addr src => Selects (.write addr src) 0x31
  | .read addr len => Selects (.read addr len) 0x32
  | .stall addr => Selects (.stall addr) 0x33
  | .unstall addr => Selects (.unstall addr) 0x34
  | .poll => Selects (.poll) 0x40
  | .enable => Selects (.enable) 0x50
  | .setDeviceAddress a => Selects (.setDeviceAddress a) 0x51
  | .suspend => Selects (.suspend) 0x52
  | .resume => Selects (.resume) 0x53
  | .forceReset => Selects (.forceReset) 0x54
  | .busReset => Selects (.busReset) 0x80
  | .busOut e data fresh => Selects (.busOut e data fresh) 0x81
  | .busSetup e data => Selects (.busSetup e data) 0x82
  | .busIn e acked => Selects (.busIn e acked) 0x83
  | .busSuspend => Selects (.busSuspend) 0x84
  | .busWakeup dp dm => Selects (.busWakeup dp dm) 0x85
  | .busLine dp dm => Selects (.busLine dp dm) 0x86
  | .busOtherEvent which => Selects (.busOtherEvent which) 0x87
  | .epwConfigure t k n => Writes (.epwConfigure t k n) .configure
  | .epwSetStatusOut slot ss t k a => Writes (.epwSetStatusOut slot ss t k a) .setStatusOut
  | .epwSetStatusIn slot ss t k a => Writes (.epwSetStatusIn slot ss t k a) .setStatusIn
  | .epwClearCtrOut slot t k a => Writes (.epwClearCtrOut slot t k a) .clearCtrOut
  | .epwClearCtrIn slot t k a => Writes (.epwClearCtrIn slot t k a) .clearCtrIn
  | .istrwClearWkup => Writes (.istrwClearWkup) .clearWkup
  | .istrwClearReset => Writes (.istrwClearReset) .clearReset
  | .istrwClearSusp => Writes (.istrwClearSusp) .clearSusp
  | .istrwClearAll => Writes (.istrwClearAll) .clearAll
  | .daddrwSet a => Writes (.daddrwSet a) .daddrSet

/-- A word that fits a row has the row's fixed bits. -/
theorem fits_eq {r : WordRow} {w : Word} (h : r.fits w = true) : w &&& r.fixedBits.1 = r.fixedBits.2 := by
  simpa [WordRow.fits] using h

theorem construct (resetCap : Option ResetCap) : Statement (.construct resetCap) := ⟨_, rfl⟩

theorem pmaAllocate (size : Nat) : Statement (.pmaAllocate size) := ⟨_, rfl⟩

theorem pmaDescriptor (n : Nat) : Statement (.pmaDescriptor n) := ⟨_, rfl⟩

theorem pmaRead (off : Nat) (len : Nat) : Statement (.pmaRead off len) := ⟨_, rfl⟩

theorem pmaWrite (off : Nat) (src : List Byte) : Statement (.pmaWrite off src) := ⟨_, rfl⟩

theorem encodeReceiveSize (size : Nat) : Statement (.encodeReceiveSize size) := ⟨_, rfl⟩

theorem epConfigure (n : Nat) (t : EpType) : Statement (.epConfigure n t) := ⟨_, rfl⟩

theorem epSetStatus (n : Nat) (d : Dir) (st : Status) : Statement (.epSetStatus n d st) := ⟨_, rfl⟩

theorem epClearCtr (n : Nat) (d : Dir) : Statement (.epClearCtr n d) := ⟨_, rfl⟩

theorem epSnapshot (n : Nat) : Statement (.epSnapshot n) := ⟨_, rfl⟩

theorem eprWrite (n : Nat) (w : Word) : Statement (.eprWrite n w) := ⟨_, rfl⟩

theorem istrWrite (w : Word) : Statement (.istrWrite w) := ⟨_, rfl⟩

theorem allocateEndpoint (d : Dir) (req : Option Byte) (t : EpType) (mps : Nat) : Statement (.allocateEndpoint d req t mps) := ⟨_, rfl⟩

theorem reset : Statement (.reset) := ⟨_, rfl⟩

theorem write (addr : Byte) (src : List Byte) : Statement (.write addr src) := ⟨_, rfl⟩

theorem read (addr : Byte) (len : Nat) : Statement (.read addr len) := ⟨_, rfl⟩

theorem stall (addr : Byte) : Statement (.stall addr) := ⟨_, rfl⟩

theorem unstall (addr : Byte) : Statement (.unstall addr) := ⟨_, rfl⟩

theorem poll : Statement (.poll) := ⟨_, rfl⟩

theorem enable : Statement (.enable) := ⟨_, rfl⟩

theorem setDeviceAddress (a : Byte) : Statement (.setDeviceAddress a) := ⟨_, rfl⟩

theorem suspend : Statement (.suspend) := ⟨_, rfl⟩

theorem resume : Statement (.resume) := ⟨_, rfl⟩

theorem forceReset : Statement (.forceReset) := ⟨_, rfl⟩

theorem busReset : Statement (.busReset) := ⟨_, rfl⟩

theorem busOut (e : BitVec 4) (data : List Byte) (fresh : Bool) : Statement (.busOut e data fresh) := ⟨_, rfl⟩

theorem busSetup (e : BitVec 4) (data : Vector Byte 8) : Statement (.busSetup e data) := ⟨_, rfl⟩

theorem busIn (e : BitVec 4) (acked : Bool) : Statement (.busIn e acked) := ⟨_, rfl⟩

theorem busSuspend : Statement (.busSuspend) := ⟨_, rfl⟩

theorem busWakeup (dp : Bool) (dm : Bool) : Statement (.busWakeup dp dm) := ⟨_, rfl⟩

theorem busLine (dp : Bool) (dm : Bool) : Statement (.busLine dp dm) := ⟨_, rfl⟩

theorem busOtherEvent (which : OtherEvent) : Statement (.busOtherEvent which) := ⟨_, rfl⟩

theorem epwConfigure (t : EpType) (k : Bool) (n : BitVec 4) :
    Statement (.epwConfigure t k n) := ⟨_, _, rfl, fits_eq (fits_epwConfigureWord t k n)⟩

theorem epwSetStatusOut (slot : Nat) (ss : BitVec 2) (t : EpType) (k : Bool) (a : BitVec 4) :
    Statement (.epwSetStatusOut slot ss t k a) := ⟨_, _, rfl, fits_eq (fits_epwSetStatusOutWord ss t k a)⟩

theorem epwSetStatusIn (slot : Nat) (ss : BitVec 2) (t : EpType) (k : Bool) (a : BitVec 4) :
    Statement (.epwSetStatusIn slot ss t k a) := ⟨_, _, rfl, fits_eq (fits_epwSetStatusInWord ss t k a)⟩

theorem epwClearCtrOut (slot : Nat) (t : EpType) (k : Bool) (a : BitVec 4) :
    Statement (.epwClearCtrOut slot t k a) := ⟨_, _, rfl, fits_eq (fits_epwClearCtrOutWord t k a)⟩

theorem epwClearCtrIn (slot : Nat) (t : EpType) (k : Bool) (a : BitVec 4) :
    Statement (.epwClearCtrIn slot t k a) := ⟨_, _, rfl, fits_eq (fits_epwClearCtrInWord t k a)⟩

theorem istrwClearWkup :
    Statement (.istrwClearWkup) := ⟨_, _, rfl, (by decide)⟩

theorem istrwClearReset :
    Statement (.istrwClearReset) := ⟨_, _, rfl, (by decide)⟩

theorem istrwClearSusp :
    Statement (.istrwClearSusp) := ⟨_, _, rfl, (by decide)⟩

theorem istrwClearAll :
    Statement (.istrwClearAll) := ⟨_, _, rfl, (by decide)⟩

theorem daddrwSet (a : BitVec 7) :
    Statement (.daddrwSet a) := ⟨_, _, rfl, fits_eq (fits_daddrwSetWord a)⟩

end Sys2Proof.Laws.TableBits
end

