-- ==== Sys2Proof/Laws/Poll.lean ====
section
/-! SUPPORT. Laws of the interrupt flags, the scan masks, the slot loop of `reset` and the read-modify-write of CNTR, with no
bus step before an access. -/

namespace Sys2Proof.Machine

/-! ## The interrupt flags (R41, R42) -/

theorem getLsbD_istrFlags (s : State) (b : Nat) (h1 : 8 ≤ b) (h2 : b ≤ 14) :
    s.istrFlags.getLsbD b = s.istr.getLsbD b := by
  have hc : b = 8 ∨ b = 9 ∨ b = 10 ∨ b = 11 ∨ b = 12 ∨ b = 13 ∨ b = 14 := by omega
  unfold State.istrFlags
  rcases hc with rfl | rfl | rfl | rfl | rfl | rfl | rfl <;> cases s.anyCtr <;> simp [-BitVec.getLsbD_eq_getElem]

theorem getLsbD_istrFlags_ctr (s : State) : s.istrFlags.getLsbD 15 = s.anyCtr := by
  unfold State.istrFlags
  cases s.anyCtr <;> simp [-BitVec.getLsbD_eq_getElem]

/-! ## The scan (R286) -/

theorem getLsbD_slotBit (i : Slot) (b : Nat) : (slotBit i).getLsbD b = decide (i.val = b) := by
  unfold slotBit
  have := i.isLt
  simp only [Config.nEp] at this
  rw [BitVec.getLsbD_shiftLeft]
  by_cases h : b < 16
  · by_cases h1 : b < i.val
    · have : ¬ i.val = b := by omega
      simp [h1, this]
    · by_cases h2 : i.val = b
      · subst h2; simp [h]
      · have : b - i.val ≠ 0 := by omega
        simp [h1, h2, this, BitVec.getLsbD_one]
  · have : ¬ i.val = b := by omega
    simp [h, this]

/-- The masks after one endpoint register was looked at. -/
theorem getLsbD_add (m : ScanMasks) (i : Slot) (r : Word) (b : Nat) :
    ((m.add i r).out.getLsbD b = true ↔ m.out.getLsbD b = true ∨ (i.val = b ∧ ctrOf .out r = true)) ∧
    ((m.add i r).inn.getLsbD b = true ↔ m.inn.getLsbD b = true ∨ (i.val = b ∧ ctrOf .inn r = true)) ∧
    ((m.add i r).setup.getLsbD b = true ↔
      m.setup.getLsbD b = true ∨ (i.val = b ∧ ctrOf .out r = true ∧ setupOf r = true)) := by
  unfold ScanMasks.add
  refine ⟨?_, ?_, ?_⟩
  · cases ctrOf .out r <;> simp [getLsbD_slotBit, -BitVec.getLsbD_eq_getElem]
  · cases ctrOf .inn r <;> simp [getLsbD_slotBit, -BitVec.getLsbD_eq_getElem]
  · cases ctrOf .out r <;> cases setupOf r <;> simp [getLsbD_slotBit, -BitVec.getLsbD_eq_getElem]

/-! ## Read-modify-writes of CNTR (R330) -/

theorem cntrUpdate_undisturbed {s : State} (h : s.sched = []) (f : Word → Word) :
    cntrUpdate f s = .done () (s.setCntr (gateCntr (f s.cntr))) := by
  unfold cntrUpdate
  rw [regRead_undisturbed h, Act.andThen_done, regWrite_undisturbed (by exact h)]
  rfl

/-! ## The slot loop of `reset` (R240) -/

/-- What `reset` leaves in a slot's endpoint register that held `r`. -/
def resetWord (s : State) (i : Slot) (r : Word) : Word :=
  match (s.epAt i).type with
  | none => r
  | some t =>
    let r1 := gateEpr r (configureWord r i t)
    let r2 := if (s.epAt i).out then gateEpr r1 (setStatusWord r1 .out .valid) else r1
    if (s.epAt i).inn then gateEpr r2 (setStatusWord r2 .inn .nak) else r2

theorem resetSlot_undisturbed {s : State} (h : s.sched = []) (i : Slot) :
    resetSlot i s = .done () (s.setEpr i (resetWord s i (s.eprAt i))) := by
  have hs (x : State) (hx : x.sched = []) := interleave_undisturbed hx
  unfold resetSlot resetWord
  cases ht : (s.epAt i).type with
  | none => simp [State.setEpr_self]
  | some t =>
    simp only
    rw [epConfigure_eq (hs s h) (hs s h), Act.andThen_done]
    have h1 : (s.setEpr i (gateEpr (s.eprAt i) (configureWord (s.eprAt i) i t))).sched = [] := h
    by_cases ho : (s.epAt i).out = true <;> by_cases hi : (s.epAt i).inn = true
    · rw [if_pos (by exact ho), epSetStatus_eq (hs _ h1) (hs _ h1), Act.andThen_done, if_pos (by exact hi),
        epSetStatus_eq (hs _ (by exact h)) (hs _ (by exact h))]
      simp [ho, hi, State.setEpr_setEpr]
    · rw [if_pos (by exact ho), epSetStatus_eq (hs _ h1) (hs _ h1), Act.andThen_done, if_neg (by exact hi)]
      simp [ho, hi, State.setEpr_setEpr]
    · rw [if_neg (by exact ho), Act.andThen_done, if_pos (by exact hi), epSetStatus_eq (hs _ h1) (hs _ h1)]
      simp [ho, hi, State.setEpr_setEpr]
    · rw [if_neg (by exact ho), Act.andThen_done, if_neg (by exact hi)]
      simp [ho, hi]

/-- The loop leaves every slot it visits with its word, and nothing else changed. -/
theorem resetSlots_undisturbed (l : List Slot) (hl : l.Nodup) (s : State) (h : s.sched = []) :
    ∃ t, resetSlots l s = .done () t ∧ t = { s with epr := t.epr } ∧
      ∀ n, t.eprAt n = if n ∈ l then resetWord s n (s.eprAt n) else s.eprAt n := by
  induction l generalizing s with
  | nil => exact ⟨s, rfl, rfl, by simp⟩
  | cons i l ih =>
    obtain ⟨hni, hl⟩ := List.nodup_cons.mp hl
    obtain ⟨t, h1, h2, h3⟩ := ih hl (s.setEpr i (resetWord s i (s.eprAt i))) h
    refine ⟨t, ?_, ?_, fun n => ?_⟩
    · unfold resetSlots
      rw [resetSlot_undisturbed h, Act.andThen_done, h1]
    · rw [h2]; rfl
    · rw [h3 n, show resetWord (s.setEpr i (resetWord s i (s.eprAt i))) n = resetWord s n from rfl]
      by_cases hn : n = i
      · subst hn; simp [hni]
      · rw [State.eprAt_setEpr_ne _ _ _ _ (Ne.symm hn)]; simp [hn]

end Sys2Proof.Machine
end

