-- ==== Sys2Proof/Tests/Slice0.lean ====
section
/-! SUPPORT. The model's own tests. Every expected value is the spec's: a word spelled from R112, R114, R115, R117 or a
selector of R125, or a vector of 95_test_vectors.md, named V-… or S… in the comment. -/

namespace Sys2Proof.Tests

open Sys2Proof Sys2Proof.Machine

/-! ## Well-formed terms: an ill-formed one for each check (R124: `u7` is 0 to 127) -/

theorem test_wf_pmaDescriptor : (Instr.pmaDescriptor 128).wellFormed = false := by decide
theorem test_wf_epConfigure : (Instr.epConfigure 128 .bulk).wellFormed = false := by decide
theorem test_wf_epSetStatus : (Instr.epSetStatus 128 .out .nak).wellFormed = false := by decide
theorem test_wf_epClearCtr : (Instr.epClearCtr 128 .inn).wellFormed = false := by decide
theorem test_wf_epSnapshot : (Instr.epSnapshot 128).wellFormed = false := by decide
theorem test_wf_eprWrite : (Instr.eprWrite 128 0).wellFormed = false := by decide
theorem test_wf_epwSetStatusOut : (Instr.epwSetStatusOut 128 0 .bulk false 0).wellFormed = false := by decide
theorem test_wf_epwSetStatusIn : (Instr.epwSetStatusIn 128 0 .bulk false 0).wellFormed = false := by decide
theorem test_wf_epwClearCtrOut : (Instr.epwClearCtrOut 128 .bulk false 0).wellFormed = false := by decide
theorem test_wf_epwClearCtrIn : (Instr.epwClearCtrIn 128 .bulk false 0).wellFormed = false := by decide

/-! ## Decoding: each constructor's word, and what is rejected by name -/

theorem test_decode_construct : decode ⟨.call, [0x00, 0x01, 0x05, 0xAC, 0x02]⟩ = .ok (.construct (some ⟨5, 300⟩)) := by decide
theorem test_decode_pmaAllocate : decode ⟨.call, [0x01, 0xC0, 0x03]⟩ = .ok (.pmaAllocate 448) := by decide
theorem test_decode_pmaDescriptor : decode ⟨.call, [0x02, 0x08]⟩ = .ok (.pmaDescriptor 8) := by decide
theorem test_decode_pmaRead : decode ⟨.call, [0x03, 0x80, 0x02, 0x03]⟩ = .ok (.pmaRead 256 3) := by decide
theorem test_decode_pmaWrite : decode ⟨.call, [0x04, 0x80, 0x02, 0x02, 0xAA, 0xBB]⟩ = .ok (.pmaWrite 256 [0xAA, 0xBB]) := by decide
theorem test_decode_encodeReceiveSize : decode ⟨.call, [0x05, 0x3F]⟩ = .ok (.encodeReceiveSize 63) := by decide
theorem test_decode_epConfigure : decode ⟨.call, [0x10, 0x03, 0x03]⟩ = .ok (.epConfigure 3 .interrupt) := by decide
theorem test_decode_epSetStatus : decode ⟨.call, [0x11, 0x01, 0x00, 0x02]⟩ = .ok (.epSetStatus 1 .out .nak) := by decide
theorem test_decode_epClearCtr : decode ⟨.call, [0x12, 0x07, 0x01]⟩ = .ok (.epClearCtr 7 .inn) := by decide
theorem test_decode_epSnapshot : decode ⟨.call, [0x13, 0x7F]⟩ = .ok (.epSnapshot 127) := by decide
theorem test_decode_eprWrite : decode ⟨.call, [0x18, 0x01, 0x81, 0xA0]⟩ = .ok (.eprWrite 1 0xA081) := by decide
theorem test_decode_istrWrite : decode ⟨.call, [0x19, 0xFF, 0xEF]⟩ = .ok (.istrWrite 0xEFFF) := by decide
theorem test_decode_allocate : decode ⟨.call, [0x20, 0x01, 0x00, 0x00, 0x40]⟩ =
    .ok (.allocateEndpoint .inn none .bulk 64) := by decide
theorem test_decode_reset : decode ⟨.call, [0x30]⟩ = .ok .reset := by decide
theorem test_decode_write : decode ⟨.call, [0x31, 0x81, 0x01, 0x07]⟩ = .ok (.write 0x81 [0x07]) := by decide
theorem test_decode_read : decode ⟨.call, [0x32, 0x01, 0x40]⟩ = .ok (.read 0x01 64) := by decide
theorem test_decode_stall : decode ⟨.call, [0x33, 0x81]⟩ = .ok (.stall 0x81) := by decide
theorem test_decode_unstall : decode ⟨.call, [0x34, 0x01]⟩ = .ok (.unstall 0x01) := by decide
theorem test_decode_poll : decode ⟨.call, [0x40]⟩ = .ok .poll := by decide
theorem test_decode_enable : decode ⟨.call, [0x50]⟩ = .ok .enable := by decide
theorem test_decode_setDeviceAddress : decode ⟨.call, [0x51, 0x80]⟩ = .ok (.setDeviceAddress 128) := by decide
theorem test_decode_suspend : decode ⟨.call, [0x52]⟩ = .ok .suspend := by decide
theorem test_decode_resume : decode ⟨.call, [0x53]⟩ = .ok .resume := by decide
theorem test_decode_forceReset : decode ⟨.call, [0x54]⟩ = .ok .forceReset := by decide
theorem test_decode_busReset : decode ⟨.call, [0x80]⟩ = .ok .busReset := by decide
theorem test_decode_busOut : decode ⟨.call, [0x81, 0x0F, 0x01, 0x09, 0x00]⟩ = .ok (.busOut 15 [0x09] false) := by decide
theorem test_decode_busSetup : decode ⟨.call, [0x82, 0x00, 1, 2, 3, 4, 5, 6, 7, 8]⟩ =
    .ok (.busSetup 0 #v[1, 2, 3, 4, 5, 6, 7, 8]) := by decide
theorem test_decode_busIn : decode ⟨.call, [0x83, 0x01, 0x01]⟩ = .ok (.busIn 1 true) := by decide
theorem test_decode_busSuspend : decode ⟨.call, [0x84]⟩ = .ok .busSuspend := by decide
theorem test_decode_busWakeup : decode ⟨.call, [0x85, 0x00, 0x01]⟩ = .ok (.busWakeup false true) := by decide
theorem test_decode_busLine : decode ⟨.call, [0x86, 0x01, 0x00]⟩ = .ok (.busLine true false) := by decide
theorem test_decode_busOtherEvent : decode ⟨.call, [0x87, 0x02]⟩ = .ok (.busOtherEvent .sof) := by decide
/-- 0x8783 is 1 0 00 0 11 1 1 0 00 0011 (V-V12). -/
theorem test_decode_epwConfigure : decode ⟨.word, [0x83, 0x87, 1, 0]⟩ = .ok (.epwConfigure .interrupt true 3) := by decide
/-- 0xB280 is 1 0 11 0 01 0 1 0 00 0000 (V-O1). -/
theorem test_decode_epwSetStatusOut : decode ⟨.word, [0x80, 0xB2, 0, 0]⟩ =
    .ok (.epwSetStatusOut 0 0b11 .control false 0) := by decide
/-- 0x80A1 is 1 0 00 0 00 0 1 0 10 0001 (V-O1). -/
theorem test_decode_epwSetStatusIn : decode ⟨.word, [0xA1, 0x80, 0, 1]⟩ = .ok (.epwSetStatusIn 1 0b10 .bulk false 1) := by decide
/-- 0x0081 is 0 0 00 0 00 0 1 0 00 0001 (V-V1). -/
theorem test_decode_epwClearCtrOut : decode ⟨.word, [0x81, 0x00, 0, 1]⟩ = .ok (.epwClearCtrOut 1 .bulk false 1) := by decide
/-- 0x8200 is 1 0 00 0 01 0 0 0 00 0000 (V-Q5). -/
theorem test_decode_epwClearCtrIn : decode ⟨.word, [0x00, 0x82, 0, 0]⟩ = .ok (.epwClearCtrIn 0 .control false 0) := by decide
theorem test_decode_istrwClearWkup : decode ⟨.word, [0xFF, 0xEF, 0, 0]⟩ = .ok .istrwClearWkup := by decide
theorem test_decode_istrwClearReset : decode ⟨.word, [0xFF, 0xFB, 0, 0]⟩ = .ok .istrwClearReset := by decide
theorem test_decode_istrwClearSusp : decode ⟨.word, [0xFF, 0xF7, 0, 0]⟩ = .ok .istrwClearSusp := by decide
theorem test_decode_istrwClearAll : decode ⟨.word, [0x00, 0x00, 0, 0]⟩ = .ok .istrwClearAll := by decide
/-- 0x0085 is 000000001 0000101; the word of `ep_clear_ctr(n, Out)` with EA 5 too, so the row is named. -/
theorem test_decode_daddrwSet : decode ⟨.word, [0x85, 0x00, 10, 0]⟩ = .ok (.daddrwSet 5) := by decide

theorem test_reject_selector : decode ⟨.call, [0x06]⟩ = .error .unknownSelector := by decide
theorem test_reject_word : decode ⟨.word, [0x34, 0x12, 0, 0]⟩ = .error .unknownWord := by decide
theorem test_reject_truncated : decode ⟨.call, [0x13]⟩ = .error .truncated := by decide
theorem test_reject_u7 : decode ⟨.call, [0x13, 0x80]⟩ = .error .badOperand := by decide
theorem test_reject_trailing : decode ⟨.call, [0x30, 0x01]⟩ = .error .trailing := by decide

/-! ## States of the vectors -/

/-- State C of 95_test_vectors.md: the driver constructed after a system reset. -/
def stateC : State := State.reset

/-- State B of 95_test_vectors.md: a configured device. -/
def stateB : State := { State.reset with
  epr := #v[0x3220, 0x3021, 0, 0, 0, 0, 0, 0], cntr := 0x9C00, daddr := 0x0080
  pma := [(0, 0x80), (1, 0), (2, 0), (3, 0), (4, 0x40), (5, 0), (6, 0), (7, 0x84)] ++
    [(8, 0), (9, 0x01), (10, 0), (11, 0), (12, 0xC0), (13, 0), (14, 0), (15, 0x84)]
  ep := #v[⟨some .control, true, true⟩, ⟨some .bulk, true, true⟩, ⟨none, false, false⟩, ⟨none, false, false⟩,
    ⟨none, false, false⟩, ⟨none, false, false⟩, ⟨none, false, false⟩, ⟨none, false, false⟩]
  rxCap := #v[64, 64, 0, 0, 0, 0, 0, 0], txCap := #v[64, 64, 0, 0, 0, 0, 0, 0]
  nextFree := 320, maxIndex := 1, phase := .enabled }

/-- A state with one endpoint register given. -/
def withEpr (n : Slot) (w : Word) : State := stateC.setEpr n w

/-- The outcome is a next state of which `f` holds. -/
def next (o : Host.Outcome State Fault Refusal) (f : State → Bool) : Bool :=
  match o with
  | .next t => f t
  | .fault _ => false
  | .refused _ => false

/-- The outcome is a next state that carries the error. -/
def fails (o : Host.Outcome State Fault Refusal) (k : ErrorKind) : Bool := next o fun t => t.result == .error k

/-- The outcome is the fault. -/
def faults (o : Host.Outcome State Fault Refusal) (f : Fault) : Bool :=
  match o with
  | .next _ => false
  | .fault g => g == f
  | .refused _ => false

/-! ## The gates -/

/-- V-G1, V-G5, V-G6 and V-G8. -/
theorem test_gate_epr : gateEpr 0xE021 0x0081 = 0x6021 ∧ gateEpr 0xB0B1 0x0000 = 0x3030 ∧
    gateEpr 0xB0B1 0xFFFF = 0xC7CF ∧ gateEpr 0x7071 0x4040 = 0x3030 := by decide

/-- V-I1 and V-I6: CTR cannot be cleared in ISTR. -/
theorem test_istrWrite : next (exec (.istrWrite 0xEFFF) (stateC.setIstr 0x7F00)) (fun t => t.istr == 0x6F00) ∧
    next (exec (.istrWrite 0x0000) (withEpr 1 0xE021)) (fun t => t.istrFlags == 0x8000) := by decide

/-- V-I7, V-I8 and V-I9. -/
theorem test_gate_plain : gateCntr 0xFFFF = 0xFF1F ∧ gateDaddr 0x1285 = 0x0085 ∧ gateBtable 0x01FF = 0x01F8 := by decide

/-! ## The register view -/

/-- V-V12. -/
theorem test_epConfigure : next (exec (.epConfigure 3 .interrupt) (withEpr 3 0x0100)) (fun t => t.eprAt 3 == 0x0703) := by decide

/-- V-V: `ep_set_status(1, Out, Stall)` from Nak, and `(1, In, Disabled)` from Valid. -/
theorem test_epSetStatus : next (exec (.epSetStatus 1 .out .stall) (withEpr 1 0x2021)) (fun t => t.eprAt 1 == 0x1021) ∧
    next (exec (.epSetStatus 1 .inn .disabled) (withEpr 1 0x3031)) (fun t => t.eprAt 1 == 0x3001) := by decide

/-- V-V5 and V-V6. -/
theorem test_epClearCtr : next (exec (.epClearCtr 1 .out) (withEpr 1 0xF0B1)) (fun t => t.eprAt 1 == 0x70B1) ∧
    next (exec (.epClearCtr 1 .inn) (withEpr 1 0xF0B1)) (fun t => t.eprAt 1 == 0xF031) := by decide

/-- `ep_snapshot(1)` in state B. -/
theorem test_epSnapshot : next (exec (.epSnapshot 1) stateB) (fun t => t.result == .register 0x3021) := by decide

/-- R152's race: CTR_RX arrives between the read and the keep word. -/
theorem test_eprWrite : next (exec (.eprWrite 1 0x8081) (withEpr 1 0xE021)) (fun t => t.eprAt 1 == 0xE021) ∧
    faults (exec (.eprWrite 8 0) stateB) .noSuchRegister := by decide

/-- The words of V-V7, V-G3, V-G4 and V-V1, V-V4. -/
theorem test_epw : next (exec (.epwConfigure .control false 0) stateC) (fun t => t.eprAt 0 == 0x0200) ∧
    next (exec (.epwSetStatusOut 1 0b10 .bulk false 1) (withEpr 1 0x3021)) (fun t => t.eprAt 1 == 0x1021) ∧
    next (exec (.epwSetStatusIn 1 0b10 .bulk false 1) (withEpr 1 0x3031)) (fun t => t.eprAt 1 == 0x3011) ∧
    next (exec (.epwClearCtrOut 1 .bulk false 1) (withEpr 1 0xE021)) (fun t => t.eprAt 1 == 0x6021) ∧
    next (exec (.epwClearCtrIn 1 .bulk false 1) (withEpr 1 0x70A1)) (fun t => t.eprAt 1 == 0x7021) := by decide

/-- V-I1, V-I3, V-I5, V-I2 and V-C3's word. -/
theorem test_istrw_daddrw : next (exec .istrwClearWkup (stateC.setIstr 0x7F00)) (fun t => t.istr == 0x6F00) ∧
    next (exec .istrwClearReset (stateC.setIstr 0x1C00)) (fun t => t.istr == 0x1800) ∧
    next (exec .istrwClearSusp (stateC.setIstr 0x0800)) (fun t => t.istr == 0x0000) ∧
    next (exec .istrwClearAll (stateC.setIstr 0x7F00)) (fun t => t.istr == 0x0000) ∧
    next (exec (.daddrwSet 5) stateB) (fun t => t.daddr == 0x0085) := by decide

/-! ## Packet memory -/

/-- V-P1, V-P3 and V-P5. -/
theorem test_pmaAllocate : next (exec (.pmaAllocate 7) stateC) (fun t => t.nextFree == 72 && t.result == .offset 64) ∧
    next (exec (.pmaAllocate 448) stateC) (fun t => t.nextFree == 512) ∧
    fails (exec (.pmaAllocate 449) stateC) .endpointOverflow := by decide

/-- V-P15 and V-P16. -/
theorem test_pmaDescriptor : next (exec (.pmaDescriptor 1) stateC) (fun t => t.result == .descriptor ⟨8, 10, 12, 14⟩) ∧
    faults (exec (.pmaDescriptor 8) stateC) .noSuchDescriptor := by decide

/-- V-P6 and V-P10. -/
theorem test_pmaWrite : next (exec (.pmaWrite 256 [0xAA, 0xBB, 0xCC]) stateC) (fun t =>
      t.pma == [(256, 0xAA), (257, 0xBB), (258, 0xCC), (259, 0x00)]) ∧
    faults (exec (.pmaWrite 511 [0x01]) stateC) .pmaMisaligned := by decide

/-- V-P14 and V-P11, V-P12. -/
theorem test_pmaRead : next (exec (.pmaRead 192 3) (stateC.setPma [(192, 0x68), (193, 0x69), (194, 0x21), (195, 0x0A)]))
      (fun t => t.result == .bytes [0x68, 0x69, 0x21]) ∧
    faults (exec (.pmaRead 510 2) stateC) .undefRead ∧ faults (exec (.pmaRead 512 2) stateC) .pmaOutOfRange := by decide

/-- V-E1 to V-E4, at the corners of both ranges. -/
theorem test_encodeReceiveSize : next (exec (.encodeReceiveSize 62) stateC) (fun t => t.result == .encoded 62 0x7C00) ∧
    next (exec (.encodeReceiveSize 63) stateC) (fun t => t.result == .encoded 64 0x8400) ∧
    next (exec (.encodeReceiveSize 1024) stateC) (fun t => t.result == .encoded 1024 0xFC00) ∧
    fails (exec (.encodeReceiveSize 1025) stateC) .endpointOverflow := by decide

/-! ## Endpoint allocation -/

/-- V-A1, first call. -/
theorem test_allocate_out : next (exec (.allocateEndpoint .out none .bulk 64) stateC) (fun t =>
      t.result == .address 0x01 && t.epAt 1 == ⟨some .bulk, true, false⟩ && t.rxCapAt 1 == 64 && t.nextFree == 128 &&
        t.pma == [(12, 0x40), (13, 0x00), (14, 0x00), (15, 0x84)]) := by decide

/-- V-A8 and V-A7. -/
theorem test_allocate_in : next (exec (.allocateEndpoint .inn none .bulk 7) stateC) (fun t =>
      t.result == .address 0x81 && t.txCapAt 1 == 8 && t.nextFree == 72) ∧
    next (exec (.allocateEndpoint .out (some 0x85) .bulk 8) stateC) (fun t => t.result == .address 0x05) := by decide

/-! ## Endpoint operations -/

/-- V-O1, from state B's setup after the bus reset. -/
theorem test_reset : next (exec .reset ((stateB.setAllEpr 0).setDaddr 0)) (fun t =>
      t.eprAt 0 == 0x3220 && t.eprAt 1 == 0x3021 && t.eprAt 2 == 0 && t.istr == 0 && t.daddr == 0x0080) := by decide

/-- V-O3 and V-O6. -/
theorem test_write : next (exec (.write 0x81 [0xAA, 0xBB, 0xCC]) stateB) (fun t =>
      t.result == .written 3 && t.eprAt 1 == 0x3031 && Memory.wordAt t.pma 256 == some 0xBBAA &&
        Memory.wordAt t.pma 258 == some 0x00CC && Memory.wordAt t.pma 10 == some 0x0003) ∧
    faults (exec (.write 0x80 (List.replicate 65 0)) stateB) .writeExceedsBuffer := by decide

/-- State B after V-O9's packet. -/
def afterVO9 : State := (stateB.setEpr 1 0xE021).setPma ((stateB.pma.take 14) ++
  [(14, 0x05), (15, 0x84), (192, 0x68), (193, 0x69), (194, 0x21), (195, 0x0A), (196, 0x0D)])

/-- V-O10 and V-O9's overflow. -/
theorem test_read : next (exec (.read 0x01 64) afterVO9) (fun t =>
      t.result == .received 5 [0x68, 0x69, 0x21, 0x0A, 0x0D] && t.eprAt 1 == 0x7021) ∧
    fails (exec (.read 0x01 4) afterVO9) .bufferOverflow := by decide

/-- V-S2 and V-S5. -/
theorem test_stall : next (exec (.stall 0x81) stateB) (fun t => t.eprAt 1 == 0x3011) ∧
    faults (exec (.stall 0x08) stateB) .noSuchEndpoint := by decide

/-- V-S3: a direction that was at Nak ends at Valid. -/
theorem test_unstall : next (exec (.unstall 0x01) (stateB.setEpr 1 0xD021)) (fun t => t.eprAt 1 == 0xF021) := by decide

/-! ## Poll -/

/-- S7, row (1, 0), and V-Q4. -/
theorem test_poll_flags : next (exec .poll ((stateB.setIstr 0x1400).setFnr 0x8000)) (fun t =>
      t.result == .event .suspend && t.istr == 0x0400) ∧
    next (exec .poll (stateB.setIstr 0x6300)) (fun t => t.result == .event .none && t.istr == 0x6300) := by decide

/-- V-Q5 and V-Q7. -/
theorem test_poll_scan : next (exec .poll ((stateB.setEpr 0 0x32E0).setEpr 1 0xE021)) (fun t =>
      t.result == .event (.data 0x0002 0x0001 0x0000) && t.eprAt 0 == 0x3260 && t.eprAt 1 == 0xE021) ∧
    next (exec .poll (stateB.setEpr 3 0x8003)) (fun t => t.result == .event (.data 0 0 0)) := by decide

/-! ## Peripheral control -/

/-- V-C1. -/
theorem test_enable : next (exec .enable ((stateC.setEp 1 ⟨some .bulk, true, false⟩).setEp 3 ⟨some .interrupt, false, true⟩))
    (fun t => t.cntr == 0x9C00 && t.maxIndex == 3 && t.phase == .enabled) := by decide

/-- V-C4 and V-C5. -/
theorem test_setDeviceAddress : next (exec (.setDeviceAddress 127) stateB) (fun t => t.daddr == 0x00FF) ∧
    faults (exec (.setDeviceAddress 128) stateB) .addressOutOfRange := by decide

/-- V-C6 and V-C7. -/
theorem test_suspend_resume : next (exec .suspend stateB) (fun t => t.cntr == 0x9C0C) ∧
    next (exec .resume (stateB.setCntr 0x9C0C)) (fun t => t.cntr == 0x9C00) := by decide

/-- V-C8 and V-C10. -/
theorem test_forceReset : fails (exec .forceReset stateB) .unsupported ∧
    next (exec .forceReset ((stateB.setResetCap (some ⟨0, 100⟩)).setCntr 0x9C02)) (fun t =>
      t.pinLevel == .low && t.cntr == 0x9C02 && t.eprAt 1 == 0x3021) := by decide

/-- R381. -/
theorem test_construct : next (exec (.construct none) stateB) (fun t =>
    t.nextFree == 64 && t.phase == .configured && t.cntr == 0x9C00 && t.epAt 1 == ⟨none, false, false⟩) := by decide

/-! ## The bus engine -/

/-- V-B12, V-B16 and V-B15. -/
theorem test_bus_reset_line : next (exec .busReset stateB) (fun t =>
      t.eprAt 1 == 0 && t.daddr == 0 && t.istr == 0x0400 && t.pma == stateB.pma) ∧
    next (exec .busReset stateC) (fun t => t == stateC) ∧
    next (exec (.busLine true false) stateB) (fun t => t.fnr == 0x8000) := by decide

/-- V-O9 and V-B6. -/
theorem test_busOut : next (exec (.busOut 1 [0x68, 0x69, 0x21, 0x0A, 0x0D] true) stateB) (fun t =>
      t.eprAt 1 == 0xE021 && t.pma == afterVO9.pma && t.events == [.handshake 1 .out .ack]) ∧
    next (exec (.busOut 1 [0x01] false) stateB) (fun t => t.eprAt 1 == 0x3021) := by decide

/-- V-B10 and V-B11: a stall does not block a SETUP. -/
theorem test_busSetup : next (exec (.busSetup 0 #v[1, 2, 3, 4, 5, 6, 7, 8]) stateB) (fun t =>
      t.eprAt 0 == 0xEA60 && Memory.wordAt t.pma 6 == some 0x8408 && Memory.wordAt t.pma 70 == some 0x0807 &&
        Memory.byte t.pma 72 == none) ∧
    next (exec (.busSetup 0 (Vector.replicate 8 0)) (stateB.setEpr 0 0x3210)) (fun t => t.eprAt 0 == 0xEA60) := by decide

/-- State B after `write 0x81, [0x07, 0x08]`. -/
def afterWrite : State := (stateB.setEpr 1 0x3031).setPma ((stateB.pma.take 10) ++
  [(10, 0x02), (11, 0x00), (12, 0xC0), (13, 0), (14, 0), (15, 0x84), (256, 0x07), (257, 0x08)])

/-- V-B8 and V-B9. -/
theorem test_busIn : next (exec (.busIn 1 false) afterWrite) (fun t =>
      t.eprAt 1 == 0x3031 && t.events == [.sent 1 [some 0x07, some 0x08], .handshake 1 .inn .none]) ∧
    next (exec (.busIn 1 true) afterWrite) (fun t => t.eprAt 1 == 0x30E1) := by decide

/-- V-B13, V-B14 and V-B18. -/
theorem test_bus_events : next (exec .busSuspend stateB) (fun t => t.istr == 0x0800) ∧
    next (exec (.busWakeup false true) ((stateB.setIstr 0x0800).setCntr 0x9C0C)) (fun t =>
      t.istr == 0x1800 && t.cntr == 0x9C08 && t.fnr == 0x4000) ∧
    next (exec (.busOtherEvent .sof) stateB) (fun t => t.istr == 0x0200) := by decide

/-- V-B19 and V-B20. -/
theorem test_bus_faults : faults (exec (.busOut 1 [0x01] true) (stateB.setEpr 1 0x3401)) .isochronousUnmodelled ∧
    faults (exec (.busOut 1 [] true) (stateB.setPma [(12, 0x40), (13, 0), (14, 0), (15, 0)])) .zeroCapacityReceive := by decide

/-! ## A step -/

/-- The very next step runs the word placed where it fetches: `epw.configure` (V-V8). -/
theorem test_step_word : next (step (State.reset.withFetchWord 16 0x8081)) (fun t => t.eprAt 1 == 0x0001 && t.pos == 1) := by decide

/-! ## Witnesses: states and operands that meet the hypotheses of each statement, clause by clause -/

/-- State B with bus steps before the coming accesses of the driver. -/
def withSched (l : List (List BusStep)) : State := stateB.setSched l

/-- State B with a program. -/
def withProgram (l : List Encoded) : State := stateB.setProgram l

theorem witness_DecodeEncodeRoundTrip : (Instr.epConfigure 127 .bulk).wellFormed = true ∧
    (Instr.epwClearCtrIn 127 .bulk false 15).wellFormed = true := by decide

theorem witness_DecodedCommandsAreWellFormed : decode ⟨.call, [0x13, 0x7F]⟩ = .ok (.epSnapshot 127) := by decide

theorem witness_StepRunsDecodedCommand :
    (withProgram [⟨.call, [0x52]⟩]).program[(withProgram []).pos]? = some ⟨.call, [0x52]⟩ ∧
    decode ⟨.call, [0x52]⟩ = .ok .suspend ∧
    next (exec .suspend (withProgram [⟨.call, [0x52]⟩])) (fun _ => true) ∧
    decode ⟨.call, [0x02, 0x08]⟩ = .ok (.pmaDescriptor 8) ∧
    faults (exec (.pmaDescriptor 8) (withProgram [⟨.call, [0x02, 0x08]⟩])) .noSuchDescriptor ∧
    decode ⟨.call, [0x06]⟩ = .error .unknownSelector ∧
    (withProgram [⟨.call, [0x06]⟩]).program[0]? = some ⟨.call, [0x06]⟩ ∧ State.reset.program.length ≤ State.reset.pos := by
  decide

/-- A host that breaks its duty: the third outcome of a step has a witness too. -/
theorem witness_StepRunsDecodedCommand_refused :
    exec (.busOut 1 (List.replicate 65 0) true) stateB = .refused .hostDutyBroken := by rfl

theorem witness_StepAdvancesTheProgram : next (step (withProgram [⟨.call, [0x52]⟩])) (fun t => t.pos == 1) := by decide

theorem inv_stateB : Inv stateB := by constructor <;> decide

theorem witness_StepKeepsLegalStates : Inv (withProgram [⟨.call, [0x52]⟩]) ∧
    next (step (withProgram [⟨.call, [0x52]⟩])) (fun _ => true) :=
  ⟨by constructor <;> decide, by decide⟩

theorem witness_EprWriteGate : stateB.sched = [] ∧ (8 : Nat) ≤ 8 ∧
    ∃ u, interleave (withSched [[.out 1 [0x09] true]]) = .done () u ∧ u.eprAt 1 = 0xE021 :=
  ⟨rfl, by decide, _, rfl, by decide⟩

theorem witness_KeepWordChangesNothing : (0xE021 : Word) &&& 0x070F = (0x3021 : Word) &&& 0x070F := by decide

theorem witness_EpwConfigureEffect : stateB.sched = [] ∧ (8 : Nat) ≤ (8 : BitVec 4).toNat := by decide

theorem witness_EpwSetStatusEffect : (8 : Nat) ≤ 8 ∧ (7 : Nat) = (7 : Slot).val ∧ stateB.sched = [] := by decide

theorem witness_EpwClearCtrEffect : (8 : Nat) ≤ 8 ∧ (7 : Nat) = (7 : Slot).val ∧ stateB.sched = [] := by decide

theorem witness_IstrWriteGate : stateB.sched = [] ∧ ((8 : Nat) ≤ 8 ∧ (8 : Nat) ≤ 14) ∧ ((8 : Nat) ≤ 14 ∧ (14 : Nat) ≤ 14) ∧
    (4 : Nat) ≤ 4 ∧ ((5 : Nat) ≤ 5 ∧ (5 : Nat) ≤ 7) ∧ ((5 : Nat) ≤ 7 ∧ (7 : Nat) ≤ 7) := by decide

theorem witness_EpConfigureEffect : stateB.sched = [] ∧ typeOf (stateB.eprAt 1) = .bulk ∧
    eaOf (stateB.eprAt 1) = BitVec.ofNat 4 (1 : Slot) ∧ (8 : Nat) ≤ 8 ∧
    next (exec (.epConfigure 1 .control) (withSched [[], [.out 1 [0x09] true]])) (fun _ => true) := by decide

theorem witness_EpSetStatusEffect : stateB.sched = [] ∧ statusOf .out (stateB.eprAt 1) = .valid ∧ Dir.inn ≠ Dir.out ∧
    (8 : Nat) ≤ 8 ∧ ∃ u v, interleave (withSched [[], [.out 1 [0x09] true]]) = .done () u ∧ interleave u = .done () v ∧
      statusOf .out (v.eprAt 1) ≠ statusOf .out (u.eprAt 1) :=
  ⟨rfl, by decide, by decide, by decide, _, _, rfl, rfl, by decide⟩

theorem witness_StatusRaceIsXor : Dir.inn ≠ Dir.out ∧
    ∃ u v, interleave (withSched [[], [.out 1 [0x09] true]]) = .done () u ∧ interleave u = .done () v ∧
      statusOf .out (v.eprAt 1) ≠ statusOf .out (u.eprAt 1) :=
  ⟨by decide, _, _, rfl, rfl, by decide⟩

theorem witness_EpClearCtrEffect : stateB.sched = [] ∧ Dir.inn ≠ Dir.out ∧ (8 : Nat) ≤ 8 ∧
    ∃ u v, interleave (withSched [[], [.out 1 [0x09] true]]) = .done () u ∧ interleave u = .done () v ∧
      ctrOf .out (v.eprAt 1) ≠ ctrOf .out (u.eprAt 1) :=
  ⟨rfl, by decide, by decide, _, _, rfl, rfl, by decide⟩

theorem witness_EpSnapshotEffect : stateB.sched = [] ∧ (8 : Nat) ≤ 8 := by decide

theorem witness_StallRaces : (withSched [[], [.reset]]).busOn = true ∧
    (∃ u, busStep .reset ((withSched [[], [.reset]]).setSched []) = .done () u) ∧
    ∃ u, busStep (.out 1 [0x09] true) ((withSched [[], [.out 1 [0x09] true]]).setSched []) = .done () u ∧
      statusOf .out ((withSched [[], [.out 1 [0x09] true]]).eprAt 1) = .valid ∧ statusOf .out (u.eprAt 1) = .nak :=
  ⟨by decide, ⟨_, rfl⟩, _, rfl, by decide, by decide⟩

theorem witness_PmaAllocateEffect : stateC.nextFree + roundUp 448 2 ≤ 512 ∧ 512 < stateC.nextFree + roundUp 449 2 := by decide

theorem witness_ArenaOnlyGrows : next (exec (.pmaAllocate 8) stateC) (fun _ => true) ∧
    ∀ c, Instr.pmaAllocate 8 ≠ .construct c := ⟨by decide, by intro c; simp⟩

theorem witness_PmaDescriptorEffect : (7 : Nat) < 8 ∧ (8 : Nat) ≤ 8 := by decide

theorem witness_PmaWriteEffect : stateB.sched = [] ∧ CopyInRange 0 0 ∧ CopyInRange 510 1 ∧
    ((510 : Nat) ≤ 511 ∧ 511 < 510 + roundUp 1 2) ∧ (509 < (510 : Nat) ∨ 510 + roundUp 1 2 ≤ 509) ∧
    ([0x01] : List Byte) ≠ [] ∧ 511 % 2 = 1 ∧ 510 % 2 = 0 ∧ 512 < 510 + roundUp 3 2 := by
  refine ⟨rfl, .inl rfl, .inr ⟨by decide, by decide⟩, by decide, by decide, by decide, by decide, by decide, by decide⟩

/-- A packet memory with one word defined, its last. -/
def lastWord : State := stateC.setPma [(510, 0x0D), (511, 0x0A)]

theorem witness_PmaReadEffect : lastWord.sched = [] ∧ CopyInRange 510 2 ∧ ([0x0D, 0x0A] : List Byte).length = 2 ∧
    (∀ k : Nat, k < 2 → Memory.byte lastWord.pma (510 + k) = ([0x0D, 0x0A] : List Byte)[k]?) ∧
    (1 ≠ 0 ∧ 511 % 2 = 1) ∧
    (4 ≠ 0 ∧ 510 % 2 = 0 ∧ 512 < 510 + roundUp 4 2 ∧
      ∀ k : Nat, k < 4 → 510 + k < 512 → Memory.byte lastWord.pma (510 + k) ≠ none) ∧
    (1 < 4 ∧ 508 % 2 = 0 ∧ 508 + 1 < 512 ∧ Memory.byte lastWord.pma (508 + 1) = none) := by
  refine ⟨rfl, .inr ⟨by decide, by decide⟩, rfl, by decide, by decide, ⟨by decide, by decide, by decide, ?_⟩,
    by decide, by decide, by decide, by decide⟩
  intro k hk h
  have : k = 0 ∨ k = 1 := by omega
  rcases this with rfl | rfl <;> decide

theorem witness_ReceiveSizeEncoder : 0 ≤ 1024 ∧ 62 ≤ 1024 ∧ 63 ≤ 1024 ∧ 1024 ≤ 1024 ∧ 1024 < 1025 := by decide

theorem witness_PinnedOutAllocation : stateC.sched = [] ∧ stateC.phase = .configured ∧ addrIndex 0x87 = (7 : Slot).val ∧
    Available stateC .out .bulk 7 ∧ encodeReceiveSize 448 = .ok (448, 0xB400) ∧ stateC.nextFree + 448 ≤ 512 := by
  exact ⟨rfl, rfl, by decide, ⟨.inl (by decide), by decide⟩, by rfl, by decide⟩

theorem witness_PinnedInAllocation : stateC.sched = [] ∧ stateC.phase = .configured ∧ addrIndex 0x80 = (0 : Slot).val ∧
    Available stateC .inn .control 0 ∧ stateC.nextFree + roundUp 447 2 ≤ 512 := by
  exact ⟨rfl, rfl, by decide, ⟨.inl (by decide), by decide⟩, by decide⟩

/-- State C with slot 1 typed Bulk and its OUT direction allocated. -/
def outTaken : State := stateC.setEp 1 ⟨some .bulk, true, false⟩

theorem witness_AllocationRefusals : stateB.phase = .enabled ∧ stateC.phase = .configured ∧ 8 ≤ addrIndex 0x08 ∧
    outTaken.phase = .configured ∧ addrIndex 0x01 = (1 : Slot).val ∧ (outTaken.epAt 1).type = some .bulk ∧
    (EpType.bulk ≠ .interrupt ∧ claimed 1 .out outTaken = true) ∧ Available stateC .out .bulk 7 ∧
    addrIndex 0x07 = (7 : Slot).val ∧ 1024 < 1025 ∧ 512 < stateC.nextFree + roundUp 449 2 ∧
    (∃ rsize enc, encodeReceiveSize 449 = .ok (rsize, enc) ∧ 512 < stateC.nextFree + roundUp rsize 2) ∧
    ∃ u, exec (.allocateEndpoint .inn (some 0x07) .bulk 8) stateC = .next u ∧ u.result = .address 0x87 := by
  exact ⟨rfl, rfl, by decide, rfl, by decide, by decide, by decide, ⟨.inl (by decide), by decide⟩, by decide, by decide,
    by decide, ⟨_, _, rfl, by decide⟩, _, rfl, by decide⟩

/-- State C with no slot from 1 on left for a Bulk OUT direction. -/
def allOutTaken : State := { stateC with ep := Vector.replicate 8 ⟨some .bulk, true, false⟩ }

theorem witness_UnpinnedAllocation : outTaken.phase = .configured ∧
    (∀ n, (outTaken.epAt n).out = true ∨ (outTaken.epAt n).inn = true → (outTaken.epAt n).type ≠ none) ∧
    1 ≤ (2 : Slot).val ∧ Available outTaken .out .bulk 2 ∧
    (∀ j : Slot, 1 ≤ j.val → j < 2 → ¬ Available outTaken .out .bulk j) ∧
    allOutTaken.phase = .configured ∧
    (∀ n, (allOutTaken.epAt n).out = true ∨ (allOutTaken.epAt n).inn = true → (allOutTaken.epAt n).type ≠ none) ∧
    ∀ j : Slot, 1 ≤ j.val → ¬ Available allOutTaken .out .bulk j := by
  unfold Available
  decide

theorem witness_EndpointRecordsOnlyGrow : next (exec (.allocateEndpoint .inn none .bulk 8) outTaken) (fun _ => true) ∧
    (∀ c, Instr.allocateEndpoint .inn none .bulk 8 ≠ .construct c) ∧ (outTaken.epAt 1).type = some .bulk ∧
    (outTaken.epAt 1).out = true ∧ (stateB.epAt 1).inn = true :=
  ⟨by decide, by intro c; simp, by decide, by decide, by decide⟩

theorem witness_DriverResetEffect : stateB.sched = [] ∧ (stateB.epAt 2).type = none ∧ (stateB.epAt 0).type = some .control := by
  decide

theorem witness_DriverResetIdempotent : stateB.sched = [] ∧ (stateB.epAt 1).type ≠ none ∧ (stateB.epAt 1).out = true ∧
    (stateB.epAt 1).inn = true ∧ ∃ u, runBus [.out 1 [0x09] true] stateB = .done () u ∧ statusOf .out (u.eprAt 1) = .nak :=
  ⟨by decide, by decide, by decide, by decide, _, rfl, by decide⟩

theorem witness_BusResetThenReset : stateB.sched = [] ∧ stateB.busOn = true ∧ (stateB.epAt 7).type = none ∧
    (stateB.epAt 1).type = some .bulk := by decide

theorem witness_WriteArmsTransfer : stateB.sched = [] ∧ statusOf .inn (stateB.eprAt 1) = .nak ∧
    statusOf .inn ((stateB.setEpr 1 0x3011).eprAt 1) = .stall ∧ (List.replicate 64 (0 : Byte)).length ≤ stateB.txCapAt 1 ∧
    Memory.wordAt stateB.pma (8 * (1 : Slot).val) = some 0x0100 ∧
    CopyInRange (0x0100 : Word).toNat (List.replicate 64 (0 : Byte)).length ∧
    (List.replicate 64 (0 : Byte)).length < 1024 :=
  ⟨by decide, by decide, by decide, by decide, by decide, .inr ⟨by decide, by decide⟩, by decide⟩

theorem witness_WriteRejections : addrDir 0x01 = .out ∧ 8 ≤ addrIndex 0x88 ∧ stateB.sched = [] ∧ addrDir 0x81 = .inn ∧
    addrIndex 0x81 = (1 : Slot).val ∧ statusOf .inn (afterWrite.eprAt 1) = .valid ∧
    statusOf .inn (stateB.eprAt 2) = .disabled ∧ statusOf .inn (stateB.eprAt 1) = .nak ∧
    stateB.txCapAt 1 < (List.replicate 65 (0 : Byte)).length := by decide

theorem witness_ReadDeliversPacket : afterVO9.sched = [] ∧ statusOf .out (afterVO9.eprAt 1) ≠ .disabled ∧
    ctrOf .out (afterVO9.eprAt 1) = true ∧ Memory.wordAt afterVO9.pma (8 * (1 : Slot).val + 6) = some 0x8405 ∧
    Memory.wordAt afterVO9.pma (8 * (1 : Slot).val + 4) = some 0x00C0 ∧
    (0x8405 : Word).toNat % 64 = ([0x68, 0x69, 0x21, 0x0A, 0x0D] : List Byte).length ∧
    ([0x68, 0x69, 0x21, 0x0A, 0x0D] : List Byte).length ≤ 5 ∧ CopyInRange (0x00C0 : Word).toNat 5 ∧
    ∀ k : Nat, k < 5 → Memory.byte afterVO9.pma ((0x00C0 : Word).toNat + k) = ([0x68, 0x69, 0x21, 0x0A, 0x0D] : List Byte)[k]? :=
  ⟨by decide, by decide, by decide, by decide, by decide, by decide, by decide, .inr ⟨by decide, by decide⟩, by decide⟩

/-- A pending packet on slot 1 with the descriptor bytes given. -/
def pending (m : Memory) : State := (withEpr 1 0xE021).setPma m

/-- A pending packet of 2 bytes on slot 1 with ADDR_RX's two bytes given. -/
def pendingAt (lo hi : Byte) : State := pending [(12, lo), (13, hi), (14, 0x02), (15, 0x84)]

theorem witness_ReadRejections : addrDir 0x81 = .inn ∧ 8 ≤ addrIndex 0x08 ∧ stateB.sched = [] ∧ addrDir 0x01 = .out ∧
    addrIndex 0x01 = (1 : Slot).val ∧ statusOf .out (stateB.eprAt 2) = .disabled ∧
    (statusOf .out (stateB.eprAt 1) ≠ .disabled ∧ ctrOf .out (stateB.eprAt 1) = false) ∧
    (statusOf .out (afterVO9.eprAt 1) ≠ .disabled ∧ ctrOf .out (afterVO9.eprAt 1) = true ∧
      Memory.wordAt afterVO9.pma (8 * (1 : Slot).val + 6) = some 0x8405 ∧ 4 < (0x8405 : Word).toNat % 64) ∧
    (statusOf .out ((withEpr 1 0xE021).eprAt 1) ≠ .disabled ∧ ctrOf .out ((withEpr 1 0xE021).eprAt 1) = true ∧
      Memory.wordAt (withEpr 1 0xE021).pma (8 * (1 : Slot).val + 6) = none) ∧
    ((0x8402 : Word).toNat % 64 ≤ 64 ∧ (0x8402 : Word).toNat % 64 ≠ 0 ∧
      Memory.wordAt (pending [(14, 0x02), (15, 0x84)]).pma 14 = some 0x8402 ∧
      Memory.wordAt (pending [(14, 0x02), (15, 0x84)]).pma 12 = none) ∧
    (Memory.wordAt (pendingAt 0xC1 0x00).pma 12 = some 0x00C1 ∧ (0x00C1 : Word).toNat % 2 = 1) ∧
    (Memory.wordAt (pendingAt 0xC0 0x00).pma 12 = some 0x00C0 ∧ 1 < (0x8402 : Word).toNat % 64 ∧
      (0x00C0 : Word).toNat + 1 < 512 ∧ Memory.byte (pendingAt 0xC0 0x00).pma ((0x00C0 : Word).toNat + 1) = none) ∧
    (Memory.wordAt (pendingAt 0x00 0x02).pma 12 = some 0x0200 ∧ (0x0200 : Word).toNat % 2 = 0 ∧
      512 < (0x0200 : Word).toNat + roundUp ((0x8402 : Word).toNat % 64) 2 ∧
      ∀ k : Nat, k < (0x8402 : Word).toNat % 64 → (0x0200 : Word).toNat + k < 512 →
        Memory.byte (pendingAt 0x00 0x02).pma ((0x0200 : Word).toNat + k) ≠ none) := by decide

theorem witness_StallUnstallEffect : 8 ≤ addrIndex 0x88 ∧ stateB.sched = [] ∧ addrIndex 0x81 = (1 : Slot).val ∧
    Dir.out ≠ addrDir 0x81 ∧ statusOf (addrDir 0x81) ((stateB.setEpr 1 0x3011).eprAt 1) = .stall ∧
    statusOf (addrDir 0x81) (stateB.eprAt 1) ≠ .stall := by decide

theorem witness_StallThenUnstall : stateB.sched = [] ∧ addrIndex 0x81 = (1 : Slot).val ∧ addrIndex 0x07 = (7 : Slot).val ∧
    statusOf (addrDir 0x81) (stateB.eprAt 1) ≠ .stall ∧
    statusOf (addrDir 0x81) (stateB.eprAt 1) = ready (addrDir 0x81) := by decide

theorem witness_PollPriority : stateB.sched = [] ∧ ((stateB.setIstr 0x1400).istr).getLsbD 10 = true ∧
    ((stateB.setIstr 0x1400).istr).getLsbD 12 = true ∧ ((stateB.setIstr 0x1C00).istr).getLsbD 12 = true ∧
    (((stateB.setIstr 0x0C00).istr).getLsbD 12 = false ∧ ((stateB.setIstr 0x0C00).istr).getLsbD 10 = true) ∧
    (((stateB.setIstr 0x0800).istr).getLsbD 10 = false ∧ ((stateB.setIstr 0x0800).istr).getLsbD 11 = true) ∧
    (((stateB.setIstr 0x6300).istr).getLsbD 11 = false ∧ (stateB.setIstr 0x6300).anyCtr = false) := by decide

theorem witness_PollScan : (stateB.setEpr 1 0xE0A1).sched = [] ∧ (stateB.setEpr 1 0xE0A1).istr.getLsbD 12 = false ∧
    (stateB.setEpr 1 0xE0A1).istr.getLsbD 10 = false ∧ (stateB.setEpr 1 0xE0A1).istr.getLsbD 11 = false ∧
    (stateB.setEpr 1 0xE0A1).anyCtr = true ∧ stateB.maxIndex < 2 ∧ (1 : Slot) ≤ stateB.maxIndex := by decide

theorem witness_EnableEffect : stateC.sched = [] ∧ (stateB.epAt 1).out = true := by decide

theorem witness_SetDeviceAddressEffect : stateB.sched = [] ∧ (127 : Byte).toNat ≤ 127 ∧ 127 < (128 : Byte).toNat := by decide

theorem witness_SuspendResumeEffect : stateB.sched = [] := by decide

theorem witness_WakeupRace : (withSched [[], [.wakeup false true]]).sched = [[], [.wakeup false true]] ∧
    (withSched [[], [.wakeup false true]]).busOn = true ∧
    next (exec .resume (withSched [[], [.wakeup false true]])) (fun _ => true) := by decide

theorem witness_ForceResetEffect : stateB.resetCap = none ∧ stateB.sched = [] ∧
    (stateB.setResetCap (some ⟨0, 100⟩)).resetCap = some ⟨0, 100⟩ := by decide

theorem witness_BusResetEffect : stateB.busOn = true := by decide

theorem witness_BusEventsEffect : stateB.busOn = true := by decide

theorem witness_BusOffOnlyLine : (stateB.setCntr 0x9C02).cntr.getLsbD 1 = true ∧ (stateB.setCntr 0x9C01).cntr.getLsbD 0 = true ∧
    isBusStep .busReset = true ∧ ∀ dp dm, Instr.busReset ≠ .busLine dp dm :=
  ⟨by decide, by decide, rfl, by intro dp dm; simp⟩

theorem witness_TransactionRouting : (stateB.setDaddr 0x0005).daddr.getLsbD 7 = false ∧
    (∀ n : Slot, eaOf (stateB.eprAt n) ≠ 5) ∧ stateB.busOn = true ∧ stateB.daddr.getLsbD 7 = true ∧
    eaOf (stateB.eprAt 1) = 1 ∧ (∀ m : Slot, m < 1 → eaOf (stateB.eprAt m) ≠ 1) ∧
    typeOf ((stateB.setEpr 1 0x3401).eprAt 1) = .isochronous ∧
    ((stateB.setPma [(6, 0), (7, 0)]).busBd 0 .countRx).toOption = some 0 ∧ capacity 0 = 0 ∧
    typeOf (stateB.eprAt 0) = .control ∧ statusOf .out (stateB.eprAt 0) = .valid := by decide

theorem witness_BusOutEffect : stateB.answering = true ∧ stateB.route 1 = some 1 ∧ typeOf (stateB.eprAt 1) ≠ .isochronous ∧
    statusOf .out ((stateB.setEpr 1 0x0021).eprAt 1) = .disabled ∧ statusOf .out ((stateB.setEpr 1 0x1021).eprAt 1) = .stall ∧
    statusOf .out ((stateB.setEpr 1 0x2021).eprAt 1) = .nak ∧ statusOf .out (stateB.eprAt 1) = .valid ∧
    (stateB.busBd 1 .countRx).toOption = some 0x8400 ∧ capacity 0x8400 ≠ 0 ∧
    capacity 0x8400 < (List.replicate 65 (0 : Byte)).length ∧ (stateB.busBd 1 .addrRx).toOption = some 0x00C0 ∧
    (List.replicate 64 (0 : Byte)).length ≤ capacity 0x8400 ∧ bufferOffset 0x00C0 + capacity 0x8400 ≤ 512 := by decide

theorem witness_BusSetupEffect : stateB.answering = true ∧ stateB.route 1 = some 1 ∧ typeOf (stateB.eprAt 1) ≠ .control ∧
    stateB.route 0 = some 0 ∧ typeOf (stateB.eprAt 0) = .control ∧
    statusOf .out ((stateB.setEpr 0 0x0220).eprAt 0) = .disabled ∧ statusOf .out (stateB.eprAt 0) ≠ .disabled ∧
    (stateB.busBd 0 .countRx).toOption = some 0x8400 ∧ (stateB.busBd 0 .addrRx).toOption = some 0x0040 ∧
    8 ≤ capacity 0x8400 ∧ bufferOffset 0x0040 + capacity 0x8400 ≤ 512 := by decide

theorem witness_BusInEffect : afterWrite.answering = true ∧ afterWrite.route 1 = some 1 ∧
    typeOf (afterWrite.eprAt 1) ≠ .isochronous ∧ statusOf .inn ((stateB.setEpr 1 0x3001).eprAt 1) = .disabled ∧
    statusOf .inn ((stateB.setEpr 1 0x3011).eprAt 1) = .stall ∧ statusOf .inn (stateB.eprAt 1) = .nak ∧
    statusOf .inn (afterWrite.eprAt 1) = .valid ∧ (afterWrite.busBd 1 .countTx).toOption = some 0x0002 ∧
    (afterWrite.busBd 1 .addrTx).toOption = some 0x0100 ∧ bufferOffset 0x0100 + countField 0x0002 ≤ 512 := by decide

theorem witness_BusStepsKeepDriverState : isBusStep .busReset = true ∧ next (exec .busReset stateB) (fun _ => true) := by decide

theorem witness_DriverKeepsHardwareFlags : stateB.sched = [] ∧ isBusStep .reset = false ∧
    next (exec .reset stateB) (fun _ => true) ∧ isRawEprWrite .reset = false := by decide

theorem witness_InterruptLine : stateC.sched = [] ∧ stateB.cntr &&& 0xFF00 = 0x9C00 ∧
    (stateB.setEpr 1 0xE021).usbIrq = true := by decide

theorem witness_ErrorLeavesState : stateC.sched = [] ∧ isBusStep (.allocateEndpoint .out none .bulk 1025) = false ∧
    next (exec (.allocateEndpoint .out none .bulk 1025) stateC) (fun t =>
      t.result == .error .endpointOverflow && t.epAt 1 == ⟨some .bulk, false, false⟩) := by decide

end Sys2Proof.Tests
end

namespace Sys2Proof.Machine

/-! Proofs about the state as a whole (file 10_state.md): one step against its command, the program and its position, the
endpoint records, the legal states, and the flags only the hardware sets. -/

/-! ## One step -/

/-- A step at a command is that command, then the position moved on (R31). -/
theorem step_of_decode {s : State} {c : Encoded} {i : Instr} (hc : s.fetch = some c) (hd : decode c = .ok i) :
    step s = advanced (exec i s) := by
  simp [step, hc, hd]

theorem step_of_reject {s : State} {c : Encoded} {why : Reject} (hc : s.fetch = some c) (hd : decode c = .error why) :
    step s = .refused (.undecodable why) := by
  simp [step, hc, hd]

theorem step_of_end {s : State} (h : s.program.length ≤ s.pos) : step s = .refused .programEnd := by
  simp [step, State.fetch, List.getElem?_eq_none h]

/-- A step that ends in a next state ran the command at the position and moved the position on (R31). -/
theorem step_eq_next {s t : State} :
    step s = .next t ↔ ∃ c i u, s.fetch = some c ∧ decode c = .ok i ∧ exec i s = .next u ∧ t = u.advance := by
  cases hf : s.fetch with
  | none => simp [step, hf]
  | some c =>
    cases hd : decode c with
    | error why => simp [step_of_reject hf hd, hd]
    | ok i => simp [step_of_decode hf hd, hd, advanced_eq_next]

/-- Construction resets the driver's records and reaches nothing else (R381). -/
theorem exec_construct_eq_next {c : Option ResetCap} {s t : State} (h : exec (.construct c) s = .next t) :
    t = ((((((((s.setAllEp ⟨none, false, false⟩).setAllRxCap 0).setAllTxCap 0).setNextFree Config.bdTable).setMaxIndex
      0).setPhase .configured).setResetCap c).setResult .unit) := by
  cases h; rfl

/-! ## The driver's records -/

/-- Two states agree on the endpoint records, the ghost capacities, the arena and the program. -/
structure SameRecords (s t : State) : Prop where
  ep : t.ep = s.ep
  rxCap : t.rxCap = s.rxCap
  txCap : t.txCap = s.txCap
  nextFree : t.nextFree = s.nextFree
  program : t.program = s.program
  pos : t.pos = s.pos

theorem SameDriver.sameRecords {s t : State} (h : SameDriver s t) : SameRecords s t :=
  ⟨h.ep, h.rxCap, h.txCap, h.nextFree, h.program, h.pos⟩

theorem storeReg_sameRecords (s : State) (r : Reg) (w : Word) : SameRecords s (s.storeReg r w) := by
  cases r <;> exact ⟨rfl, rfl, rfl, rfl, rfl, rfl⟩

/-- The shared operations leave the driver's records alone, whatever the bus engine does in between. -/
theorem Kept.of_records {P : State → Prop} (same : ∀ s t, SameRecords s t → P s → P t) : Kept P :=
  Kept.of_bus (fun s _ => same s _ ⟨rfl, rfl, rfl, rfl, rfl, rfl⟩)
    (fun b s h v t e => same s t (busStep_sameDriver b s s (.refl s) v t e).sameRecords h)
    (fun s => same s _ ⟨rfl, rfl, rfl, rfl, rfl, rfl⟩)
    (fun s _ => same s _ ⟨rfl, rfl, rfl, rfl, rfl, rfl⟩)
    (fun s r w _ => same s _ (storeReg_sameRecords s r w))
    (fun s _ _ h _ => same s _ ⟨rfl, rfl, rfl, rfl, rfl, rfl⟩ h)

theorem State.epAt_congr {s t : State} (h : t.ep = s.ep) (n : Slot) : t.epAt n = s.epAt n := by
  rw [State.epAt, h, State.epAt]

/-- A record grew into another: the type once set is the same, an allocated direction is still allocated (R47, R48(a)). -/
def EpRecord.Grows (r q : EpRecord) : Prop :=
  (∀ ty, r.type = some ty → q.type = some ty) ∧ (r.out = true → q.out = true) ∧ (r.inn = true → q.inn = true)

theorem EpRecord.Grows.refl (r : EpRecord) : r.Grows r := ⟨fun _ => id, id, id⟩

theorem EpRecord.Grows.trans {r q p : EpRecord} : r.Grows q → q.Grows p → r.Grows p
  | ⟨t, o, i⟩, ⟨t', o', i'⟩ => ⟨fun ty => t' ty ∘ t ty, o' ∘ o, i' ∘ i⟩

/-- The property survives the changes allocation makes to the arena, the records and the ghost capacities, whose amounts
it does not see (R190, R225, R229, R230). -/
structure KeptByAllocation (P : State → Prop) : Prop where
  arena : ∀ s n, P s → P (s.setNextFree n)
  record : ∀ s i r, P s → (s.epAt i).Grows r → P (s.setEp i r)
  rx : ∀ s i c, P s → P (s.setRxCap i c)
  tx : ∀ s i c, P s → P (s.setTxCap i c)

namespace KeptByAllocation

variable {P : State → Prop} (a : KeptByAllocation P) {s : State}
include a

theorem arenaAllocate {u : State} {size off : Nat} (h : P s) (e : arenaAllocate size s = .ok (off, u)) : P u := by
  obtain ⟨-, -, rfl⟩ := arenaAllocate_eq_ok.mp e
  exact a.arena s _ h

theorem takeType (i : Slot) (t : EpType) (h : P s) : P (takeType i t s) := by
  rcases takeType_cases i t s with e | ⟨hn, e⟩
  · rwa [e]
  · rw [e]
    exact a.record s i _ h ⟨by simp [hn], id, id⟩

theorem allocSearch (k : Kept P) (d : Dir) (t : EpType) (mps : Nat) (pin : Option Nat) (fuel i : Nat) (h : P s) :
    (Machine.allocSearch pin d t mps fuel i s).Leaves P :=
  leaves_allocSearch d t mps pin (fun _ i h => a.takeType i t h)
    (fun _ i h _ _ => k.claim (fun s n h _ => a.arena s n h)
      (fun s i _ _ h ho hi => a.record s i _ h ⟨fun _ => id, ho, hi⟩) a.rx a.tx i d mps h) fuel i h

end KeptByAllocation

/-- A property of the driver's records that allocation keeps is kept by every instruction, construction apart, whatever
the bus engine does in between. -/
theorem exec_keeps_of_records {P : State → Prop} (same : ∀ s t, SameRecords s t → P s → P t) (a : KeptByAllocation P)
    {i : Instr} {s t : State} (construct : ∀ c, i = .construct c → P t) (h : P s) (he : exec i s = .next t) : P t := by
  have k : Kept P := .of_records same
  refine k.exec i construct ?arena ?allocate ?highest ?phase ?pin ?raw ?bus h he
  case arena => exact fun _ _ _ _ h e => a.arenaAllocate h e
  case allocate => exact fun d _ ty mps _ _ => a.allocSearch k d ty mps _ _ _ h
  case highest => exact fun _ => same s _ ⟨rfl, rfl, rfl, rfl, rfl, rfl⟩ h
  case phase => exact fun s => same s _ ⟨rfl, rfl, rfl, rfl, rfl, rfl⟩
  case pin => exact fun s => same s _ ⟨rfl, rfl, rfl, rfl, rfl, rfl⟩
  case raw => exact fun _ n w => leaves_regWrite _ w (k.access s h) fun u => same u _ (storeReg_sameRecords u (.epr n) w)
  case bus => exact fun _ b u v e => same s v (busStep_sameDriver b s s (.refl s) u v e).sameRecords h

/-! ## The position in the program -/

/-- The state has the position and the program of another. -/
def AtSamePlace (s t : State) : Prop := t.pos = s.pos ∧ t.program = s.program

theorem AtSamePlace.refl (s : State) : AtSamePlace s s := ⟨rfl, rfl⟩

theorem keptByAllocation_atSamePlace (s : State) : KeptByAllocation (AtSamePlace s) where
  arena _ _ h := h
  record _ _ _ h _ := h
  rx _ _ _ h := h
  tx _ _ _ h := h

/-- No instruction moves the position or changes the program (R31): the former is the step's, the latter nobody's. -/
theorem exec_atSamePlace {i : Instr} {s t : State} (he : exec i s = .next t) : AtSamePlace s t := by
  refine exec_keeps_of_records (P := AtSamePlace s) ?same (keptByAllocation_atSamePlace s) ?construct (.refl s) he
  case same => exact fun u v e h => ⟨e.pos.trans h.1, e.program.trans h.2⟩
  case construct =>
    rintro c rfl
    simp [AtSamePlace, exec_construct_eq_next he]

/-! ## The endpoint records -/

theorem keptByAllocation_grows (r : EpRecord) (n : Slot) : KeptByAllocation fun t => r.Grows (t.epAt n) where
  arena _ _ h := h
  record t i q h hq := by
    by_cases hi : i = n
    · subst hi
      simpa using h.trans hq
    · rwa [State.epAt_setEp_ne _ _ _ _ hi]
  rx _ _ _ h := h
  tx _ _ _ h := h

/-- But for construction, every instruction lets every endpoint record grow only (R47, R48(a)). -/
theorem exec_epAt_grows {i : Instr} {s t : State} (he : exec i s = .next t) (hc : ∀ c, i ≠ .construct c) (n : Slot) :
    (s.epAt n).Grows (t.epAt n) := by
  refine exec_keeps_of_records (P := fun u => (s.epAt n).Grows (u.epAt n)) ?same (keptByAllocation_grows (s.epAt n) n) 
    (fun c e => absurd e (hc c)) (.refl _) he
  case same =>
    intro u v e h
    rwa [State.epAt_congr e.ep]

end Sys2Proof.Machine

/-- Settles O5: a step is the decoded command followed by moving on, and each other lookup is a refusal. -/
theorem stepRunsDecodedCommand : Obligations.StepRunsDecodedCommand := by
  refine ⟨fun s c i hc hd => ?_, fun _ _ _ => Sys2Proof.Machine.step_of_reject, fun _ => Sys2Proof.Machine.step_of_end⟩
  have hstep := Sys2Proof.Machine.step_of_decode hc hd
  refine ⟨fun t ht => ?_, fun f hf => ?_, fun r hr => ?_⟩
  · rw [hstep, ht]; rfl
  · rw [hstep, hf]; rfl
  · rw [hstep, hr]; rfl

/-- Settles O6: no instruction touches position or program, and the step then moves the position on. -/
theorem stepAdvancesTheProgram : Obligations.StepAdvancesTheProgram := by
  intro s t h
  obtain ⟨-, i, u, -, -, he, rfl⟩ := Sys2Proof.Machine.step_eq_next.mp h
  obtain ⟨hpos, hprogram⟩ := Sys2Proof.Machine.exec_atSamePlace he
  exact ⟨congrArg (· + 1) hpos, hprogram⟩

/-- Settles O32: only construction empties a record; allocation, the one operation that writes one, lets it grow. -/
theorem endpointRecordsOnlyGrow : Obligations.EndpointRecordsOnlyGrow :=
  fun _ _ _ n he hc => Sys2Proof.Machine.exec_epAt_grows he hc n

namespace Sys2Proof.Machine

/-! ## Legal states (R40 to R45, R48, R54, R87, R191) -/

/-- Whenever the part ends with a value, the state it ends in has both properties. -/
theorem Act.Leaves.and {α : Type} {a : Act α} {P Q : State → Prop} (hp : a.Leaves P) (hq : a.Leaves Q) :
    a.Leaves fun s => P s ∧ Q s := fun v t e => ⟨hp v t e, hq v t e⟩

theorem Kept.and {P Q : State → Prop} (p : Kept P) (q : Kept Q) : Kept fun s => P s ∧ Q s where
  access s h := (p.access s h.1).and (q.access s h.2)
  draw s h := ⟨p.draw s h.1, q.draw s h.2⟩
  result s r h := ⟨p.result s r h.1, q.result s r h.2⟩
  reg s r w hr hb h := ⟨p.reg s r w hr hb h.1, q.reg s r w hr hb h.2⟩
  configure s n t h := (p.configure s n t h.1).and (q.configure s n t h.2)
  status s n d st h := (p.status s n d st h.1).and (q.status s n d st h.2)
  clear s n d h := (p.clear s n d h.1).and (q.clear s n d h.2)
  word s off w h ho := ⟨p.word s off w h.1 ho, q.word s off w h.2 ho⟩

/-! ### The capacities of all slots together -/

/-- A sum over the slots in which one slot's part grew by at most `c` grew by at most `c`. -/
theorem sum_allSlots_le {f g : Slot → Nat} {c : Nat} (i : Slot) (hi : g i ≤ f i + c) (hne : ∀ n, n ≠ i → g n ≤ f n) :
    (allSlots.map g).sum ≤ (allSlots.map f).sum + c := by
  have part : ∀ n ∈ allSlots, g n ≤ f n + if n = i then c else 0 := by
    intro n _
    by_cases h : n = i
    · simpa [h] using hi
    · simpa [h] using hne n h
  have extra : (allSlots.map fun n => if n = i then c else 0).sum = c := by
    match i with
    | 0 | 1 | 2 | 3 | 4 | 5 | 6 | 7 => simp [allSlots]
  calc (allSlots.map g).sum ≤ (allSlots.map fun n => f n + if n = i then c else 0).sum := List.sum_le_sum part
    _ = (allSlots.map f).sum + c := by rw [List.sum_map_add, extra]

theorem capTotal_setRxCap_le (s : State) (i : Slot) (c : Nat) : (s.setRxCap i c).capTotal ≤ s.capTotal + c :=
  sum_allSlots_le i (by simp only [State.rxCapAt_setRxCap_same, State.txCapAt_setRxCap]; omega) fun n hn => by simp [State.rxCapAt_setRxCap_ne _ _ _ _ hn.symm]

theorem capTotal_setTxCap_le (s : State) (i : Slot) (c : Nat) : (s.setTxCap i c).capTotal ≤ s.capTotal + c :=
  sum_allSlots_le i (by simp only [State.txCapAt_setTxCap_same, State.rxCapAt_setTxCap]; omega) fun n hn => by simp [State.txCapAt_setTxCap_ne _ _ _ _ hn.symm]

theorem State.capTotal_congr {s t : State} (hr : t.rxCap = s.rxCap) (ht : t.txCap = s.txCap) : t.capTotal = s.capTotal := by
  simp only [State.capTotal, State.rxCapAt, State.txCapAt, hr, ht]

/-! ### Legality of the registers and of the records, apart -/

/-- The part of `Inv` about the registers and packet memory. -/
structure LegalHardware (s : State) : Prop where
  pma : Memory.wf s.pma = true
  cntr : s.cntr &&& 0x00E0 = 0x0000
  istr : s.istr &&& 0x80FF = 0x0000
  fnr : s.fnr &&& 0x3FFF = 0x0000
  daddr : s.daddr &&& 0xFF00 = 0x0000
  btable : s.btable = 0x0000

/-- The part of `Inv` about the driver's records, with `spare` allocated bytes that no slot's buffer takes yet. -/
structure LegalRecords (spare : Nat) (s : State) : Prop where
  even : s.nextFree % 2 = 0
  lower : Config.bdTable ≤ s.nextFree
  upper : s.nextFree ≤ Config.pmaSize
  typed : ∀ n, (s.epAt n).out = true ∨ (s.epAt n).inn = true → (s.epAt n).type ≠ none
  caps : s.capTotal + Config.bdTable + spare ≤ s.nextFree

theorem inv_iff {s : State} : Inv s ↔ LegalHardware s ∧ LegalRecords 0 s := by
  constructor
  · rintro ⟨h1, h2, h3, h4, h5, h6, h7, h8, h9, h10, h11⟩
    exact ⟨⟨h1, h2, h3, h4, h5, h6⟩, ⟨h7, h8, h9, h10, h11⟩⟩
  · rintro ⟨⟨h1, h2, h3, h4, h5, h6⟩, ⟨h7, h8, h9, h10, h11⟩⟩
    exact ⟨h1, h2, h3, h4, h5, h6, h7, h8, h9, h10, h11⟩

theorem withLines_reserved (f : Word) (dp dm : Bool) (h : f &&& 0x3FFF = 0x0000) : withLines f dp dm &&& 0x3FFF = 0x0000 := by
  simp only [withLines, h]
  cases dp <;> cases dm <;> rfl

/-- A latched flag leaves the bits ISTR does not store at 0 (R41). -/
theorem or_reserved {r w m : Word} (hr : r &&& m = 0x0000) (hw : w &&& m = 0x0000) : (r ||| w) &&& m = 0x0000 := by
  rw [BitVec.and_comm, BitVec.and_or_distrib_left, BitVec.and_comm, hr, BitVec.and_comm, hw]; rfl

theorem and_reserved {r m : Word} (h : r &&& m = 0x0000) (w : Word) : (r &&& w) &&& m = 0x0000 := by
  rw [BitVec.and_assoc, BitVec.and_comm w, ← BitVec.and_assoc, h]; exact BitVec.zero_and

/-- The gates clear the reserved bits (R160, R161). -/
theorem storeReg_legalHardware {s : State} (r : Reg) (w : Word) (hb : r = .btable → w = 0x0000) (h : LegalHardware s) :
    LegalHardware (s.storeReg r w) := by
  cases r with
  | epr n => exact { h with }
  | cntr => exact { h with cntr := by simp [State.storeReg, gateCntr, BitVec.and_assoc] }
  | istr => exact { h with istr := by simp [State.storeReg, gateIstr, BitVec.and_assoc] }
  | fnr => exact h
  | daddr => exact { h with daddr := by simp [State.storeReg, gateDaddr, BitVec.and_assoc] }
  | btable => exact { h with btable := by rw [hb rfl]; rfl }

theorem busStep_legalHardware (b : BusStep) (s : State) (h : LegalHardware s) : (busStep b s).Leaves LegalHardware := by
  refine leaves_busStep ?event ?epr ?pma ?latch ?lines ?wake ?reset b s h
  case event => exact fun s e h => { h with }
  case epr => exact fun s n f h => { h with }
  case pma => exact fun s n data cnt a h hc _ hr hl => { h with pma := wf_receivedPma s n data cnt a h.pma hc hr hl }
  case latch => exact fun s w h hw => { h with istr := or_reserved h.istr hw }
  case lines => exact fun s dp dm h => { h with fnr := withLines_reserved s.fnr dp dm h.fnr }
  case wake => exact fun s h => { h with cntr := and_reserved h.cntr 0xFFFB }
  case reset => exact fun s h => { h with daddr := by simp }

theorem kept_legalHardware : Kept LegalHardware :=
  Kept.of_bus (fun _ _ h => { h with }) busStep_legalHardware (fun _ h => { h with }) (fun _ _ h => { h with })
    (fun _ r w hb h => storeReg_legalHardware r w hb h)
    (fun s off w h ho => { h with pma := Memory.wf_putPmaWord s.pma off w ho h.pma })

theorem SameRecords.legalRecords {s t : State} {spare : Nat} (e : SameRecords s t) (h : LegalRecords spare s) :
    LegalRecords spare t where
  even := by rw [e.nextFree]; exact h.even
  lower := by rw [e.nextFree]; exact h.lower
  upper := by rw [e.nextFree]; exact h.upper
  typed n := by rw [State.epAt_congr e.ep]; exact h.typed n
  caps := by rw [e.nextFree, State.capTotal_congr e.rxCap e.txCap]; exact h.caps

theorem kept_inv : Kept Inv := by
  have k := kept_legalHardware.and (.of_records (P := LegalRecords 0) fun _ _ => SameRecords.legalRecords)
  simpa only [← inv_iff] using k

/-! ### Allocation and construction -/

/-- An allocation in the arena leaves its rounded size to spare (R190). -/
theorem LegalRecords.setNextFree {s : State} {size : Nat} (h : LegalRecords 0 s)
    (fits : s.nextFree + roundUp size 2 ≤ Config.pmaSize) :
    LegalRecords (roundUp size 2) (s.setNextFree (s.nextFree + roundUp size 2)) where
  even := by
    have := h.even
    simp only [State.setNextFree_nextFree, roundUp2]
    omega
  lower := h.lower.trans (Nat.le_add_right _ _)
  upper := fits
  typed := h.typed
  caps := Nat.add_le_add_right h.caps _

theorem LegalRecords.setEp {s : State} {spare : Nat} (h : LegalRecords spare s) (i : Slot) {r : EpRecord}
    (hr : r.type ≠ none) : LegalRecords spare (s.setEp i r) :=
  { h with
    typed := fun n hn => by
      by_cases hi : i = n
      · subst hi; simpa using hr
      · rw [State.epAt_setEp_ne _ _ _ _ hi] at hn ⊢
        exact h.typed n hn }

theorem LegalRecords.setRxCap {s : State} {spare c : Nat} (h : LegalRecords spare s) (i : Slot) (hc : c ≤ spare) :
    LegalRecords 0 (s.setRxCap i c) :=
  { h with
    caps := by
      have h1 := capTotal_setRxCap_le s i c
      have h2 := h.caps
      simp only [State.setRxCap_nextFree]
      omega }

theorem LegalRecords.setTxCap {s : State} {spare c : Nat} (h : LegalRecords spare s) (i : Slot) (hc : c ≤ spare) :
    LegalRecords 0 (s.setTxCap i c) :=
  { h with
    caps := by
      have h1 := capTotal_setTxCap_le s i c
      have h2 := h.caps
      simp only [State.setTxCap_nextFree]
      omega }

/-- A claim between its allocation in the arena and its record: `spare` bytes are the slot's to take, and it is typed. -/
def Claiming (i : Slot) (spare : Nat) (s : State) : Prop :=
  LegalHardware s ∧ LegalRecords spare s ∧ (s.epAt i).type ≠ none

theorem kept_claiming (i : Slot) (spare : Nat) : Kept (Claiming i spare) :=
  kept_legalHardware.and (.of_records fun _ _ e h => ⟨e.legalRecords h.1, by rw [State.epAt_congr e.ep]; exact h.2⟩)

theorem claiming_of_arenaAllocate {i : Slot} {size off : Nat} {s u : State} (h : Inv s) (ht : (s.epAt i).type ≠ none)
    (e : arenaAllocate size s = .ok (off, u)) : Claiming i (roundUp size 2) u := by
  obtain ⟨fits, -, rfl⟩ := arenaAllocate_eq_ok.mp e
  obtain ⟨hardware, records⟩ := inv_iff.mp h
  exact ⟨{ hardware with }, records.setNextFree fits, ht⟩

/-- Claiming a direction of a typed slot keeps a legal state legal (R229, R230). -/
theorem claim_inv (i : Slot) (d : Dir) (mps : Nat) {s : State} (h : Inv s) (ht : (s.epAt i).type ≠ none) :
    (claim i d mps s).Leaves Inv := by
  cases d with
  | out =>
    unfold claim claimOut
    dsimp only
    split
    · exact Act.leaves_done h
    · rename_i rsize enc _
      split
      · exact Act.leaves_done h
      · rename_i hu
        have k := kept_claiming i (roundUp rsize 2)
        refine Act.leaves_andThen (k.bdSet _ _ _ (claiming_of_arenaAllocate h ht hu)) fun _ v hv =>
          Act.leaves_andThen (k.bdSet _ _ _ hv) fun _ w ⟨hardware, records, type⟩ =>
            Act.leaves_done (inv_iff.mpr ⟨{ hardware with }, ?_⟩)
        have typed := records.setEp i (r := ⟨(w.epAt i).type, true, (w.epAt i).inn⟩) type
        exact typed.setRxCap i (by simp [roundUp2])
  | inn =>
    unfold claim claimIn
    dsimp only
    split
    · exact Act.leaves_done h
    · rename_i hu
      have k := kept_claiming i (roundUp mps 2)
      refine Act.leaves_andThen (k.bdSet _ _ _ (claiming_of_arenaAllocate h ht hu)) fun _ v hv =>
        Act.leaves_andThen (k.bdSet _ _ _ hv) fun _ w ⟨hardware, records, type⟩ =>
          Act.leaves_done (inv_iff.mpr ⟨{ hardware with }, ?_⟩)
      have typed := records.setEp i (r := ⟨(w.epAt i).type, (w.epAt i).out, true⟩) type
      exact typed.setTxCap i le_rfl

theorem takeType_inv (i : Slot) (t : EpType) {s : State} (h : Inv s) : Inv (takeType i t s) := by
  rcases takeType_cases i t s with e | ⟨-, e⟩
  · rwa [e]
  · obtain ⟨hardware, records⟩ := inv_iff.mp h
    rw [e]
    exact inv_iff.mpr ⟨{ hardware with }, records.setEp i (by simp)⟩

theorem arenaAllocate_inv {size off : Nat} {s u : State} (h : Inv s) (e : arenaAllocate size s = .ok (off, u)) : Inv u := by
  obtain ⟨fits, -, rfl⟩ := arenaAllocate_eq_ok.mp e
  obtain ⟨hardware, records⟩ := inv_iff.mp h
  have r := records.setNextFree fits
  exact inv_iff.mpr ⟨{ hardware with }, { r with caps := le_of_add_le_left r.caps }⟩

/-- Constructing the driver again empties its records and leaves the hardware as it is (R381). -/
theorem construct_inv {c : Option ResetCap} {s t : State} (h : Inv s) (he : exec (.construct c) s = .next t) : Inv t := by
  obtain ⟨hardware, -⟩ := inv_iff.mp h
  rw [exec_construct_eq_next he]
  refine inv_iff.mpr ⟨?hardware, ?records⟩
  case hardware =>
    exact ⟨by simpa using hardware.pma, by simpa using hardware.cntr, by simpa using hardware.istr,
      by simpa using hardware.fnr, by simpa using hardware.daddr, by simpa using hardware.btable⟩
  case records => exact ⟨by simp [Config.bdTable], by simp, by simp [Config.bdTable, Config.pmaSize], by simp, by simp [State.capTotal]⟩

/-- Every instruction keeps a legal state legal, whatever the bus engine does in between. -/
theorem exec_inv {i : Instr} {s t : State} (h : Inv s) (he : exec i s = .next t) : Inv t := by
  have k := kept_inv
  have raw (n : Slot) (w : Word) : ∀ u, Inv u → Inv (u.storeReg (.epr n) w) := fun u hu =>
    inv_iff.mpr ⟨storeReg_legalHardware _ w (by simp) (inv_iff.mp hu).1,
      (storeReg_sameRecords u _ w).legalRecords (inv_iff.mp hu).2⟩
  refine k.exec i ?construct ?arena ?allocate (fun _ => { h with }) (fun _ h => { h with }) (fun _ h => { h with }) ?raw ?bus
    h he
  case construct =>
    rintro c rfl
    exact construct_inv h he
  case arena => exact fun _ _ _ _ h e => arenaAllocate_inv h e
  case allocate =>
    intro d req ty mps _ _
    exact leaves_allocSearch d ty mps _ (fun u i hu => takeType_inv i ty hu)
      (fun u i hu ht _ => claim_inv i d mps hu (by simp [ht])) _ _ h
  case raw => exact fun _ n w => leaves_regWrite _ w (k.access s h) (raw n w)
  case bus =>
    intro _ b v u e
    obtain ⟨hardware, records⟩ := inv_iff.mp h
    exact inv_iff.mpr ⟨busStep_legalHardware b s hardware v u e,
      (busStep_sameDriver b s s (.refl s) v u e).sameRecords.legalRecords records⟩

theorem advance_inv {s : State} (h : Inv s) : Inv s.advance := { h with }

end Sys2Proof.Machine

/-- Settles O9: each part of `Inv` survives the shared operations and the bus engine; a claim allocates in the arena the
bytes it then takes. -/
theorem stepKeepsLegalStates : Obligations.StepKeepsLegalStates := by
  intro s t h hs
  obtain ⟨-, i, u, -, -, he, rfl⟩ := Sys2Proof.Machine.step_eq_next.mp hs
  exact Sys2Proof.Machine.advance_inv (Sys2Proof.Machine.exec_inv h he)

namespace Sys2Proof.Machine

/-! ## The flags only the hardware sets (R35, R36, R38, R39) -/

theorem State.eprAt_congr {s t : State} (h : t.epr = s.epr) (n : Slot) : t.eprAt n = s.eprAt n := by
  rw [State.eprAt, h, State.eprAt]

/-- What the driver may make of an EPR word `r`: no CTR flag set, SETUP kept, and but for a raw write the toggles and
EP_KIND kept. -/
def DriverMade (raw : Bool) (r q : Word) : Prop :=
  ∀ d, (ctrOf d q = true → ctrOf d r = true) ∧ setupOf q = setupOf r ∧
    (raw = false → dtogOf d q = dtogOf d r ∧ kindOf q = kindOf r)

theorem DriverMade.refl (raw : Bool) (r : Word) : DriverMade raw r r := fun _ => ⟨id, rfl, fun _ => ⟨rfl, rfl⟩⟩

theorem DriverMade.trans {raw : Bool} {r q p : Word} (h : DriverMade raw r q) (k : DriverMade raw q p) :
    DriverMade raw r p := by
  intro d
  obtain ⟨hc, hs, ht⟩ := h d
  obtain ⟨kc, ks, kt⟩ := k d
  exact ⟨hc ∘ kc, ks.trans hs, fun e => ⟨(kt e).1.trans (ht e).1, (kt e).2.trans (ht e).2⟩⟩

/-- The gate sets no CTR flag and keeps SETUP, whatever is written (R150). -/
theorem driverMade_gateEpr (r w : Word) : DriverMade true r (gateEpr r w) := by
  intro d
  refine ⟨fun h => ?_, setupOf_gateEpr r w, by simp⟩
  rw [ctrOf_gateEpr, Bool.and_eq_true] at h
  exact h.1

/-- A word with toggle mask 0 and EP_KIND as read makes no change to them (R150). -/
theorem driverMade_gateEpr_of_keeps (raw : Bool) {r w : Word} (hd : ∀ d, dtogOf d (gateEpr r w) = dtogOf d r)
    (hk : kindOf (gateEpr r w) = kindOf r) : DriverMade raw r (gateEpr r w) := by
  intro d
  obtain ⟨hc, hs, -⟩ := driverMade_gateEpr r w d
  exact ⟨hc, hs, fun _ => ⟨hd d, hk⟩⟩

theorem driverMade_configureWord (raw : Bool) (r : Word) (n : Slot) (t : EpType) :
    DriverMade raw r (gateEpr r (configureWord r n t)) := by
  obtain ⟨-, hd, -, -, -, hk, -⟩ := fields_gate_conf r r n t
  exact driverMade_gateEpr_of_keeps raw hd hk

theorem driverMade_setStatusWord (raw : Bool) (r : Word) (d : Dir) (st : Status) :
    DriverMade raw r (gateEpr r (setStatusWord r d st)) := by
  obtain ⟨-, hd, -, -, -, -, hk, -⟩ := fields_gate_set r r d st
  exact driverMade_gateEpr_of_keeps raw hd hk

theorem driverMade_clearCtrWord (raw : Bool) (r : Word) (d : Dir) :
    DriverMade raw r (gateEpr r (clearCtrWord r d)) := by
  obtain ⟨-, -, hd, -, -, -, hk, -⟩ := fields_gate_clear r r d
  exact driverMade_gateEpr_of_keeps raw hd hk

/-- No bus step falls before the coming accesses, and every EPR is what the driver may have made of `s`'s. -/
structure DriverOnly (raw : Bool) (s t : State) : Prop where
  sched : t.sched = []
  epr : ∀ n, DriverMade raw (s.eprAt n) (t.eprAt n)

namespace DriverOnly

variable {raw : Bool} {s t u : State}

theorem refl (raw : Bool) (h : s.sched = []) : DriverOnly raw s s := ⟨h, fun _ => .refl _ _⟩

/-- Another state with the same endpoint registers and schedule. -/
theorem congr (h : DriverOnly raw s t) (hs : u.sched = t.sched) (he : u.epr = t.epr) : DriverOnly raw s u where
  sched := hs.trans h.sched
  epr n := by rw [State.eprAt_congr he]; exact h.epr n

theorem setEpr (h : DriverOnly raw s t) (n : Slot) {w : Word} (hw : DriverMade raw (t.eprAt n) w) :
    DriverOnly raw s (t.setEpr n w) where
  sched := h.sched
  epr m := by
    by_cases hm : n = m
    · subst hm
      simpa using (h.epr n).trans hw
    · rw [State.eprAt_setEpr_ne _ _ _ _ hm]
      exact h.epr m

end DriverOnly

theorem kept_driverOnly (raw : Bool) (s : State) : Kept (DriverOnly raw s) where
  access t h := by rw [interleave_undisturbed h.sched]; exact Act.leaves_done h
  draw t h := h.congr rfl rfl
  result t r h := h.congr rfl rfl
  reg t r w hr _ h := by
    cases r with
    | epr n => exact absurd rfl (hr n)
    | cntr | istr | fnr | daddr | btable => exact h.congr rfl rfl
  configure t n ty h := by
    have hi := interleave_undisturbed h.sched
    rw [epConfigure_eq hi hi]
    exact Act.leaves_done (h.setEpr n (driverMade_configureWord raw _ n ty))
  status t n d st h := by
    have hi := interleave_undisturbed h.sched
    rw [epSetStatus_eq hi hi]
    exact Act.leaves_done (h.setEpr n (driverMade_setStatusWord raw _ d st))
  clear t n d h := by
    have hi := interleave_undisturbed h.sched
    rw [epClearCtr_eq hi hi]
    exact Act.leaves_done (h.setEpr n (driverMade_clearCtrWord raw _ d))
  word t off w h _ := h.congr rfl rfl

theorem keptByAllocation_driverOnly (raw : Bool) (s : State) : KeptByAllocation (DriverOnly raw s) where
  arena _ _ h := h.congr rfl rfl
  record _ _ _ h _ := h.congr rfl rfl
  rx _ _ _ h := h.congr rfl rfl
  tx _ _ _ h := h.congr rfl rfl

/-- With no bus step in between, a driver operation leaves every EPR as the driver may make it. -/
theorem exec_driverOnly {i : Instr} {s t : State} (hs : s.sched = []) (hb : isBusStep i = false)
    (he : exec i s = .next t) : DriverOnly (isRawEprWrite i) s t := by
  have h := DriverOnly.refl (isRawEprWrite i) hs
  have k := kept_driverOnly (isRawEprWrite i) s
  have a := keptByAllocation_driverOnly (isRawEprWrite i) s
  refine k.exec i ?construct ?arena ?allocate (fun _ => h.congr rfl rfl) (fun _ h => h.congr rfl rfl)
    (fun _ h => h.congr rfl rfl) ?raw (fun e => by simp [hb] at e) h he
  case construct =>
    rintro c rfl
    rw [exec_construct_eq_next he]
    exact h.congr (by simp) (by simp)
  case arena => exact fun _ _ _ _ h e => a.arenaAllocate h e
  case allocate => exact fun d _ ty mps _ _ => a.allocSearch k d ty mps _ _ _ h
  case raw =>
    intro hr n w
    refine leaves_regWrite _ w (k.access s h) fun u hu => hu.setEpr n ?_
    rw [hr]
    exact driverMade_gateEpr _ w

end Sys2Proof.Machine

/-- Settles O58: with no bus step in between, an operation reaches an EPR through the gate only, and the words of the
register view have toggle mask 0 and EP_KIND as read. -/
theorem driverKeepsHardwareFlags : Obligations.DriverKeepsHardwareFlags :=
  fun _ _ _ n d hs hb he => (Sys2Proof.Machine.exec_driverOnly hs hb he).epr n d

namespace Sys2Proof.Machine

/-! Proofs about the frame of the bus engine (R81, R309): what no bus step changes. -/

/-- Each bus-step command runs one atomic step of the bus engine, whatever the state (R300). -/
theorem exec_eq_busStep_silent : ∀ {i : Instr}, isBusStep i = true → ∃ b, ∀ s, exec i s = (busStep b s).silent
  | .busReset, _ => ⟨.reset, fun _ => rfl⟩
  | .busOut e data fresh, _ => ⟨.out e data fresh, fun _ => rfl⟩
  | .busSetup e data, _ => ⟨.setup e data, fun _ => rfl⟩
  | .busIn e acked, _ => ⟨.inn e acked, fun _ => rfl⟩
  | .busSuspend, _ => ⟨.suspend, fun _ => rfl⟩
  | .busWakeup dp dm, _ => ⟨.wakeup dp dm, fun _ => rfl⟩
  | .busLine dp dm, _ => ⟨.line dp dm, fun _ => rfl⟩
  | .busOtherEvent which, _ => ⟨.other which, fun _ => rfl⟩

/-- A bus step changes no bit of CNTR but LP_MODE, which a wakeup clears (R81). -/
theorem busStep_cntr (b : BusStep) (s : State) :
    (busStep b s).Leaves fun t => t.cntr &&& 0xFFFB = s.cntr &&& 0xFFFB := by
  refine leaves_busStep ?event ?epr ?pma ?latch ?lines ?wake ?reset b s rfl
  case event => exact fun _ _ h => h
  case epr => exact fun _ _ _ h => h
  case pma => exact fun _ _ _ _ _ h _ _ _ _ => h
  case latch => exact fun _ _ h _ => h
  case lines => exact fun _ _ _ h => h
  case wake =>
    intro u h
    rw [State.setCntr_cntr, BitVec.and_assoc, BitVec.and_self, h]
  case reset => exact fun _ h => h

/-- States that agree on the driver's side and on the schedule differ at most in the fields the bus engine writes. -/
theorem SameDriver.eq_with {s t : State} (h : SameDriver s t) (hs : t.sched = s.sched) :
    t = { s with
      epr := t.epr, cntr := t.cntr, istr := t.istr, fnr := t.fnr, daddr := t.daddr, pma := t.pma, events := t.events } := by
  obtain ⟨⟩ := s
  obtain ⟨⟩ := t
  obtain ⟨rfl, rfl, rfl, rfl, rfl, rfl, rfl, rfl, rfl, rfl, rfl, rfl, rfl⟩ := h
  cases hs
  rfl

end Sys2Proof.Machine

/-- Settles O57: a bus-step command is one step of the bus engine, and each kind of change such a step makes keeps the
driver's side, the schedule and CNTR but for LP_MODE. -/
theorem busStepsKeepDriverState : Obligations.BusStepsKeepDriverState := by
  intro i s t hi he
  obtain ⟨b, hb⟩ := Sys2Proof.Machine.exec_eq_busStep_silent hi
  have hstep : Sys2Proof.Machine.busStep b s = .done () t := Sys2Proof.Machine.Act.silent_eq_next.mp ((hb s).symm.trans he)
  have hdriver := Sys2Proof.Machine.busStep_sameDriver b s s (.refl s) _ _ hstep
  have hsched := Sys2Proof.Machine.busStep_sched b s s.sched rfl _ _ hstep
  exact ⟨hdriver.eq_with hsched, Sys2Proof.Machine.busStep_cntr b s _ _ hstep⟩

namespace Sys2Proof.Machine

/-! Proofs about the encodings (file 30_encoding.md): the written words of R114 by their fields, the register view's words
as these, their effect through the write gate, and decoder and encoder against each other. -/

/-! ## The written words of an EPR (R112, R114) -/

/-- An EPR word with SETUP and both toggle bits 0: per direction its CTR bit and its STAT bits, the type, EP_KIND and EA.
Every row of R114 is such a word. -/
def eprPattern (ctr : Dir → Bool) (stat : Dir → BitVec 2) (t : EpType) (k : Bool) (a : BitVec 4) : Word :=
  BitVec.ofBool (ctr .out) ++ 0#1 ++ stat .out ++ 0#1 ++ t.code ++ BitVec.ofBool k ++
    (BitVec.ofBool (ctr .inn) ++ 0#1 ++ stat .inn) ++ a

section Pattern

variable (ctr : Dir → Bool) (stat : Dir → BitVec 2) (t : EpType) (k : Bool) (a : BitVec 4)

/-- Where the fields lie (R112). -/
theorem getLsbD_eprPattern (i : Nat) (hi : i < 16) :
    (eprPattern ctr stat t k a).getLsbD i =
      if i < 4 then a.getLsbD i else if i < 6 then (stat .inn).getLsbD (i - 4) else if i = 6 then false
      else if i = 7 then ctr .inn else if i = 8 then k else if i < 11 then t.code.getLsbD (i - 9) else if i = 11 then false
      else if i < 14 then (stat .out).getLsbD (i - 12) else if i = 14 then false else ctr .out := by
  show BitVec.getLsbD (w := 1 + 1 + 2 + 1 + 2 + 1 + (1 + 1 + 2) + 4) (_ ++ a) i = _
  repeat rw [BitVec.getLsbD_append]
  interval_cases i <;> simp [-BitVec.getLsbD_eq_getElem]

@[simp] theorem ctrOf_eprPattern (d : Dir) : ctrOf d (eprPattern ctr stat t k a) = ctr d := by
  cases d <;> simp [-BitVec.getLsbD_eq_getElem, ctrOf, getLsbD_eprPattern]

@[simp] theorem dtogOf_eprPattern (d : Dir) : dtogOf d (eprPattern ctr stat t k a) = false := by
  cases d <;> simp [-BitVec.getLsbD_eq_getElem, dtogOf, getLsbD_eprPattern]

@[simp] theorem statOf_eprPattern (d : Dir) : statOf d (eprPattern ctr stat t k a) = stat d := by
  apply BitVec.eq_of_getLsbD_eq
  intro i hi
  have : i = 0 ∨ i = 1 := by omega
  rcases this with rfl | rfl <;> cases d <;>
    simp [-BitVec.getLsbD_eq_getElem, getLsbD_statOf, statPos, getLsbD_eprPattern]

@[simp] theorem setupOf_eprPattern : setupOf (eprPattern ctr stat t k a) = false := by
  simp [-BitVec.getLsbD_eq_getElem, setupOf, getLsbD_eprPattern]

@[simp] theorem typeField_eprPattern : (eprPattern ctr stat t k a).extractLsb' 9 2 = t.code := by
  apply BitVec.eq_of_getLsbD_eq
  intro i hi
  have : i = 0 ∨ i = 1 := by omega
  rcases this with rfl | rfl <;> simp [-BitVec.getLsbD_eq_getElem, getLsbD_eprPattern]

@[simp] theorem typeOf_eprPattern : typeOf (eprPattern ctr stat t k a) = t := by simp [typeOf]

@[simp] theorem kindOf_eprPattern : kindOf (eprPattern ctr stat t k a) = k := by
  simp [-BitVec.getLsbD_eq_getElem, kindOf, getLsbD_eprPattern]

@[simp] theorem eaOf_eprPattern : eaOf (eprPattern ctr stat t k a) = a := by
  apply BitVec.eq_of_getLsbD_eq
  intro i hi
  have h16 : i < 16 := by omega
  simp [-BitVec.getLsbD_eq_getElem, eaOf, getLsbD_eprPattern, hi, h16]

end Pattern

theorem epwConfigureWord_eq (t : EpType) (k : Bool) (n : BitVec 4) :
    epwConfigureWord t k n = eprPattern (fun _ => true) (fun _ => 0) t k n := rfl

theorem epwSetStatusOutWord_eq (ss : BitVec 2) (t : EpType) (k : Bool) (a : BitVec 4) :
    epwSetStatusOutWord ss t k a = eprPattern (fun _ => true) (fun e => if e = .out then ss else 0) t k a := by
  simp [epwSetStatusOutWord, eprPattern]

theorem epwSetStatusInWord_eq (ss : BitVec 2) (t : EpType) (k : Bool) (a : BitVec 4) :
    epwSetStatusInWord ss t k a = eprPattern (fun _ => true) (fun e => if e = .inn then ss else 0) t k a := by
  have h : 0b10000#5 ++ t.code ++ BitVec.ofBool k ++ 0b10#2 ++ ss =
      0b10000#5 ++ t.code ++ BitVec.ofBool k ++ (0b10#2 ++ ss) := BitVec.append_assoc
  simp [epwSetStatusInWord, eprPattern, h]

theorem epwClearCtrOutWord_eq (t : EpType) (k : Bool) (a : BitVec 4) :
    epwClearCtrOutWord t k a = eprPattern (fun e => !decide (e = .out)) (fun _ => 0) t k a := rfl

theorem epwClearCtrInWord_eq (t : EpType) (k : Bool) (a : BitVec 4) :
    epwClearCtrInWord t k a = eprPattern (fun e => !decide (e = .inn)) (fun _ => 0) t k a := rfl

/-! ## The register view's words are the rows of R114 -/

/-- A word with SETUP and both toggle bits 0 is the pattern of its fields (R112). -/
theorem eq_eprPattern {w : Word} {ctr : Dir → Bool} {stat : Dir → BitVec 2} {t : EpType} {k : Bool} {a : BitVec 4}
    (hc : ∀ d, ctrOf d w = ctr d) (hd : ∀ d, dtogOf d w = false) (hs : ∀ d, statOf d w = stat d)
    (hu : setupOf w = false) (ht : w.extractLsb' 9 2 = t.code) (hk : kindOf w = k) (ha : eaOf w = a) :
    w = eprPattern ctr stat t k a :=
  eprWord_ext _ _ (by simpa using hc) (by simpa using hd) (by simpa using hs) (by simpa using hu) (by simpa using ht)
    (by simpa using hk) (by simpa using ha)

theorem typeOf_code (r : Word) : (typeOf r).code = r.extractLsb' 9 2 := EpType.code_ofCode _

theorem setupOf_configureWord (r : Word) (n : Slot) (t : EpType) : setupOf (configureWord r n t) = false := by
  have hn : (BitVec.ofNat 16 n).getLsbD 11 = false := by
    have hlt : (n : Nat) < 2 ^ 11 := n.isLt.trans (by decide)
    rw [BitVec.getLsbD_ofNat, Nat.testBit_lt_two_pow hlt, Bool.and_false]
  simp [-BitVec.getLsbD_eq_getElem, setupOf, getLsbD_configureWord, hn]

theorem setupOf_setStatusWord (r : Word) (d : Dir) (st : Status) : setupOf (setStatusWord r d st) = false := by
  cases d <;> simp [-BitVec.getLsbD_eq_getElem, setupOf, getLsbD_setStatusWord, getLsbD_keep, statPos]

theorem setupOf_clearCtrWord (r : Word) (d : Dir) : setupOf (clearCtrWord r d) = false := by
  simp [-BitVec.getLsbD_eq_getElem, setupOf, getLsbD_clearCtrWord, getLsbD_keep]

theorem configureWord_eq (r : Word) (n : Slot) (t : EpType) :
    configureWord r n t = epwConfigureWord t (kindOf r) (BitVec.ofNat 4 n) := by
  obtain ⟨hc, hd, hs, ht, hk, ha⟩ := fields_configureWord r n t
  rw [epwConfigureWord_eq]
  exact eq_eprPattern hc hd hs (setupOf_configureWord r n t) ht hk ha

theorem setStatusWord_eq (r : Word) (d : Dir) (st : Status) :
    setStatusWord r d st = eprPattern (fun _ => true) (fun e => if e = d then statOf d r ^^^ st.code else 0)
      (typeOf r) (kindOf r) (eaOf r) := by
  obtain ⟨hc, hd, hs, ht, hk, ha⟩ := fields_setStatusWord r d st
  exact eq_eprPattern hc hd hs (setupOf_setStatusWord r d st) (ht.trans (typeOf_code r).symm) hk ha

theorem clearCtrWord_eq (r : Word) (d : Dir) :
    clearCtrWord r d = eprPattern (fun e => !decide (e = d)) (fun _ => 0) (typeOf r) (kindOf r) (eaOf r) := by
  obtain ⟨hc, hd, hs, ht, hk, ha⟩ := fields_clearCtrWord r d
  exact eq_eprPattern hc hd hs (setupOf_clearCtrWord r d) (ht.trans (typeOf_code r).symm) hk ha

/-- With the current status as target the toggle mask is 0 (R113, R172). -/
theorem setStatusWord_statusOf (r : Word) (d : Dir) : setStatusWord r d (statusOf d r) = keep r := by
  have hcode : (statusOf d r).code = statOf d r := Status.code_ofCode _
  simp [setStatusWord, hcode]

/-! ## A written word through the gate (R150) -/

/-- With no bus step before the write, the word goes through the gate of the slot's EPR, and nothing else changes. -/
theorem writeEpr_undisturbed {s : State} (h : s.sched = []) (n : Slot) (w : Word) :
    (writeEpr n w s).returningUnit = .next ((s.setEpr n (gateEpr (s.eprAt n) w)).setResult .unit) := by
  rw [writeEpr, onSlot_val, regWrite_undisturbed h]
  rfl

theorem writeEpr_of_ge {n : Nat} (h : 8 ≤ n) (w : Word) (s : State) :
    (writeEpr n w s).returningUnit = .fault .noSuchRegister := by
  rw [writeEpr, onSlot_of_ge h]
  rfl

/-- An EPR after a pattern through the gate: toggles and SETUP kept, the configuration as written, and per direction CTR
cleared by a 0 and the status flipped by its mask (R150). -/
theorem fields_gate_eprPattern (r : Word) (ctr : Dir → Bool) (stat : Dir → BitVec 2) (t : EpType) (k : Bool)
    (a : BitVec 4) :
    (∀ d, ctrOf d (gateEpr r (eprPattern ctr stat t k a)) = (ctrOf d r && ctr d)) ∧
    (∀ d, dtogOf d (gateEpr r (eprPattern ctr stat t k a)) = dtogOf d r) ∧
    (∀ d, statOf d (gateEpr r (eprPattern ctr stat t k a)) = statOf d r ^^^ stat d) ∧
    setupOf (gateEpr r (eprPattern ctr stat t k a)) = setupOf r ∧ typeOf (gateEpr r (eprPattern ctr stat t k a)) = t ∧
    kindOf (gateEpr r (eprPattern ctr stat t k a)) = k ∧ eaOf (gateEpr r (eprPattern ctr stat t k a)) = a := by
  simp [ctrOf_gateEpr, dtogOf_gateEpr, statOf_gateEpr, setupOf_gateEpr, typeOf_gateEpr, kindOf_gateEpr, eaOf_gateEpr]

end Sys2Proof.Machine

namespace Sys2Proof

/-! ## What the decoder makes of an encoded command (R124, R125) -/

/-- An encoded command with zero bytes behind it (log entry 2). -/
def Encoded.pad (c : Encoded) (n : Nat) : Encoded := ⟨c.form, c.bytes ++ List.replicate n 0#8⟩

@[simp] theorem Encoded.pad_zero (c : Encoded) : c.pad 0 = c := by simp [pad]

@[simp] theorem finish_replicate (i : Instr) (n : Nat) : finish i (List.replicate n 0#8) = .ok i := by simp [finish]

/-- What comes after an operand that was read. -/
@[simp] theorem ok_bind {α β : Type} (v : α) (k : α → Except Reject β) : (Except.ok v >>= k) = k v := rfl

/-- A call with padding is read as its selector and its arguments. -/
@[simp] theorem decode_call_pad (sel : Byte) (args : List Byte) (n : Nat) :
    decode ((call sel args).pad n) = decodeCall (sel :: (args ++ List.replicate n 0#8)) := rfl

/-- A written word with padding is read as the instruction of its row, if the word fits the row. -/
theorem decode_written_pad {r : WordRow} {w : Word} {slot : Nat} {i : Instr} (hw : r.fits w = true)
    (hs : isU7 slot = true) (hi : decodeRow r w slot = .ok i) (n : Nat) : decode ((written r w slot).pad n) = .ok i := by
  have hbytes : (written r w slot).bytes ++ List.replicate n 0#8 =
      putWord w ++ (r.tag :: (putU7 slot ++ List.replicate n 0#8)) := by simp [written]
  show decodeWord ((written r w slot).bytes ++ List.replicate n 0#8) = _
  rw [hbytes]
  simp [decodeWord, getByte, getU7_putU7 slot _ hs, wordRowOf_tag r w hw, hi]

section Rows

open Machine

/-- `epw.configure` takes its slot from the EA field (R114, log entry 3). -/
theorem decodeRow_configure (w : Word) :
    decodeRow .configure w 0 = .ok (.epwConfigure (typeOf w) (kindOf w) (eaOf w)) := rfl

/-- The other rows of R114, field by field. -/
theorem decodeRow_eprWord (w : Word) (slot : Nat) :
    decodeRow .setStatusOut w slot = .ok (.epwSetStatusOut slot (statOf .out w) (typeOf w) (kindOf w) (eaOf w)) ∧
    decodeRow .setStatusIn w slot = .ok (.epwSetStatusIn slot (statOf .inn w) (typeOf w) (kindOf w) (eaOf w)) ∧
    decodeRow .clearCtrOut w slot = .ok (.epwClearCtrOut slot (typeOf w) (kindOf w) (eaOf w)) ∧
    decodeRow .clearCtrIn w slot = .ok (.epwClearCtrIn slot (typeOf w) (kindOf w) (eaOf w)) :=
  ⟨rfl, rfl, rfl, rfl⟩

theorem decodeRow_daddrSet (a : BitVec 7) : decodeRow .daddrSet (daddrwSetWord a) 0 = .ok (.daddrwSet a) := by
  have h : (daddrwSetWord a).extractLsb' 0 7 = a := by revert a; decide
  rw [decodeRow, if_pos rfl, h]

/-- Decoding undoes encoding, also with padding behind the command. -/
theorem decode_encode_pad (i : Instr) (h : i.wellFormed = true) (m : Nat) : decode ((encode i).pad m) = .ok i := by
  cases i
  case construct | pmaAllocate | pmaRead | pmaWrite | encodeReceiveSize | istrWrite | allocateEndpoint | reset | write
    | read | stall | unstall | poll | enable | setDeviceAddress | suspend | resume | forceReset | busReset | busOut
    | busSetup | busIn | busSuspend | busWakeup | busLine | busOtherEvent =>
    simp [encode, decodeCall, getByte]
  case pmaDescriptor n | epConfigure n _ | epSetStatus n _ _ | epClearCtr n _ | epSnapshot n | eprWrite n _ =>
    simp [encode, decodeCall, getU7_putU7 n _ h]
  case epwConfigure t k n =>
    exact decode_written_pad (fits_epwConfigureWord t k n) rfl (by simp [epwConfigureWord_eq, decodeRow_configure]) m
  case epwSetStatusOut slot ss t k a =>
    exact decode_written_pad (fits_epwSetStatusOutWord ss t k a) h
      (by simp [epwSetStatusOutWord_eq, decodeRow_eprWord]) m
  case epwSetStatusIn slot ss t k a =>
    exact decode_written_pad (fits_epwSetStatusInWord ss t k a) h
      (by simp [epwSetStatusInWord_eq, decodeRow_eprWord]) m
  case epwClearCtrOut slot t k a =>
    exact decode_written_pad (fits_epwClearCtrOutWord t k a) h (by simp [epwClearCtrOutWord_eq, decodeRow_eprWord]) m
  case epwClearCtrIn slot t k a =>
    exact decode_written_pad (fits_epwClearCtrInWord t k a) h (by simp [epwClearCtrInWord_eq, decodeRow_eprWord]) m
  case istrwClearWkup | istrwClearReset | istrwClearSusp | istrwClearAll =>
    exact decode_written_pad (by decide) rfl rfl m
  case daddrwSet a => exact decode_written_pad (fits_daddrwSetWord a) rfl (decodeRow_daddrSet a) m

end Rows

/-! ## What the decoder accepts (R124) -/

/-- The decoder, where it accepts, gives a well-formed instruction. -/
def OnlyWellFormed (x : Except Reject Instr) : Prop := ∀ i, x = .ok i → i.wellFormed = true

theorem OnlyWellFormed.error (e : Reject) : OnlyWellFormed (.error e) := by
  rintro i ⟨⟩

theorem OnlyWellFormed.ok {i : Instr} (h : i.wellFormed = true) : OnlyWellFormed (.ok i) := by
  rintro j ⟨⟩
  exact h

theorem OnlyWellFormed.finish {i : Instr} (h : i.wellFormed = true) (bs : List Byte) : OnlyWellFormed (finish i bs) := by
  unfold Sys2Proof.finish
  split
  · exact .ok h
  · exact .error _

theorem OnlyWellFormed.bind {α : Type} {x : Except Reject α} {k : α → Except Reject Instr}
    (h : ∀ v, x = .ok v → OnlyWellFormed (k v)) : OnlyWellFormed (x >>= k) := by
  cases x with
  | error e => exact .error e
  | ok v => exact h v rfl

/-- An operand whose type admits exactly its values. -/
theorem OnlyWellFormed.read {α : Type} {x : Except Reject (α × List Byte)} {k : α × List Byte → Except Reject Instr}
    (h : ∀ v bs, OnlyWellFormed (k (v, bs))) : OnlyWellFormed (x >>= k) :=
  .bind fun v _ => h v.1 v.2

theorem isU7_of_getU7 {bs rest : List Byte} {n : Nat} (h : getU7 bs = .ok (n, rest)) : isU7 n = true := by
  cases bs with
  | nil => cases h
  | cons b bs =>
    simp only [getU7] at h
    split at h
    case isTrue hb =>
      cases h
      simpa [isU7] using hb
    case isFalse => cases h

/-- A `u7` index, which the decoder has checked. -/
theorem OnlyWellFormed.readU7 {bs : List Byte} {k : Nat × List Byte → Except Reject Instr}
    (h : ∀ n, isU7 n = true → ∀ bs, OnlyWellFormed (k (n, bs))) : OnlyWellFormed (getU7 bs >>= k) :=
  .bind fun v hv => h v.1 (isU7_of_getU7 hv) v.2

/-- Six calls have a `u7` index, their first operand: `pma_descriptor` and the rows 0x10 to 0x18 of R125. -/
theorem onlyWellFormed_decodeCall (bs : List Byte) : OnlyWellFormed (decodeCall bs) := by
  unfold decodeCall
  split
  · exact .error _
  split
  case h_3 | h_7 | h_8 | h_9 | h_10 | h_11 =>
    refine .readU7 fun _ hn _ => ?_
    repeat refine .read fun _ _ => ?_
    refine .finish ?_ _
    exact hn
  case h_33 => exact .error _
  all_goals
    repeat refine .read fun _ _ => ?_
    exact .finish rfl _

theorem onlyWellFormed_decodeRow (r : WordRow) (w : Word) {slot : Nat} (h : isU7 slot = true) :
    OnlyWellFormed (decodeRow r w slot) := by
  cases r
  case setStatusOut | setStatusIn | clearCtrOut | clearCtrIn => exact .ok h
  case configure | clearWkup | clearReset | clearSusp | clearAll | daddrSet =>
    unfold decodeRow
    dsimp only
    split
    · exact .ok rfl
    · exact .error _

theorem onlyWellFormed_decodeWord (bs : List Byte) : OnlyWellFormed (decodeWord bs) :=
  .read fun w _ => .read fun _ _ => .readU7 fun _ hs _ => .bind fun r _ => .bind fun i hi =>
    .finish (onlyWellFormed_decodeRow r w hs i hi) _

end Sys2Proof

section Encodings

open Sys2Proof Sys2Proof.Machine Sys2Proof.Laws.TableBits

/-- Settles O2: the command's own padding is empty, and each operand is read back from the bytes it was written as. -/
theorem decodeEncodeRoundTrip : Obligations.DecodeEncodeRoundTrip := by
  intro i h
  simpa using decode_encode_pad i h 0

/-- Settles O3: the one check `wellFormed` makes is the one the decoder makes when it reads a `u7` index. -/
theorem decodedCommandsAreWellFormed : Obligations.DecodedCommandsAreWellFormed := by
  rintro ⟨form, bytes⟩
  cases form with
  | call => exact onlyWellFormed_decodeCall bytes
  | word => exact onlyWellFormed_decodeWord bytes

/-- Settles O4: a word of the register view and its row of R114 have the same fields, and the fields make the word. -/
theorem registerViewWords : Obligations.RegisterViewWords := by
  refine ⟨fun r n t => ?configure, fun r st => ?status, fun r => ?clear, setStatusWord_statusOf⟩
  case configure =>
    rw [configureWord_eq]
    exact ⟨rfl, fits_eq (fits_epwConfigureWord _ _ _)⟩
  case status =>
    rw [setStatusWord_eq, setStatusWord_eq, ← epwSetStatusOutWord_eq, ← epwSetStatusInWord_eq]
    exact ⟨rfl, fits_eq (fits_epwSetStatusOutWord _ _ _ _), rfl, fits_eq (fits_epwSetStatusInWord _ _ _ _)⟩
  case clear =>
    rw [clearCtrWord_eq, clearCtrWord_eq, ← epwClearCtrOutWord_eq, ← epwClearCtrInWord_eq]
    exact ⟨rfl, fits_eq (fits_epwClearCtrOutWord _ _ _), rfl, fits_eq (fits_epwClearCtrInWord _ _ _)⟩

/-- Settles O12: the EA field of the word names the slot, and the gate then acts on each field by itself. -/
theorem epwConfigureEffect : Obligations.EpwConfigureEffect := by
  refine ⟨fun t k n s hs => ⟨gateEpr (s.eprAt n) (epwConfigureWord t k (BitVec.ofNat 4 n)), ?write, ?fields⟩,
    fun t k n s hn => writeEpr_of_ge hn _ s⟩
  case write =>
    have hn : (BitVec.ofNat 4 n).toNat = (n : Nat) := by
      rw [BitVec.toNat_ofNat, Nat.mod_eq_of_lt (n.isLt.trans (by decide))]
    show (writeEpr _ _ s).returningUnit = _
    rw [hn, writeEpr_undisturbed hs]
  case fields => simp [epwConfigureWord_eq, fields_gate_eprPattern, SameDir]

/-- Settles O13: both words keep the CTR flags and the toggles, and hold a toggle mask for one status only. -/
theorem epwSetStatusEffect : Obligations.EpwSetStatusEffect := by
  refine fun slot ss t k a s => ⟨fun h => ⟨writeEpr_of_ge h _ s, writeEpr_of_ge h _ s⟩, ?_⟩
  rintro n rfl hs
  refine ⟨⟨_, writeEpr_undisturbed hs n _, ?out⟩, ⟨_, writeEpr_undisturbed hs n _, ?inn⟩⟩
  case out => simp [epwSetStatusOutWord_eq, fields_gate_eprPattern, SameDir]
  case inn => simp [epwSetStatusInWord_eq, fields_gate_eprPattern, SameDir]

/-- Settles O14: both words hold toggle masks 0, and a 0 for one CTR flag only. -/
theorem epwClearCtrEffect : Obligations.EpwClearCtrEffect := by
  refine fun slot t k a s => ⟨fun h => ⟨writeEpr_of_ge h _ s, writeEpr_of_ge h _ s⟩, ?_⟩
  rintro n rfl hs
  refine ⟨⟨_, writeEpr_undisturbed hs n _, ?out⟩, ⟨_, writeEpr_undisturbed hs n _, ?inn⟩⟩
  case out => simp [epwClearCtrOutWord_eq, fields_gate_eprPattern, SameDir]
  case inn => simp [epwClearCtrInWord_eq, fields_gate_eprPattern, SameDir]

/-- Settles O1: the decoder runs on each of the encoded items. -/
theorem tableWordsDecode : Obligations.TableWordsDecode := by
  unfold Obligations.TableWordsDecode
  decide

end Encodings

namespace Sys2Proof.Machine

/-! Proofs about the register view (file 40_register_view.md): the write gates, and each operation on a slot as one write
through the gate. -/

/-! ## The keep word (R113, R152) -/

theorem gateEpr_keep_self (r : Word) : gateEpr r (keep r) = r := by
  obtain ⟨hc, hd, hs, ht, hk, ha⟩ := fields_keep r
  refine eprWord_ext _ _ (fun d => ?ctr) (fun d => ?dtog) (fun d => ?stat) (setupOf_gateEpr r _)
    ((typeField_gateEpr r _).trans ht) ((kindOf_gateEpr r _).trans hk) ((eaOf_gateEpr r _).trans ha)
  case ctr => rw [ctrOf_gateEpr, hc, Bool.and_true]
  case dtog => rw [dtogOf_gateEpr, hd, Bool.xor_false]
  case stat => rw [statOf_gateEpr, hs]; exact BitVec.xor_zero

/-- The keep word holds the plain fields of the value read and no other bit of it. -/
theorem keep_congr {r r' : Word} (h : r' &&& 0x070F = r &&& 0x070F) : keep r' = keep r := by rw [keep, h, keep]

/-! ## The other words of the register view (R170, R172) -/

/-- The word of `ep_configure` for a slot that has the type and the index already changes nothing (R170). -/
theorem gateEpr_configureWord_self {r : Word} {n : Slot} {t : EpType} (ht : typeOf r = t) (ha : eaOf r = BitVec.ofNat 4 n) :
    gateEpr r (configureWord r n t) = r := by
  obtain ⟨hc, hd, hs, hu, hty, hk, hea⟩ := fields_gate_conf r r n t
  have htype : (gateEpr r (configureWord r n t)).extractLsb' 9 2 = r.extractLsb' 9 2 := by
    rw [← typeOf_code, ← typeOf_code, hty, ht]
  exact eprWord_ext _ _ hc hd hs hu htype hk (hea.trans ha.symm)

/-- Of three XORed statuses the third is what is left exactly when the first two are one (R154). -/
theorem statusOf_gate_setStatusWord_eq_iff (r r' : Word) (d : Dir) (st : Status) :
    statusOf d (gateEpr r' (setStatusWord r d st)) = st ↔ statusOf d r' = statusOf d r := by
  obtain ⟨-, -, hs, -⟩ := fields_gate_set r r' d st
  have hcode : (statusOf d r).code = statOf d r := Status.code_ofCode _
  rw [statusOf_eq_iff, statusOf_eq_iff, hs, hcode]
  calc statOf d r' ^^^ statOf d r ^^^ st.code = st.code
    _ ↔ statOf d r' ^^^ statOf d r ^^^ st.code = 0#2 ^^^ st.code := by rw [BitVec.zero_xor]
    _ ↔ statOf d r' ^^^ statOf d r = 0#2 := BitVec.xor_left_inj _
    _ ↔ statOf d r' = statOf d r := BitVec.xor_eq_zero_iff

/-! ## The operations under any interleaving: `u` is the state at the first access, `v` at the second -/

section Accesses

variable {s u v : State} (hu : interleave s = .done () u)
include hu

theorem exec_eprWrite_eq (n : Slot) (w : Word) :
    exec (.eprWrite n w) s = .next ((u.setEpr n (gateEpr (u.eprAt n) w)).setResult .unit) := by
  show (writeEpr n w s).returningUnit = _
  rw [writeEpr, onSlot_val, regWrite, hu]
  rfl

theorem exec_epSnapshot_eq (n : Slot) :
    exec (.epSnapshot n) s = .next (u.setResult (.register (u.eprAt n))) := by
  show (onSlot n .noSuchRegister _).returning = _
  rw [onSlot_val, regRead, hu]
  rfl

variable (hv : interleave u = .done () v)
include hv

theorem exec_epConfigure_eq (n : Slot) (t : EpType) :
    exec (.epConfigure n t) s =
      .next ((v.setEpr n (gateEpr (v.eprAt n) (configureWord (u.eprAt n) n t))).setResult .unit) := by
  show (onSlot n .noSuchRegister _).returningUnit = _
  rw [onSlot_val, epConfigure_eq hu hv, Act.returningUnit_done]

theorem exec_epSetStatus_eq (n : Slot) (d : Dir) (st : Status) :
    exec (.epSetStatus n d st) s =
      .next ((v.setEpr n (gateEpr (v.eprAt n) (setStatusWord (u.eprAt n) d st))).setResult .unit) := by
  show (onSlot n .noSuchRegister _).returningUnit = _
  rw [onSlot_val, epSetStatus_eq hu hv, Act.returningUnit_done]

theorem exec_epClearCtr_eq (n : Slot) (d : Dir) :
    exec (.epClearCtr n d) s =
      .next ((v.setEpr n (gateEpr (v.eprAt n) (clearCtrWord (u.eprAt n) d))).setResult .unit) := by
  show (onSlot n .noSuchRegister _).returningUnit = _
  rw [onSlot_val, epClearCtr_eq hu hv, Act.returningUnit_done]

end Accesses

/-- The write is the last access, so no bus step falls between it and the end of the operation (R170). -/
theorem epConfigure_leaves_configured (n : Slot) (t : EpType) (s : State) :
    (epConfigure n t s).Leaves fun u => typeOf (u.eprAt n) = t ∧ eaOf (u.eprAt n) = BitVec.ofNat 4 n := by
  refine Act.leaves_andThen (P := fun _ => True) (fun _ _ _ => trivial) fun r v _ =>
    leaves_regWrite (P := fun _ => True) _ _ (fun _ _ _ => trivial) fun w _ => ?_
  obtain ⟨-, -, -, -, hty, -, hea⟩ := fields_gate_conf r (w.eprAt n) n t
  rw [State.storeReg, State.eprAt_setEpr_same]
  exact ⟨hty, hea⟩

/-- On a slot that does not exist there is no register to access. -/
theorem returningUnit_onSlot_of_ge {n : Nat} (h : 8 ≤ n) (k : Slot → Act Unit) :
    (onSlot n .noSuchRegister k).returningUnit = .fault .noSuchRegister := by
  rw [onSlot_of_ge h, Act.returningUnit_fault]

/-! ## The ISTR gate (R42, R160) -/

/-- The gate keeps a latched flag where the word holds a 1; `m` is the word's part over the latched flags. -/
theorem regWrite_istr_undisturbed {s : State} {w m : Word} (h : s.sched = []) (hm : w &&& 0x7F00 = m) :
    (regWrite .istr w s).returningUnit = .next ((s.setIstr (s.istr &&& m)).setResult .unit) := by
  have hgate : gateIstr s.istr w = s.istr &&& m := by rw [gateIstr, BitVec.and_assoc, hm]
  rw [regWrite_undisturbed h, State.storeReg, hgate, Act.returningUnit_done]

theorem getLsbD_istrFlags_low (s : State) (b : Nat) (h : b < 8) : s.istrFlags.getLsbD b = false := by
  unfold State.istrFlags
  interval_cases b <;> cases s.anyCtr <;> simp [-BitVec.getLsbD_eq_getElem]

/-- ISTR as it reads: the flags, and free bits below them (R42). -/
theorem getLsbD_regValue_istr (s : State) (b : Nat) :
    (s.regValue .istr).getLsbD b = (s.istrFlags.getLsbD b || (Config.freeIstrLow s.draws).getLsbD b) := by
  rw [State.regValue, BitVec.getLsbD_or, BitVec.getLsbD_setWidth]
  by_cases h : b < 16
  · simp only [h, decide_true, Bool.true_and]
  · rw [BitVec.getLsbD_of_ge (Config.freeIstrLow s.draws) b (by omega), Bool.and_false]

/-- Only bits 4 to 0 are free. -/
theorem getLsbD_regValue_istr_of_ge (s : State) (b : Nat) (h : 5 ≤ b) :
    (s.regValue .istr).getLsbD b = s.istrFlags.getLsbD b := by
  rw [getLsbD_regValue_istr, BitVec.getLsbD_of_ge _ b h, Bool.or_false]

theorem getLsbD_regValue_istr_of_lt (s : State) (b : Nat) (h : b < 5) :
    (s.regValue .istr).getLsbD b = (Config.freeIstrLow s.draws).getLsbD b := by
  rw [getLsbD_regValue_istr, getLsbD_istrFlags_low s b (by omega), Bool.false_or]

/-- A word through the mask of the latched flags keeps its bits 14 to 8. -/
theorem getLsbD_and_latched (w : Word) (b : Nat) (h1 : 8 ≤ b) (h2 : b ≤ 14) : (w &&& 0x7F00).getLsbD b = w.getLsbD b := by
  interval_cases b <;> simp [-BitVec.getLsbD_eq_getElem]

end Sys2Proof.Machine

section RegisterView

open Sys2Proof Sys2Proof.Machine

/-- Settles O10: a raw write is one access, and the gate acts on each field by itself. -/
theorem eprWriteGate : Obligations.EprWriteGate := by
  refine ⟨fun n w s hs => exec_eprWrite_eq (interleave_undisturbed hs) n w, fun n w s u hu => exec_eprWrite_eq hu n w,
    fun n w s hn => writeEpr_of_ge hn w s, fun r w d => ?fields⟩
  case fields =>
    exact ⟨ctrOf_gateEpr d r w, dtogOf_gateEpr d r w, statOf_gateEpr d r w, setupOf_gateEpr r w, typeOf_gateEpr r w,
      kindOf_gateEpr r w, eaOf_gateEpr r w⟩

/-- Settles O11: the keep word depends only on the fields under the mask 0x070F, so it is the keep word of the value at the
write as well. -/
theorem keepWordChangesNothing : Obligations.KeepWordChangesNothing := by
  refine ⟨gateEpr_keep_self, fun r r' h => ?_⟩
  show gateEpr r' (keep r) = r'
  rw [← keep_congr h, gateEpr_keep_self]

/-- Settles O15: the gate acts on bits 14 to 8, and the other bits of a read come from the endpoint registers and from the
free values, which the write leaves as they are. -/
theorem istrWriteGate : Obligations.IstrWriteGate := by
  intro s hs
  refine ⟨fun w => ⟨s.istr &&& (w &&& 0x7F00), regWrite_istr_undisturbed hs rfl, ?gate, ?flags, ?ctr, ?free, ?zero⟩,
    regWrite_istr_undisturbed hs (by decide), regWrite_istr_undisturbed hs (by decide),
    regWrite_istr_undisturbed hs (by decide), ?all⟩
  case gate =>
    intro b h1 h2
    rw [BitVec.getLsbD_and, getLsbD_and_latched w b h1 h2]
  case flags =>
    intro b h1 h2
    rw [getLsbD_regValue_istr_of_ge _ b (by omega), getLsbD_istrFlags _ b h1 h2, State.setIstr_istr]
  case ctr =>
    rw [getLsbD_regValue_istr_of_ge _ 15 (by omega), getLsbD_istrFlags_ctr]
    exact State.anyCtr_congr (State.setIstr_epr _ _)
  case free =>
    intro b h
    rw [getLsbD_regValue_istr_of_lt _ b (by omega), getLsbD_regValue_istr_of_lt _ b (by omega), State.setIstr_draws]
  case zero =>
    intro b h1 h2
    rw [getLsbD_regValue_istr_of_ge _ b h1, getLsbD_istrFlags_low _ b (by omega)]
  case all =>
    have hclear : s.istr &&& 0x0000 = 0x0000 := BitVec.and_zero
    have h := regWrite_istr_undisturbed (w := istrwClearAllWord) (m := 0x0000) hs (by decide)
    rwa [hclear] at h

/-- Settles O16: the word of `ep_configure` holds the type and the index, EP_KIND as read, and no toggle. -/
theorem epConfigureEffect : Obligations.EpConfigureEffect := by
  refine ⟨fun n t s hs => ?effect, fun n t s hs ht ha => ?same, fun n t s u he => ?configured,
    fun n t s hn => returningUnit_onSlot_of_ge hn _⟩
  case effect =>
    have hi := interleave_undisturbed hs
    obtain ⟨hc, hd, hst, hu, hty, hk, hea⟩ := fields_gate_conf (s.eprAt n) (s.eprAt n) n t
    exact ⟨_, exec_epConfigure_eq hi hi n t, hty, hea, ⟨hc _, hd _, hst _⟩, ⟨hc _, hd _, hst _⟩, hu, hk⟩
  case same =>
    have hi := interleave_undisturbed hs
    rw [exec_epConfigure_eq hi hi, State.setEpr_self _ _ _ (gateEpr_configureWord_self ht ha).symm]
  case configured =>
    have he : (onSlot n .noSuchRegister fun i => epConfigure i t s).returningUnit = .next u := he
    rw [onSlot_val] at he
    obtain ⟨v, hv, rfl⟩ := Act.returningUnit_eq_next.mp he
    exact epConfigure_leaves_configured n t s () v hv

/-- Settles O17: the word of `ep_set_status` is the keep word of the value read with one status toggle mask. -/
theorem epSetStatusEffect : Obligations.EpSetStatusEffect := by
  refine ⟨fun n d st s hs => ?effect, fun n d st s hs h => ?same, fun n d st s u v hu hv => ?race,
    fun n d st s hn => returningUnit_onSlot_of_ge hn _⟩
  case effect =>
    have hi := interleave_undisturbed hs
    obtain ⟨hc, hd, -, hst, hu, hty, hk, hea⟩ := fields_gate_set (s.eprAt n) (s.eprAt n) d st
    exact ⟨_, exec_epSetStatus_eq hi hi n d st, (statusOf_gate_setStatusWord_eq_iff _ _ d st).mpr rfl, hc d, hd d,
      fun e he => ⟨hc e, hd e, hst e he⟩, hty, hk, hea, hu⟩
  case same =>
    have hi := interleave_undisturbed hs
    rw [exec_epSetStatus_eq hi hi, ← h, setStatusWord_statusOf, gateEpr_keep_self, State.setEpr_self _ _ _ rfl]
  case race =>
    obtain ⟨hc, hd, hx, hst, hsu, hty, hk, hea⟩ := fields_gate_set (u.eprAt n) (v.eprAt n) d st
    exact ⟨_, exec_epSetStatus_eq hu hv n d st, hx, hc d, hd d, fun e he => ⟨hc e, hd e, hst e he⟩, hsu, hty, hk, hea⟩

/-- Settles O18: the toggle mask is made from the status at the read and applied to the status at the write. -/
theorem statusRaceIsXor : Obligations.StatusRaceIsXor := by
  intro n d st s u v hu hv
  obtain ⟨hc, hd, hx, hst, -⟩ := fields_gate_set (u.eprAt n) (v.eprAt n) d st
  exact ⟨_, exec_epSetStatus_eq hu hv n d st, hx, statusOf_gate_setStatusWord_eq_iff _ _ d st,
    fun e he => ⟨hc e, hd e, hst e he⟩, hc d, hd d⟩

/-- Settles O19: the word of `ep_clear_ctr` is the keep word of the value read with one CTR bit 0. -/
theorem epClearCtrEffect : Obligations.EpClearCtrEffect := by
  refine ⟨fun n d s hs => ?effect, fun n d s u v hu hv => ?race, fun n d s hn => returningUnit_onSlot_of_ge hn _⟩
  case effect =>
    have hi := interleave_undisturbed hs
    obtain ⟨hclear, hc, hd, hst, hu, hty, hk, hea⟩ := fields_gate_clear (s.eprAt n) (s.eprAt n) d
    exact ⟨_, exec_epClearCtr_eq hi hi n d, hclear, hst d, hd d, fun e he => ⟨hc e he, hd e, hst e⟩, hty, hk, hea, hu⟩
  case race =>
    obtain ⟨hclear, hc, hd, hst, hsu, hty, hk, hea⟩ := fields_gate_clear (u.eprAt n) (v.eprAt n) d
    exact ⟨_, exec_epClearCtr_eq hu hv n d, hclear, hst d, hd d, fun e he => ⟨hc e he, hd e, hst e⟩, hsu, hty, hk, hea⟩

/-- Settles O20: an EPR read is one access without a side effect. -/
theorem epSnapshotEffect : Obligations.EpSnapshotEffect := by
  refine ⟨fun n s hs => exec_epSnapshot_eq (interleave_undisturbed hs) n, fun n s hn => ?_⟩
  show (onSlot n .noSuchRegister _).returning = _
  rw [onSlot_of_ge hn, Act.returning_fault]

end RegisterView

namespace Sys2Proof.Machine

/-! Proofs about packet memory (file 41_packet_memory.md): the arena, the descriptor handle, the two copies and the
receive-size encoder. -/

/-! ## The arena (R190, R191) -/

/-- Allocation moves the free end of the arena up only, and nothing but construction moves it otherwise, whatever the bus
engine does in between (R191(d), R49). -/
theorem exec_nextFree_le {i : Instr} {s t : State} (hc : ∀ c, i ≠ .construct c) (he : exec i s = .next t) :
    s.nextFree ≤ t.nextFree := by
  have k : Kept fun u => s.nextFree ≤ u.nextFree := .of_records fun _ _ e h => e.nextFree ▸ h
  refine k.exec i (fun c e => absurd e (hc c)) ?arena ?allocate (fun _ => le_rfl) (fun _ h => h) (fun _ h => h) ?raw ?bus
    le_rfl he
  case arena =>
    intro u size off v h e
    obtain ⟨-, -, rfl⟩ := arenaAllocate_eq_ok.mp e
    exact h.trans (Nat.le_add_right _ _)
  case allocate =>
    intro d req ty mps _ _
    refine leaves_allocSearch d ty mps _ (fun u i h => ?type) (fun u i h _ _ => ?claim) _ _ le_rfl
    case type => rcases takeType_cases i ty u with e | ⟨-, e⟩ <;> rwa [e]
    case claim =>
      exact k.claim (fun _ _ h hn => h.trans hn) (fun _ _ _ _ h _ _ => h) (fun _ _ _ h => h) (fun _ _ _ h => h) i d mps h
  case raw => exact fun _ n w => leaves_regWrite _ w (k.access s le_rfl) fun _ h => h
  case bus => exact fun _ b v u e => (busStep_sameDriver b s s (.refl s) v u e).nextFree.ge

/-! ## The two copies (R194, R196) -/

theorem exec_pmaWrite_eq (off : Nat) (src : List Byte) (s : State) :
    exec (.pmaWrite off src) s = (copyIn src off s).returningUnit := rfl

theorem exec_pmaRead_eq (off len : Nat) (s : State) :
    exec (.pmaRead off len) s = ((copyOut len off s).andThen fun dest s => .done (.bytes dest) s).returning := rfl

/-! ## The receive-size encoder (R120, R200, R201) -/

/-- The capacity a COUNT_RX word declares, by the word's number: bit 15 is the regime, bits 14 to 10 the blocks (R120). -/
theorem capacity_eq_toNat (w : Word) :
    capacity w = if 0x8000 ≤ w.toNat then 32 * (w.toNat / 1024 % 32 + 1) else 2 * (w.toNat / 1024 % 32) := by
  have blocks : (w.extractLsb' 10 5).toNat = w.toNat / 1024 % 32 := by
    rw [BitVec.extractLsb'_toNat, Nat.shiftRight_eq_div_pow]
  have coarse : w.getLsbD 15 = decide (0x8000 ≤ w.toNat) := BitVec.msb_eq_decide w
  simp only [capacity, blocks, coarse, decide_eq_true_eq]

theorem countField_eq_toNat (w : Word) : countField w = w.toNat % 1024 := by
  rw [countField, BitVec.extractLsb'_toNat, Nat.shiftRight_zero]

/-- Blocks of 2 bytes: the number of blocks in bits 14 to 10, every other bit 0 (R200). -/
theorem toNat_fineWord {k : Nat} (h : k < 32) : (BitVec.ofNat 16 k <<< 10).toNat = 1024 * k := by
  rw [BitVec.toNat_shiftLeft, BitVec.toNat_ofNat, Nat.shiftLeft_eq]
  omega

/-- Blocks of 32 bytes: bit 15 set above the number of blocks (R200). -/
theorem toNat_coarseWord {k : Nat} (h : k < 32) :
    (0x8000#16 ||| (BitVec.ofNat 16 k <<< 10)).toNat = 0x8000 + 1024 * k := by
  rw [BitVec.toNat_or, toNat_fineWord h]
  exact (Nat.two_pow_add_eq_or_of_lt (i := 15) (by omega) 1).symm

/-- What the encoder answers for a size (R200, R201): the smallest multiple of `block` bytes that holds it, and a word
that declares that capacity and has no count. -/
structure EncodesSize (size block rsize : Nat) (enc : Word) : Prop where
  fits : size ≤ rsize
  capacity : capacity enc = rsize
  slack : rsize - size < block
  even : rsize % 2 = 0
  count : countField enc = 0

theorem encodesSize_fine {size : Nat} {enc : Word} (h : size ≤ 62) (he : enc.toNat = 1024 * (roundUp size 2 / 2)) :
    EncodesSize size 2 (roundUp size 2) enc := by
  rw [roundUp2] at *
  exact {
    fits := by omega
    capacity := by rw [capacity_eq_toNat, if_neg] <;> omega
    slack := by omega
    even := by omega
    count := by rw [countField_eq_toNat]; omega }

theorem encodesSize_coarse {size : Nat} {enc : Word} (h1 : 1 ≤ size) (h2 : size ≤ 1024)
    (he : enc.toNat = 0x8000 + 1024 * (roundUp size 32 / 32 - 1)) : EncodesSize size 32 (roundUp size 32) enc := by
  unfold roundUp at *
  exact {
    fits := by omega
    capacity := by rw [capacity_eq_toNat, if_pos] <;> omega
    slack := by omega
    even := by omega
    count := by rw [countField_eq_toNat]; omega }

theorem exec_encodeReceiveSize_of_ok {size rsize : Nat} {enc : Word} (h : encodeReceiveSize size = .ok (rsize, enc))
    (s : State) : exec (.encodeReceiveSize size) s = .next (s.setResult (.encoded rsize enc)) := by
  show execEncodeReceiveSize size s = _
  rw [execEncodeReceiveSize, h]
  rfl

theorem exec_encodeReceiveSize_of_error {size : Nat} {e : ErrorKind} (h : encodeReceiveSize size = .error e) (s : State) :
    exec (.encodeReceiveSize size) s = .next (s.setResult (.error e)) := by
  show execEncodeReceiveSize size s = _
  rw [execEncodeReceiveSize, h]
  rfl

theorem encodeReceiveSize_fine {size : Nat} (h : size ≤ 62) :
    encodeReceiveSize size = .ok (roundUp size 2, BitVec.ofNat 16 (roundUp size 2 / 2) <<< 10) := if_pos h

theorem encodeReceiveSize_coarse {size : Nat} (h1 : 62 < size) (h2 : size ≤ 1024) :
    encodeReceiveSize size =
      .ok (roundUp size 32, 0x8000#16 ||| (BitVec.ofNat 16 (roundUp size 32 / 32 - 1) <<< 10)) :=
  (if_neg h1.not_ge).trans (if_pos h2)

theorem encodeReceiveSize_over {size : Nat} (h : 1024 < size) : encodeReceiveSize size = .error .endpointOverflow :=
  (if_neg (by simp only [Config.rxFineMax]; omega)).trans (if_neg h.not_ge)

end Sys2Proof.Machine

section PacketMemory

open Sys2Proof Sys2Proof.Machine

/-- Settles O22: whether the rounded size fits is all the arena looks at. -/
theorem pmaAllocateEffect : Obligations.PmaAllocateEffect := by
  refine fun size s => ⟨fun h => ?fits, fun h => ?full⟩
  case fits =>
    show execPmaAllocate size s = _
    rw [execPmaAllocate, arenaAllocate_fits h]
    rfl
  case full =>
    show execPmaAllocate size s = _
    rw [execPmaAllocate, arenaAllocate_full h]
    rfl

/-- Settles O23: allocation moves the free end up, and no other instruction moves it. -/
theorem arenaOnlyGrows : Obligations.ArenaOnlyGrows :=
  fun _ _ _ he hc => exec_nextFree_le hc he

/-- Settles O24: the driver's table stands at offset 0, so the field offsets depend on the slot alone. -/
theorem pmaDescriptorEffect : Obligations.PmaDescriptorEffect := by
  refine fun n s => ⟨fun h => ?slot, fun h => ?noSlot⟩
  case slot =>
    show (onSlot (⟨n, h⟩ : Slot).val .noSuchDescriptor _).returning = _
    rw [onSlot_val, Act.returning_done]
    simp only [descriptorOf, bdOffset_driver, BdField.offset]
  case noSlot =>
    show (onSlot n .noSuchDescriptor _).returning = _
    rw [onSlot_of_ge h, Act.returning_fault]

/-- Settles O25: the copy loop stores word by word, and its first access already meets a misaligned offset. -/
theorem pmaWriteEffect : Obligations.PmaWriteEffect := by
  refine ⟨fun off s => rfl, fun off src s hs => ⟨fun hr => ?stored, fun hsrc ho => ?misaligned,
    fun hsrc ho hr => ?outOfRange⟩⟩
  case stored =>
    obtain ⟨m, hcopy, hbytes, hframe⟩ := copyIn_ok src off s hs hr
    exact ⟨m, by rw [exec_pmaWrite_eq, hcopy, Act.returningUnit_done], hbytes, hframe⟩
  case misaligned => rw [exec_pmaWrite_eq, copyIn_mis src off s hs hsrc ho, Act.returningUnit_fault]
  case outOfRange => rw [exec_pmaWrite_eq, copyIn_oor src off s hs hsrc ho hr, Act.returningUnit_fault]

/-- Settles O26: the copy loop reads word by word and stops at the first access that faults. -/
theorem pmaReadEffect : Obligations.PmaReadEffect := by
  refine ⟨fun off s => rfl, fun off len s hs => ⟨fun dest hr hlen hbytes => ?bytes, fun hlen ho => ?misaligned,
    fun hlen ho hr hdef => ?outOfRange, fun k hk ho hin hundef => ?undef⟩⟩
  case bytes => rw [exec_pmaRead_eq, copyOut_ok len off s dest hs hr hlen hbytes, Act.andThen_done, Act.returning_done]
  case misaligned => rw [exec_pmaRead_eq, copyOut_mis len off s hs hlen ho, Act.andThen_fault, Act.returning_fault]
  case outOfRange => rw [exec_pmaRead_eq, copyOut_oor len off s hs hlen ho hr hdef, Act.andThen_fault, Act.returning_fault]
  case undef => rw [exec_pmaRead_eq, copyOut_undef len off s k hs ho hk hin hundef, Act.andThen_fault, Act.returning_fault]

/-- Settles O27: each regime's word is its block count shifted up, which the decoded capacity reads back. -/
theorem receiveSizeEncoder : Obligations.ReceiveSizeEncoder := by
  refine fun size s => ⟨fun h => ?_, fun h => exec_encodeReceiveSize_of_error (encodeReceiveSize_over h) s⟩
  by_cases hf : size ≤ 62
  case pos =>
    have henc := toNat_fineWord (k := roundUp size 2 / 2) (by rw [roundUp2]; omega)
    obtain ⟨hfits, hcap, hslack, heven, hcount⟩ := encodesSize_fine hf henc
    simp only [if_pos hf]
    exact ⟨_, _, exec_encodeReceiveSize_of_ok (encodeReceiveSize_fine hf) s, rfl, henc, hfits, hcap, hslack, heven, hcount⟩
  case neg =>
    have henc := toNat_coarseWord (k := roundUp size 32 / 32 - 1) (by unfold roundUp; omega)
    obtain ⟨hfits, hcap, hslack, heven, hcount⟩ := encodesSize_coarse (by omega) h henc
    simp only [if_neg hf]
    exact ⟨_, _, exec_encodeReceiveSize_of_ok (encodeReceiveSize_coarse (by omega) h) s, rfl, henc, hfits, hcap, hslack,
      heven, hcount⟩

end PacketMemory

namespace Sys2Proof.Machine

/-! Proofs about endpoint allocation (file 42_endpoint_alloc.md): the turns of the search, what a claim does, and where each
is turned away. -/

/-! ## The two words of a claim -/

/-- Two words stored side by side read back, and every byte outside them is as before (R82). -/
theorem putPmaWord_pair_spec (m : Memory) (off : Nat) (v w : Word) :
    Memory.wordAt (putPmaWord (putPmaWord m off v) (off + 2) w) off = some v ∧
    Memory.wordAt (putPmaWord (putPmaWord m off v) (off + 2) w) (off + 2) = some w ∧
    ∀ x : Nat, x < off ∨ off + 4 ≤ x → Memory.byte (putPmaWord (putPmaWord m off v) (off + 2) w) x = Memory.byte m x := by
  refine ⟨?first, wordAt_putPmaWord_same _ _ _, fun x hx => ?outside⟩
  case first => rw [wordAt_putPmaWord_ne _ _ _ _ (.inl le_rfl), wordAt_putPmaWord_same]
  case outside =>
    simp only [Memory.byte_putPmaWord]
    iterate 4 rw [if_neg (by omega)]

/-! ## What a claim does (R229, R230) -/

/-- A claim's record takes the place of the record that the search left with the type. -/
theorem State.setEp_covered (s : State) (i : Slot) (r q : EpRecord) (off : Nat) (m : Memory) :
    (((s.setEp i r).setNextFree off).setPma m).setEp i q = ((s.setNextFree off).setPma m).setEp i q := by
  simp only [State.setEp, State.setNextFree, State.setPma, Vector.set_set]

/-- Claiming OUT with a size that fits, no bus step in between (R229). -/
theorem claim_out_fits {s : State} {i : Slot} {mps rsize : Nat} {enc : Word} (hs : s.sched = [])
    (he : encodeReceiveSize mps = .ok (rsize, enc)) (hfit : s.nextFree + rsize ≤ 512) :
    claim i .out mps s = .done (.address (epAddr i .out))
      ((((s.setNextFree (s.nextFree + rsize)).setPma
        (putPmaWord (putPmaWord s.pma (8 * i + 4) (BitVec.ofNat 16 s.nextFree)) (8 * i + 4 + 2) enc)).setEp i
          ⟨(s.epAt i).type, true, (s.epAt i).inn⟩).setRxCap i rsize) := by
  have hr := roundUp_encodeReceiveSize he
  simp only [claim, claimOut, he, arenaAllocate_fits (hr.symm ▸ hfit), hr]
  simp only [bdSet_undisturbed, State.setNextFree_sched, State.setPma_sched, hs, Act.andThen_done]
  rfl

/-- Claiming IN with a size that fits, no bus step in between (R230). -/
theorem claim_in_fits {s : State} {i : Slot} {mps : Nat} (hs : s.sched = []) (hfit : s.nextFree + roundUp mps 2 ≤ 512) :
    claim i .inn mps s = .done (.address (epAddr i .inn))
      ((((s.setNextFree (s.nextFree + roundUp mps 2)).setPma
        (putPmaWord (putPmaWord s.pma (8 * i) (BitVec.ofNat 16 s.nextFree)) (8 * i + 2) 0x0000)).setEp i
          ⟨(s.epAt i).type, (s.epAt i).out, true⟩).setTxCap i (roundUp mps 2)) := by
  simp only [claim, claimIn, arenaAllocate_fits hfit]
  simp only [bdSet_undisturbed, State.setNextFree_sched, State.setPma_sched, hs, Act.andThen_done]
  rfl

/-- A size the encoder or the arena turns away fails the claim before it changes anything (R200, R190). -/
theorem claim_turnedAway {s : State} {d : Dir} {mps : Nat} (i : Slot)
    (h : (d = .out ∧ 1024 < mps) ∨ (d = .inn ∧ 512 < s.nextFree + roundUp mps 2) ∨
      (d = .out ∧ ∃ rsize enc, encodeReceiveSize mps = .ok (rsize, enc) ∧ 512 < s.nextFree + roundUp rsize 2)) :
    claim i d mps s = raise .endpointOverflow s := by
  obtain ⟨rfl, hbig⟩ | ⟨rfl, hfull⟩ | ⟨rfl, rsize, enc, he, hfull⟩ := h
  · simp only [claim, claimOut, encodeReceiveSize_over hbig]
  · simp only [claim, claimIn, arenaAllocate_full hfull]
  · simp only [claim, claimOut, he, arenaAllocate_full hfull]

/-- The address a claim returns is its slot's, whatever the bus engine does in between (R228). -/
theorem claim_address {s u : State} {i : Slot} {d : Dir} {mps : Nat} {x : Byte}
    (h : claim i d mps s = .done (.address x) u) : x = epAddr i d := by
  cases d with
  | out =>
    simp only [claim, claimOut] at h
    split at h
    · cases h
    · split at h
      · cases h
      · obtain ⟨_, _, -, h⟩ := Act.andThen_eq_done.mp h
        obtain ⟨_, _, -, h⟩ := Act.andThen_eq_done.mp h
        cases h
        rfl
  | inn =>
    simp only [claim, claimIn] at h
    split at h
    · cases h
    · obtain ⟨_, _, -, h⟩ := Act.andThen_eq_done.mp h
      obtain ⟨_, _, -, h⟩ := Act.andThen_eq_done.mp h
      cases h
      rfl

/-! ## The turns of the search (R220) -/

section Search

variable {s : State} {d : Dir} {t : EpType} {mps : Nat}

/-- A turn past the last slot (R222, R224). -/
theorem allocSearch_of_ge {k : Nat} (hk : 8 ≤ k) (pin : Option Nat) (hp : pin = none ∨ pin = some k) (fuel : Nat) :
    allocSearch pin d t mps (fuel + 1) k s = raise .endpointOverflow s := by
  rw [allocSearch, if_neg (by rcases hp with rfl | rfl <;> simp), slotOf_eq_none.mpr hk]

/-- A turn off the pinned slot (R222). -/
theorem allocSearch_off_pin {p k : Nat} (h : p ≠ k) (fuel : Nat) :
    allocSearch (some p) d t mps (fuel + 1) k s = raise .endpointTaken s := by
  rw [allocSearch, if_pos (by simpa using h)]

/-- A pinned search succeeds only at the pinned slot, whatever the bus engine does in between (R222). -/
theorem allocSearch_pinned_address {p : Nat} {x : Byte} {u : State} : ∀ {fuel k : Nat} {s : State},
    allocSearch (some p) d t mps fuel k s = .done (.address x) u → ∃ i : Slot, p = i ∧ x = epAddr i d
  | 0, _, _, h => by cases h
  | fuel + 1, k, s, h => by
    by_cases hp : p = k
    case neg =>
      rw [allocSearch_off_pin hp] at h
      cases h
    case pos =>
      rw [allocSearch, if_neg (by simp [hp])] at h
      split at h
      · cases h
      · rename_i i hi
        dsimp only at h
        split at h
        · exact allocSearch_pinned_address h
        · split at h
          · exact allocSearch_pinned_address h
          · exact ⟨i, hp.trans (slotOf_eq_some.mp hi), claim_address h⟩

/-- Where only typed slots have directions (R48(b)), a slot that cannot take the direction and type has a type, and that
is another or the direction is claimed. -/
theorem type_of_not_available (typed : ∀ n, (s.epAt n).out = true ∨ (s.epAt n).inn = true → (s.epAt n).type ≠ none)
    {i : Slot} (h : ¬ Available s d t i) : ∃ u, (s.epAt i).type = some u ∧ (u ≠ t ∨ claimed i d s = true) := by
  have hclaimed : claimed i d s = true → (s.epAt i).type ≠ none := fun hc => typed i <| by
    cases d with
    | out => exact .inl hc
    | inn => exact .inr hc
  cases hu : (s.epAt i).type with
  | none =>
    refine absurd ⟨.inl hu, ?_⟩ h
    by_contra hc
    exact hclaimed (by simpa using hc) hu
  | some u =>
    refine ⟨u, rfl, ?_⟩
    by_contra hc
    simp only [not_or, not_not, Bool.not_eq_true] at hc
    exact h ⟨.inr (hc.1 ▸ hu), hc.2⟩

section Unpinned

variable (typed : ∀ n, (s.epAt n).out = true ∨ (s.epAt n).inn = true → (s.epAt n).type ≠ none)
include typed

/-- The unpinned search passes a slot that cannot take the direction and type (R227). -/
theorem allocSearch_pass {k : Nat} (hk : k < Config.nEp) (h : ¬ Available s d t ⟨k, hk⟩) (fuel : Nat) :
    allocSearch none d t mps (fuel + 1) k s = allocSearch none d t mps fuel (k + 1) s := by
  obtain ⟨u, hu, hno⟩ := type_of_not_available typed h
  exact allocSearch_skip hu hno none (.inl rfl) fuel

/-- The unpinned search claims at the first slot that can take the direction and type (R225). -/
theorem allocSearch_first_available {i : Slot} (hi : Available s d t i) : ∀ {fuel k : Nat}, k ≤ i → i < k + fuel →
    (∀ j : Slot, k ≤ j → j < i → ¬ Available s d t j) →
      allocSearch none d t mps fuel k s = claim i d mps (s.setEp i ⟨some t, (s.epAt i).out, (s.epAt i).inn⟩)
  | 0, k, hk, hf, _ => absurd hk (by omega)
  | fuel + 1, k, hk, hf, hno => by
    obtain rfl | hlt := hk.eq_or_lt
    · exact allocSearch_available hi none (.inl rfl) fuel
    · rw [allocSearch_pass typed (hlt.trans i.isLt) (hno _ le_rfl hlt)]
      exact allocSearch_first_available hi hlt (by omega) fun j hj => hno j (Nat.le_of_succ_le hj)

/-- The unpinned search runs past the last slot where no slot can take the direction and type (R224). -/
theorem allocSearch_none_available : ∀ {fuel k : Nat}, (∀ j : Slot, k ≤ j → ¬ Available s d t j) →
    allocSearch none d t mps fuel k s = raise .endpointOverflow s
  | 0, _, _ => rfl
  | fuel + 1, k, hno => by
    by_cases hk : 8 ≤ k
    · exact allocSearch_of_ge hk none (.inl rfl) fuel
    · rw [allocSearch_pass typed (Nat.lt_of_not_le hk) (hno _ le_rfl)]
      exact allocSearch_none_available fun j hj => hno j (Nat.le_of_succ_le hj)

end Unpinned

/-! ## The instruction (R220, R221) -/

theorem exec_allocateEndpoint_enabled (h : s.phase = .enabled) (req : Option Byte) :
    exec (.allocateEndpoint d req t mps) s = .fault .allocateAfterEnable := by
  show execAllocateEndpoint d req t mps s = _
  rw [execAllocateEndpoint, if_pos h, Act.returning_fault]

theorem exec_allocateEndpoint_configured (h : s.phase = .configured) (req : Option Byte) :
    exec (.allocateEndpoint d req t mps) s =
      (allocSearch (req.map addrIndex) d t mps 9 ((req.map addrIndex).getD 1) s).returning := by
  show execAllocateEndpoint d req t mps s = _
  rw [execAllocateEndpoint, if_neg (by simp [h])]

/-- A request pinned to a slot that can take the direction and type is a claim there (R225). -/
theorem exec_allocateEndpoint_pinned_available (h : s.phase = .configured) {a : Byte} {i : Slot} (ha : addrIndex a = i)
    (hi : Available s d t i) : exec (.allocateEndpoint d (some a) t mps) s =
      (claim i d mps (s.setEp i ⟨some t, (s.epAt i).out, (s.epAt i).inn⟩)).returning := by
  rw [exec_allocateEndpoint_configured h, Option.map_some, Option.getD_some, ha,
    allocSearch_available hi (some i) (.inr rfl) 8]

end Search

end Sys2Proof.Machine

section EndpointAllocation

open Sys2Proof Sys2Proof.Machine

/-- Settles O28: the pinned request is a claim at its slot, whose record covers the one that took the type. -/
theorem pinnedOutAllocation : Obligations.PinnedOutAllocation := by
  intro a i t mps rsize enc s hs hp ha hi he hfit
  refine ⟨_, ?effect, putPmaWord_pair_spec s.pma (8 * i + 4) (BitVec.ofNat 16 s.nextFree) enc⟩
  rw [exec_allocateEndpoint_pinned_available hp ha hi, claim_out_fits (s := s.setEp i _) hs he hfit, State.setEp_covered,
    State.epAt_setEp_same]
  rfl

/-- Settles O29: as for OUT, with the two transmit words at the front of the slot's entry. -/
theorem pinnedInAllocation : Obligations.PinnedInAllocation := by
  intro a i t mps s hs hp ha hi hfit
  refine ⟨_, ?effect, putPmaWord_pair_spec s.pma (8 * i) (BitVec.ofNat 16 s.nextFree) 0x0000⟩
  rw [exec_allocateEndpoint_pinned_available hp ha hi, claim_in_fits (s := s.setEp i _) hs hfit, State.setEp_covered,
    State.epAt_setEp_same]
  rfl

/-- Settles O30: the first turn of a pinned search ends it, or the second, which is off the pin. -/
theorem allocationRefusals : Obligations.AllocationRefusals := by
  refine ⟨fun d req t mps s h => exec_allocateEndpoint_enabled h req, fun d a t mps s hp => ⟨fun ha => ?noSlot,
    fun i u ha hu hno => ?taken, fun i ha hi hsize => ?turnedAway, fun x u he hx => ?ownSlot⟩⟩
  case noSlot =>
    rw [exec_allocateEndpoint_configured hp]
    exact congrArg Act.returning (allocSearch_of_ge ha _ (.inr rfl) 8)
  case taken =>
    rw [exec_allocateEndpoint_configured hp, Option.map_some, Option.getD_some, ha,
      allocSearch_skip hu hno _ (.inr rfl) 8, allocSearch_off_pin i.val.lt_succ_self.ne]
    rfl
  case turnedAway =>
    rw [exec_allocateEndpoint_pinned_available hp ha hi, claim_turnedAway (s := s.setEp i _) i hsize]
    rfl
  case ownSlot =>
    rw [exec_allocateEndpoint_configured hp] at he
    obtain ⟨v, w, hsearch, rfl⟩ := Act.returning_eq_next.mp he
    obtain rfl : v = .address x := hx
    exact allocSearch_pinned_address hsearch

/-- Settles O31: the search passes every slot that cannot take the direction and type, and claims at the first that can. -/
theorem unpinnedAllocation : Obligations.UnpinnedAllocation := by
  refine fun d t mps s hp typed => ⟨fun i h1 hi hno => ?lowest, fun hno => ?noneLeft⟩
  case lowest =>
    rw [exec_allocateEndpoint_pinned_available hp (addr_epAddr i d).2 hi, exec_allocateEndpoint_configured hp]
    exact congrArg Act.returning (allocSearch_first_available typed hi h1 (i.isLt.trans (by decide)) hno)
  case noneLeft =>
    rw [exec_allocateEndpoint_configured hp]
    exact congrArg Act.returning (allocSearch_none_available typed hno)

end EndpointAllocation

namespace Sys2Proof.Machine

/-! Proofs about the endpoint operations (file 43_endpoint_ops.md): `stall`, `unstall`, `write`, `read` and `reset` with no
bus step between their accesses. -/

/-! ## The register view with no bus step between its read and its write -/

theorem epSetStatus_undisturbed {s : State} (h : s.sched = []) (n : Slot) (d : Dir) (st : Status) :
    epSetStatus n d st s = .done () (s.setEpr n (gateEpr (s.eprAt n) (setStatusWord (s.eprAt n) d st))) :=
  epSetStatus_eq (interleave_undisturbed h) (interleave_undisturbed h) n d st

theorem epClearCtr_undisturbed {s : State} (h : s.sched = []) (n : Slot) (d : Dir) :
    epClearCtr n d s = .done () (s.setEpr n (gateEpr (s.eprAt n) (clearCtrWord (s.eprAt n) d))) :=
  epClearCtr_eq (interleave_undisturbed h) (interleave_undisturbed h) n d

theorem statusOf_congr {d : Dir} {r q : Word} (h : statOf d q = statOf d r) : statusOf d q = statusOf d r :=
  congrArg Status.ofCode h

theorem SameConfig.trans {r q p : Word} (h : SameConfig r q) (k : SameConfig q p) : SameConfig r p := by
  obtain ⟨ht, hk, ha, hs⟩ := h
  obtain ⟨kt, kk, ka, ks⟩ := k
  exact ⟨kt.trans ht, kk.trans hk, ka.trans ha, ks.trans hs⟩

/-- The EPR word `q` is `r` with the status of one direction set to `st` (R172). -/
structure SetsStatus (d : Dir) (st : Status) (r q : Word) : Prop where
  status : statusOf d q = st
  ctr : ∀ e, ctrOf e q = ctrOf e r
  dtog : ∀ e, dtogOf e q = dtogOf e r
  stat : ∀ e, e ≠ d → statOf e q = statOf e r
  config : SameConfig r q

theorem setsStatus_gate (d : Dir) (st : Status) (r : Word) : SetsStatus d st r (gateEpr r (setStatusWord r d st)) := by
  obtain ⟨hc, hd, -, hst, hu, hty, hk, hea⟩ := fields_gate_set r r d st
  exact ⟨(statusOf_gate_setStatusWord_eq_iff r r d st).mpr rfl, hc, hd, hst, hty, hk, hea, hu⟩

namespace SetsStatus

variable {d : Dir} {st st' : Status} {r q p : Word}

theorem sameDir (h : SetsStatus d st r q) (e : Dir) (he : e ≠ d) : SameDir e r q := ⟨h.ctr e, h.dtog e, h.stat e he⟩

/-- The later of two statuses set on a direction is the one that counts. -/
theorem trans (h : SetsStatus d st r q) (k : SetsStatus d st' q p) : SetsStatus d st' r p where
  status := k.status
  ctr e := (k.ctr e).trans (h.ctr e)
  dtog e := (k.dtog e).trans (h.dtog e)
  stat e he := (k.stat e he).trans (h.stat e he)
  config := h.config.trans k.config

/-- Setting the status that a direction has leaves the register as it is. -/
theorem eq_self (h : SetsStatus d st r q) (hr : statusOf d r = st) : q = r := by
  obtain ⟨ht, hk, ha, hs⟩ := h.config
  refine eprWord_ext q r h.ctr h.dtog (fun e => ?stat) hs ?type hk ha
  case type => rw [← typeOf_code, ← typeOf_code, ht]
  case stat =>
    by_cases he : e = d
    · subst he
      rw [(statusOf_eq_iff e q st).mp h.status, (statusOf_eq_iff e r st).mp hr]
    · exact h.stat e he

end SetsStatus

/-! ## `stall` and `unstall` (R255 to R257) -/

theorem ready_addrDir (addr : Byte) : ready (addrDir addr) = if addr.getLsbD 7 then .nak else .valid := apply_ite ready _ _ _

/-- What a later operation writes to the same register and returns takes the place of what an earlier one did. -/
theorem State.setEpr_setResult_covered (s : State) (i : Slot) (q p : Word) (v w : Result) :
    (((s.setEpr i q).setResult v).setEpr i p).setResult w = (s.setEpr i p).setResult w := by
  simp only [State.setEpr, State.setResult, Vector.set_set]

section Stall

variable {addr : Byte} {i : Slot} {s : State}

theorem exec_stall_of_ge (h : 8 ≤ addrIndex addr) : exec (.stall addr) s = .fault .noSuchEndpoint := by
  rw [exec, execStall, onSlot_of_ge h, Act.returningUnit_fault]

theorem exec_unstall_of_ge (h : 8 ≤ addrIndex addr) : exec (.unstall addr) s = .fault .noSuchEndpoint := by
  rw [exec, execUnstall, onSlot_of_ge h, Act.returningUnit_fault]

variable (hs : s.sched = []) (ha : addrIndex addr = i)
include hs ha

theorem exec_stall_undisturbed : exec (.stall addr) s =
    .next ((s.setEpr i (gateEpr (s.eprAt i) (setStatusWord (s.eprAt i) (addrDir addr) .stall))).setResult .unit) := by
  rw [exec, execStall, ha, onSlot_val, epSetStatus_undisturbed hs, Act.returningUnit_done]

theorem exec_unstall_stalled (h : statusOf (addrDir addr) (s.eprAt i) = .stall) : exec (.unstall addr) s =
    .next ((s.setEpr i (gateEpr (s.eprAt i)
      (setStatusWord (s.eprAt i) (addrDir addr) (ready (addrDir addr))))).setResult .unit) := by
  rw [exec, execUnstall, ha, onSlot_val, regRead_epr_undisturbed hs, Act.andThen_done, if_pos h,
    epSetStatus_undisturbed hs, Act.returningUnit_done]

theorem exec_unstall_not_stalled (h : statusOf (addrDir addr) (s.eprAt i) ≠ .stall) :
    exec (.unstall addr) s = .next (s.setResult .unit) := by
  rw [exec, execUnstall, ha, onSlot_val, regRead_epr_undisturbed hs, Act.andThen_done, if_neg h, Act.returningUnit_done]

end Stall

/-! ## `write` (R242 to R246) -/

/-- The two statuses at which `write` goes on (R243). -/
theorem ne_valid_ne_disabled {st : Status} (h : st = .nak ∨ st = .stall) : st ≠ .valid ∧ st ≠ .disabled := by
  rcases h with rfl | rfl <;> decide

section Write

variable {i : Slot} {src : List Byte} {s : State}

theorem exec_write_invalid {addr : Byte} (h : addrDir addr = .out ∨ 8 ≤ addrIndex addr) :
    exec (.write addr src) s = .next (s.setResult (.error .invalidEndpoint)) := by
  rw [exec, execWrite]
  rcases h with hd | hi
  case inl => rw [hd]; rfl
  case inr => rw [slotOf_eq_none.mpr hi]; cases addrDir addr <;> rfl

theorem exec_write_eq {addr : Byte} (hd : addrDir addr = .inn) (hi : addrIndex addr = i) :
    exec (.write addr src) s = (writeSlot i src s).returning := by
  rw [exec, execWrite, hd, hi, slotOf_val]

variable (hs : s.sched = [])
include hs

theorem writeSlot_valid (h : statusOf .inn (s.eprAt i) = .valid) : writeSlot i src s = raise .busy s := by
  rw [writeSlot, regRead_epr_undisturbed hs, Act.andThen_done, if_pos h]

theorem writeSlot_disabled (h : statusOf .inn (s.eprAt i) = .disabled) : writeSlot i src s = raise .invalidEndpoint s := by
  rw [writeSlot, regRead_epr_undisturbed hs, Act.andThen_done, if_neg (by simp [h]), if_pos h]

variable (hv : statusOf .inn (s.eprAt i) ≠ .valid) (hd : statusOf .inn (s.eprAt i) ≠ .disabled)
include hv hd

theorem writeSlot_exceeds (h : s.txCapAt i < src.length) : writeSlot i src s = .fault .writeExceedsBuffer := by
  rw [writeSlot, regRead_epr_undisturbed hs, Act.andThen_done, if_neg hv, if_neg hd, if_pos h]

/-- A payload that fits is copied, to `m`; then its length goes to COUNT_TX and the direction is armed (R244, R245). -/
theorem writeSlot_fits {off : Word} {m : Memory} (hfit : src.length ≤ s.txCapAt i)
    (haddr : Memory.wordAt s.pma (8 * i) = some off) (hcopy : copyIn src off.toNat s = .done () (s.setPma m)) :
    writeSlot i src s = .done (.written src.length)
      ((s.setPma (putPmaWord m (8 * i + 2) (BitVec.ofNat 16 src.length))).setEpr i
        (gateEpr (s.eprAt i) (setStatusWord (s.eprAt i) .inn .valid))) := by
  have hcount (w : Word) : bdSet i .countTx w (s.setPma m) = .done () (s.setPma (putPmaWord m (8 * i + 2) w)) :=
    bdSet_undisturbed (s := s.setPma m) hs i .countTx w
  rw [writeSlot, regRead_epr_undisturbed hs, Act.andThen_done, if_neg hv, if_neg hd, if_neg (Nat.not_lt.mpr hfit),
    bdGet_undisturbed hs i .addrTx off haddr, Act.andThen_done, hcopy, Act.andThen_done, hcount, Act.andThen_done,
    epSetStatus_undisturbed (by exact hs), Act.andThen_done]
  rfl

end Write

/-! ## `read` (R250 to R252) -/

/-- The part of `read` after its checks, for a count that fits the caller's buffer (R251, R252). -/
def takePacket (i : Slot) (count : Nat) (s : State) : Act Result :=
  (bdGet i .addrRx s).andThen fun off s =>
  (copyOut count off.toNat s).andThen fun buf s =>
  (epClearCtr i .out s).andThen fun _ s =>
  (epSetStatus i .out .valid s).andThen fun _ s =>
  .done (.received count buf) s

section Read

variable {i : Slot} {len : Nat} {s : State}

theorem exec_read_invalid {addr : Byte} (h : addrDir addr = .inn ∨ 8 ≤ addrIndex addr) :
    exec (.read addr len) s = .next (s.setResult (.error .invalidEndpoint)) := by
  rw [exec, execRead]
  rcases h with hd | hi
  case inl => rw [hd]; rfl
  case inr => rw [slotOf_eq_none.mpr hi]; cases addrDir addr <;> rfl

theorem exec_read_eq {addr : Byte} (hd : addrDir addr = .out) (hi : addrIndex addr = i) :
    exec (.read addr len) s = (readSlot i len s).returning := by
  rw [exec, execRead, hd, hi, slotOf_val]

variable (hs : s.sched = [])
include hs

theorem readSlot_disabled (h : statusOf .out (s.eprAt i) = .disabled) : readSlot i len s = raise .invalidEndpoint s := by
  rw [readSlot, regRead_epr_undisturbed hs, Act.andThen_done, if_pos h]

section Pending

variable (hd : statusOf .out (s.eprAt i) ≠ .disabled)
include hd

theorem readSlot_noData (h : ctrOf .out (s.eprAt i) = false) : readSlot i len s = raise .noData s := by
  rw [readSlot, regRead_epr_undisturbed hs, Act.andThen_done, if_neg hd, if_pos h]

variable (hc : ctrOf .out (s.eprAt i) = true)
include hc

theorem readSlot_count_undef (h : Memory.wordAt s.pma (8 * i + 6) = none) : readSlot i len s = .fault .undefRead := by
  rw [readSlot, regRead_epr_undisturbed hs, Act.andThen_done, if_neg hd, if_neg (by simp [hc]),
    bdGet_undef hs i .countRx h, Act.andThen_fault]

theorem readSlot_pending {c : Word} (h : Memory.wordAt s.pma (8 * i + 6) = some c) :
    readSlot i len s = if len < c.toNat % 64 then raise .bufferOverflow s else takePacket i (c.toNat % 64) s := by
  rw [readSlot, regRead_epr_undisturbed hs, Act.andThen_done, if_neg hd, if_neg (by simp [hc]),
    bdGet_undisturbed hs i .countRx c h, Act.andThen_done, toNat_and_rxCountMask]
  rfl

end Pending

theorem takePacket_addr_undef (h : Memory.wordAt s.pma (8 * i + 4) = none) (count : Nat) :
    takePacket i count s = .fault .undefRead := by
  rw [takePacket, bdGet_undef hs i .addrRx h, Act.andThen_fault]

variable {off : Word} (haddr : Memory.wordAt s.pma (8 * i + 4) = some off) {count : Nat}
include haddr

theorem takePacket_copy_fault {f : Fault} (h : copyOut count off.toNat s = .fault f) : takePacket i count s = .fault f := by
  rw [takePacket, bdGet_undisturbed hs i .addrRx off haddr, Act.andThen_done, h, Act.andThen_fault]

/-- A copied packet's flag is cleared and its direction re-armed, in two writes to one register (R252). -/
theorem takePacket_copied {buf : List Byte} (h : copyOut count off.toNat s = .done buf s) :
    ∃ q, SetsStatus .out .valid (gateEpr (s.eprAt i) (clearCtrWord (s.eprAt i) .out)) q ∧
      takePacket i count s = .done (.received count buf) (s.setEpr i q) := by
  refine ⟨_, setsStatus_gate .out .valid _, ?_⟩
  rw [takePacket, bdGet_undisturbed hs i .addrRx off haddr, Act.andThen_done, h, Act.andThen_done,
    epClearCtr_undisturbed hs, Act.andThen_done, epSetStatus_undisturbed (by exact hs), Act.andThen_done,
    State.eprAt_setEpr_same, State.setEpr_setEpr]

end Read

/-! ## `reset` (R240, R241) -/

/-- The EPR word `q` is `r` after `reset` at a typed slot: its record's type and its index, and on each allocated direction
the ready status (R240). -/
structure ResetsSlot (e : EpRecord) (i : Slot) (ty : EpType) (r q : Word) : Prop where
  type : typeOf q = ty
  ea : eaOf q = BitVec.ofNat 4 i
  kind : kindOf q = kindOf r
  setup : setupOf q = setupOf r
  ctr : ∀ d, ctrOf d q = ctrOf d r
  dtog : ∀ d, dtogOf d q = dtogOf d r
  out : statusOf .out q = if e.out then .valid else statusOf .out r
  inn : statusOf .inn q = if e.inn then .nak else statusOf .inn r

/-- Setting a status on a condition. -/
theorem setsStatus_ite (b : Bool) (d : Dir) (st : Status) (r : Word) :
    SetsStatus d (if b then st else statusOf d r) r (if b then gateEpr r (setStatusWord r d st) else r) := by
  cases b with
  | true => exact setsStatus_gate d st r
  | false => exact ⟨rfl, fun _ => rfl, fun _ => rfl, fun _ _ => rfl, rfl, rfl, rfl, rfl⟩

theorem resetWord_untyped {s : State} {i : Slot} (h : (s.epAt i).type = none) (r : Word) : resetWord s i r = r := by
  rw [resetWord, h]

/-- The slot's three writes in a row: configuration, OUT status, IN status. -/
theorem ResetsSlot.of_setsStatus {e : EpRecord} {i : Slot} {ty : EpType} {r q₁ q₂ : Word}
    (ho : SetsStatus .out (if e.out then .valid else statusOf .out (gateEpr r (configureWord r i ty)))
      (gateEpr r (configureWord r i ty)) q₁)
    (hi : SetsStatus .inn (if e.inn then .nak else statusOf .inn q₁) q₁ q₂) : ResetsSlot e i ty r q₂ := by
  obtain ⟨hc, hd, hst, hu, hty, hk, hea⟩ := fields_gate_conf r r i ty
  obtain ⟨kty, kk, kea, ku⟩ := ho.config.trans hi.config
  have hout : statusOf .out (gateEpr r (configureWord r i ty)) = statusOf .out r := statusOf_congr (hst .out)
  have hinn : statusOf .inn q₁ = statusOf .inn r := statusOf_congr ((ho.stat .inn (by decide)).trans (hst .inn))
  exact
    { type := kty.trans hty
      ea := kea.trans hea
      kind := kk.trans hk
      setup := ku.trans hu
      ctr := fun d => (hi.ctr d).trans ((ho.ctr d).trans (hc d))
      dtog := fun d => (hi.dtog d).trans ((ho.dtog d).trans (hd d))
      out := by rw [statusOf_congr (hi.stat .out (by decide)), ho.status, hout]
      inn := by rw [hi.status, hinn] }

/-- A second `reset` finds nothing to change (R241). -/
theorem ResetsSlot.eq_of_again {e : EpRecord} {i : Slot} {ty : EpType} {r q p : Word} (h : ResetsSlot e i ty r q)
    (k : ResetsSlot e i ty q p) : p = q := by
  have hstatus : ∀ d, statusOf d p = statusOf d q
    | .out => by rw [k.out, h.out]; cases e.out <;> rfl
    | .inn => by rw [k.inn, h.inn]; cases e.inn <;> rfl
  refine eprWord_ext p q k.ctr k.dtog (fun d => ?stat) k.setup ?type k.kind (k.ea.trans h.ea.symm)
  case stat => rw [(statusOf_eq_iff d p _).mp (hstatus d), (statusOf_eq_iff d q _).mp rfl]
  case type => rw [← typeOf_code, ← typeOf_code, k.type, h.type]

theorem resetsSlot_resetWord {s : State} {i : Slot} {ty : EpType} (h : (s.epAt i).type = some ty) (r : Word) :
    ResetsSlot (s.epAt i) i ty r (resetWord s i r) := by
  rw [resetWord, h]
  exact .of_setsStatus (setsStatus_ite _ .out .valid _) (setsStatus_ite _ .inn .nak _)

theorem resetWord_resetWord (s : State) (i : Slot) (r : Word) : resetWord s i (resetWord s i r) = resetWord s i r := by
  cases h : (s.epAt i).type with
  | none => rw [resetWord_untyped h, resetWord_untyped h]
  | some ty => exact (resetsSlot_resetWord h r).eq_of_again (resetsSlot_resetWord h _)

/-- The state after `reset` with no bus step between its accesses (R240). -/
def State.afterReset (s : State) : State :=
  { s with epr := Vector.ofFn fun n => resetWord s n (s.eprAt n), istr := 0x0000, daddr := 0x0080, result := .unit }

theorem State.eprAt_afterReset (s : State) (n : Slot) : s.afterReset.eprAt n = resetWord s n (s.eprAt n) := by
  simp [State.afterReset, State.eprAt]

theorem exec_reset_undisturbed {s : State} (hs : s.sched = []) : exec .reset s = .next s.afterReset := by
  obtain ⟨t, hloop, hframe, hepr⟩ := resetSlots_undisturbed allSlots (by decide) s hs
  have hregs : t.epr = s.afterReset.epr := State.epr_ext _ _ fun n => by
    rw [hepr, if_pos (mem_allSlots n), State.eprAt_afterReset]
  have hsched : t.sched = [] := by rw [hframe]; exact hs
  have histr : gateIstr t.istr 0x0000 = 0x0000 := by simp [gateIstr]
  rw [exec, execReset, hloop, Act.andThen_done, regWrite_undisturbed hsched, Act.andThen_done,
    regWrite_undisturbed (by exact hsched), Act.returningUnit_done, State.storeReg, histr, hframe, hregs]
  rfl

theorem State.afterReset_afterReset (s : State) : s.afterReset.afterReset = s.afterReset := by
  have hregs : s.afterReset.afterReset.epr = s.afterReset.epr := State.epr_ext _ _ fun n => by
    rw [State.eprAt_afterReset, State.eprAt_afterReset]
    exact resetWord_resetWord s n _
  show { s.afterReset with epr := s.afterReset.afterReset.epr } = s.afterReset
  rw [hregs]

/-- Bus steps leave the endpoint records and what is scheduled as they are (R81). -/
theorem runBus_keeps {bs : List BusStep} {s u : State} (h : runBus bs s = .done () u) :
    u.sched = s.sched ∧ u.ep = s.ep :=
  ⟨leaves_runBus (P := fun t => t.sched = s.sched) (fun b t ht => busStep_sched b t s.sched ht) bs s rfl () u h,
    (leaves_runBus (fun b t ht => busStep_sameDriver b s t ht) bs s (.refl s) () u h).ep⟩

end Sys2Proof.Machine

section EndpointOperations

open Sys2Proof Sys2Proof.Machine

/-- Settles O33: the loop leaves each slot its own word, of which only a typed slot's differs from what was there. -/
theorem driverResetEffect : Obligations.DriverResetEffect := by
  intro s hs
  refine ⟨s.afterReset, exec_reset_undisturbed hs, rfl, fun n => ?_⟩
  rw [State.eprAt_afterReset]
  refine ⟨fun h => resetWord_untyped h _, fun ty h => ?typed⟩
  case typed =>
    obtain ⟨hty, hea, hk, hu, hc, hd, hout, hinn⟩ := resetsSlot_resetWord h (s.eprAt n)
    exact ⟨hty, hea, hk, hu, fun d => ⟨hc d, hd d⟩, hout, hinn⟩

/-- Settles O34: a slot's word after `reset` is a fixed point of `reset`, and bus steps leave the records that say which
directions to set ready. -/
theorem driverResetIdempotent : Obligations.DriverResetIdempotent := by
  intro s hs
  refine ⟨s.afterReset, exec_reset_undisturbed hs, ?again, fun bs u hrun => ?repaired⟩
  case again =>
    rw [exec_reset_undisturbed (by exact hs), State.afterReset_afterReset]
  case repaired =>
    obtain ⟨hsched, hep⟩ := runBus_keeps hrun
    refine ⟨u.afterReset, exec_reset_undisturbed (hsched.trans hs), fun n hn => ?_⟩
    have hrec : u.epAt n = s.epAt n := State.epAt_congr hep n
    obtain ⟨ty, hty⟩ := Option.ne_none_iff_exists'.mp hn
    have h := resetsSlot_resetWord (hrec ▸ hty) (u.eprAt n)
    rw [State.eprAt_afterReset]
    exact ⟨fun ho => by rw [h.out, hrec, if_pos ho], fun hi => by rw [h.inn, hrec, if_pos hi]⟩

/-- Settles O36: the copy's bytes lie under the COUNT_TX word, which is stored after it. -/
theorem writeArmsTransfer : Obligations.WriteArmsTransfer := by
  intro i src off s hs hst hfit haddr hrange _
  obtain ⟨hv, hd⟩ := ne_valid_ne_disabled hst
  obtain ⟨m, hcopy, hpayload, hframe⟩ := copyIn_ok src off.toNat s hs hrange
  obtain ⟨hdir, hidx⟩ := addr_epAddr i .inn
  have h := setsStatus_gate .inn .valid (s.eprAt i)
  refine ⟨_, _, ?effect, wordAt_putPmaWord_same m _ _, fun a h2 h3 => ?bytes, h.status, h.ctr .inn, h.dtog .inn,
    h.sameDir .out (by decide), h.config⟩
  case effect => rw [exec_write_eq hdir hidx, writeSlot_fits hs hv hd hfit haddr hcopy, Act.returning_done]
  case bytes =>
    rw [Memory.byte_putPmaWord, if_neg h3, if_neg h2]
    split
    case isTrue hin => exact hpayload a hin.1 hin.2
    case isFalse hout => exact hframe a (by omega)

/-- Settles O37: each answer is the check of `write` that comes first to fail. -/
theorem writeRejections : Obligations.WriteRejections := by
  refine fun addr src s => ⟨exec_write_invalid, fun i hs hdir hidx => ?_⟩
  rw [exec_write_eq hdir hidx]
  refine ⟨fun h => ?busy, fun h => ?disabled, fun hst h => ?exceeds⟩
  case busy => rw [writeSlot_valid hs h]; rfl
  case disabled => rw [writeSlot_disabled hs h]; rfl
  case exceeds =>
    obtain ⟨hv, hd⟩ := ne_valid_ne_disabled hst
    rw [writeSlot_exceeds hs hv hd h, Act.returning_fault]

/-- Settles O38: past the checks the copy gives the packet's bytes, and the two words written to the register act on
different fields of it. -/
theorem readDeliversPacket : Obligations.ReadDeliversPacket := by
  intro i len c off buf s hs hst hctr hcount haddr hlen hfit hrange hbytes
  obtain ⟨hdir, hidx⟩ := addr_epAddr i .out
  obtain ⟨q, h, htake⟩ := takePacket_copied hs haddr (copyOut_ok buf.length off.toNat s buf hs hrange rfl hbytes)
  obtain ⟨hclear, hc, hd, hstat, hu, hty, hk, hea⟩ := fields_gate_clear (s.eprAt i) (s.eprAt i) .out
  refine ⟨q, ?effect, (h.ctr .out).trans hclear, h.status, (h.dtog .out).trans (hd .out), ?other,
    SameConfig.trans ⟨hty, hk, hea, hu⟩ h.config⟩
  case effect =>
    rw [exec_read_eq hdir hidx, readSlot_pending hs hst hctr hcount, hlen, if_neg (Nat.not_lt.mpr hfit), htake,
      Act.returning_done]
  case other =>
    have hne : Dir.inn ≠ Dir.out := by decide
    exact ⟨(h.ctr .inn).trans (hc .inn hne), (h.dtog .inn).trans (hd .inn), (h.stat .inn hne).trans (hstat .inn)⟩

/-- Settles O39: each answer is the check or the access of `read` that comes first to fail, and none is behind a write. -/
theorem readRejections : Obligations.ReadRejections := by
  refine fun addr len s => ⟨exec_read_invalid, fun i hs hdir hidx => ?_⟩
  rw [exec_read_eq hdir hidx]
  refine ⟨fun h => ?disabled, fun hst h => ?noData, fun c hst hc hcount h => ?overflow, fun hst hc h => ?countUndef,
    fun c hst hc hcount hfit => ?copy⟩
  case disabled => rw [readSlot_disabled hs h]; rfl
  case noData => rw [readSlot_noData hs hst h]; rfl
  case overflow => rw [readSlot_pending hs hst hc hcount, if_pos h]; rfl
  case countUndef => rw [readSlot_count_undef hs hst hc h, Act.returning_fault]
  case copy =>
    rw [readSlot_pending hs hst hc hcount, if_neg (Nat.not_lt.mpr hfit)]
    refine ⟨fun h => ?addrUndef, fun off haddr => ⟨fun hn ho => ?misaligned, fun k hk ho hin hundef => ?undef,
      fun hn ho hr hdef => ?outOfRange⟩⟩
    case addrUndef => rw [takePacket_addr_undef hs h, Act.returning_fault]
    case misaligned => rw [takePacket_copy_fault hs haddr (copyOut_mis _ _ s hs hn ho), Act.returning_fault]
    case undef => rw [takePacket_copy_fault hs haddr (copyOut_undef _ _ s k hs ho hk hin hundef), Act.returning_fault]
    case outOfRange => rw [takePacket_copy_fault hs haddr (copyOut_oor _ _ s hs hn ho hr hdef), Act.returning_fault]

/-- Settles O40: both operations are one `ep_set_status`, where `unstall` writes at all. -/
theorem stallUnstallEffect : Obligations.StallUnstallEffect := by
  refine fun addr s => ⟨fun h => ⟨exec_stall_of_ge h, exec_unstall_of_ge h⟩, fun i hs hi => ⟨?stall, fun h => ?unstall,
    fun h => exec_unstall_not_stalled hs hi h⟩⟩
  case stall =>
    have k := setsStatus_gate (addrDir addr) .stall (s.eprAt i)
    exact ⟨_, exec_stall_undisturbed hs hi, k.status, k.ctr _, k.dtog _, k.sameDir, k.config⟩
  case unstall =>
    have k := setsStatus_gate (addrDir addr) (ready (addrDir addr)) (s.eprAt i)
    exact ⟨_, exec_unstall_stalled hs hi h, k.status.trans (ready_addrDir addr), k.ctr _, k.dtog _, k.sameDir, k.config⟩

/-- Settles O41: the two statuses set one after the other are the second one set, which changes nothing where it was there
before. -/
theorem stallThenUnstall : Obligations.StallThenUnstall := by
  intro addr i s hs hi
  obtain ⟨q, hq, hstall⟩ : ∃ q, SetsStatus (addrDir addr) .stall (s.eprAt i) q ∧
      exec (.stall addr) s = .next ((s.setEpr i q).setResult .unit) :=
    ⟨_, setsStatus_gate _ _ _, exec_stall_undisturbed hs hi⟩
  obtain ⟨p, hp, hunstall⟩ : ∃ p, SetsStatus (addrDir addr) (ready (addrDir addr)) q p ∧
      exec (.unstall addr) ((s.setEpr i q).setResult .unit) = .next ((s.setEpr i p).setResult .unit) := by
    refine ⟨_, setsStatus_gate _ _ _, ?_⟩
    rw [exec_unstall_stalled (by exact hs) hi (by simpa using hq.status), State.eprAt_setResult, State.eprAt_setEpr_same,
      State.setEpr_setResult_covered]
  refine ⟨_, _, hstall, hunstall, ?_⟩
  rw [State.eprAt_setResult, State.eprAt_setEpr_same, hp.status]
  refine ⟨rfl, eq_comm, fun h => ?restored, exec_unstall_not_stalled hs hi⟩
  case restored => rw [State.setEpr_self s i p ((hq.trans hp).eq_self h).symm]

end EndpointOperations

namespace Sys2Proof.Machine

/-! Proofs about the poll decoder (file 44_poll.md): `poll` with no bus step between its accesses. -/

/-! ## The choice of the event (R281 to R285) -/

/-- A write of ISTR keeps the latched flags where the word holds a 1; `m` is the word's part over them. -/
theorem regWrite_istr_masks {s : State} {w m : Word} (h : s.sched = []) (hm : w &&& 0x7F00 = m) :
    regWrite .istr w s = .done () (s.setIstr (s.istr &&& m)) := by
  rw [regWrite_undisturbed h, State.storeReg, gateIstr, BitVec.and_assoc, hm]

/-- `poll` decides by the latched flags and the summary flag as they stand, in the order of R281. -/
theorem pollAct_undisturbed {s : State} (h : s.sched = []) : pollAct s =
    if s.istr.getLsbD 12 then
      .done (if s.fnr.getLsbD 15 then .suspend else .resume) ((s.setIstr (s.istr &&& 0x6F00)).bumpDraws.bumpDraws)
    else if s.istr.getLsbD 10 then .done .reset (s.setIstr (s.istr &&& 0x7B00)).bumpDraws
    else if s.istr.getLsbD 11 then .done .suspend (s.setIstr (s.istr &&& 0x7700)).bumpDraws
    else if s.anyCtr then (scan s.bumpDraws).andThen fun m t => .done (.data m.out m.inn m.setup) t
    else .done .none s.bumpDraws := by
  have hread : s.bumpDraws.sched = [] := h
  rw [pollAct, istrRead_undisturbed h, Act.andThen_done, getLsbD_istrFlags s 12 (by decide) (by decide),
    getLsbD_istrFlags s 10 (by decide) (by decide), getLsbD_istrFlags s 11 (by decide) (by decide),
    getLsbD_istrFlags_ctr, fnrReadDp_undisturbed hread, Act.andThen_done,
    regWrite_istr_masks (w := istrwClearWkupWord) (m := 0x6F00) (by exact h) (by decide),
    regWrite_istr_masks (w := istrwClearResetWord) (m := 0x7B00) hread (by decide),
    regWrite_istr_masks (w := istrwClearSuspWord) (m := 0x7700) hread (by decide)]
  rfl

section Flags

variable {s : State} (hs : s.sched = [])
include hs

theorem exec_poll_wkup (hw : s.istr.getLsbD 12 = true) : exec .poll s =
    .next (((s.setIstr (s.istr &&& 0x6F00)).bumpDraws.bumpDraws).setResult
      (.event (if s.fnr.getLsbD 15 then .suspend else .resume))) := by
  rw [exec, execPoll, pollAct_undisturbed hs, hw]
  rfl

variable (hw : s.istr.getLsbD 12 = false)
include hw

theorem exec_poll_reset (hr : s.istr.getLsbD 10 = true) : exec .poll s =
    .next (((s.setIstr (s.istr &&& 0x7B00)).bumpDraws).setResult (.event .reset)) := by
  rw [exec, execPoll, pollAct_undisturbed hs, hw, hr]
  rfl

variable (hr : s.istr.getLsbD 10 = false)
include hr

theorem exec_poll_susp (hp : s.istr.getLsbD 11 = true) : exec .poll s =
    .next (((s.setIstr (s.istr &&& 0x7700)).bumpDraws).setResult (.event .suspend)) := by
  rw [exec, execPoll, pollAct_undisturbed hs, hw, hr, hp]
  rfl

variable (hp : s.istr.getLsbD 11 = false)
include hp

theorem exec_poll_none (hc : s.anyCtr = false) : exec .poll s = .next (s.bumpDraws.setResult (.event .none)) := by
  rw [exec, execPoll, pollAct_undisturbed hs, hw, hr, hp, hc]
  rfl

theorem exec_poll_ctr (hc : s.anyCtr = true) {m : ScanMasks} {t : State} (hscan : scan s.bumpDraws = .done m t) :
    exec .poll s = .next (t.setResult (.event (.data m.out m.inn m.setup))) := by
  rw [exec, execPoll, pollAct_undisturbed hs, hw, hr, hp, hc, hscan]
  rfl

end Flags

/-! ## The masks of the scan (R286) -/

/-- The masks with what the words of some slots show added. -/
def ScanMasks.addAll (m : ScanMasks) (word : Slot → Word) (slots : List Slot) : ScanMasks :=
  slots.foldl (fun m i => m.add i (word i)) m

@[simp] theorem ScanMasks.addAll_nil (m : ScanMasks) (word : Slot → Word) : m.addAll word [] = m := rfl

@[simp] theorem ScanMasks.addAll_cons (m : ScanMasks) (word : Slot → Word) (i : Slot) (slots : List Slot) :
    m.addAll word (i :: slots) = (m.add i (word i)).addAll word slots := rfl

/-- The masks look at the words of the slots they are given only. -/
theorem ScanMasks.addAll_congr {word word' : Slot → Word} {slots : List Slot} (h : ∀ n ∈ slots, word n = word' n)
    (m : ScanMasks) : m.addAll word slots = m.addAll word' slots :=
  List.foldl_ext _ _ _ fun m n hn => by rw [h n hn]

/-- A mask to which each slot adds its bit on a condition shows the slots whose words meet the condition. -/
theorem ScanMasks.getLsbD_addAll {mask : ScanMasks → Word} {shows : Word → Prop} {b : Nat}
    (hadd : ∀ m i r, (mask (m.add i r)).getLsbD b = true ↔ (mask m).getLsbD b = true ∨ (i.val = b ∧ shows r))
    (word : Slot → Word) (slots : List Slot) (m : ScanMasks) :
    (mask (m.addAll word slots)).getLsbD b = true ↔
      (mask m).getLsbD b = true ∨ ∃ n ∈ slots, n.val = b ∧ shows (word n) := by
  induction slots generalizing m with
  | nil => simp
  | cons i slots ih => rw [addAll_cons, ih, hadd, or_assoc, List.exists_mem_cons_iff]

/-! ## The loop of the scan (R286) -/

/-- What the scan leaves in an endpoint register that held `r`. -/
def scannedWord (r : Word) : Word := if ctrOf .inn r then gateEpr r (clearCtrWord r .inn) else r

/-- The scan clears CTR_TX and keeps every other field. -/
theorem fields_scannedWord (r : Word) :
    ctrOf .inn (scannedWord r) = false ∧ statOf .inn (scannedWord r) = statOf .inn r ∧
      dtogOf .inn (scannedWord r) = dtogOf .inn r ∧ SameDir .out r (scannedWord r) ∧ SameConfig r (scannedWord r) := by
  unfold scannedWord
  split
  case isTrue =>
    obtain ⟨hclear, hc, hd, hst, hu, hty, hk, hea⟩ := fields_gate_clear r r .inn
    exact ⟨hclear, hst .inn, hd .inn, ⟨hc .out (by decide), hd .out, hst .out⟩, hty, hk, hea, hu⟩
  case isFalse h => exact ⟨Bool.eq_false_of_not_eq_true h, rfl, rfl, ⟨rfl, rfl, rfl⟩, rfl, rfl, rfl, rfl⟩

/-- One turn of the loop, at a slot up to `max_index`. -/
theorem scanSlots_cons_undisturbed {s : State} (h : s.sched = []) {i : Slot} (hi : i ≤ s.maxIndex) (rest : List Slot)
    (m : ScanMasks) : scanSlots (i :: rest) m s =
      scanSlots rest (m.add i (s.eprAt i)) (s.setEpr i (scannedWord (s.eprAt i))) := by
  rw [scanSlots, if_pos hi, regRead_epr_undisturbed h, Act.andThen_done, scannedWord]
  by_cases hc : ctrOf .inn (s.eprAt i) = true
  · rw [if_pos hc, if_pos hc, epClearCtr_undisturbed h, Act.andThen_done]
  · rw [if_neg hc, if_neg hc, Act.andThen_done, State.setEpr_self s i _ rfl]

/-- The slots the loop visits: it ends at the first one past `max_index`. -/
def scannedSlots (s : State) (slots : List Slot) : List Slot := slots.takeWhile (· ≤ s.maxIndex)

@[simp] theorem scannedSlots_setEpr (s : State) (i : Slot) (w : Word) (slots : List Slot) :
    scannedSlots (s.setEpr i w) slots = scannedSlots s slots := rfl

theorem mem_scannedSlots_allSlots (s : State) (n : Slot) : n ∈ scannedSlots s allSlots ↔ n ≤ s.maxIndex := by
  have h : ∀ k n : Slot, n ∈ allSlots.takeWhile (· ≤ k) ↔ n ≤ k := by decide
  exact h s.maxIndex n

/-- Each slot is read before the loop writes it, so the masks show the words the scan began with. -/
theorem scanSlots_undisturbed (slots : List Slot) (hl : slots.Nodup) (m : ScanMasks) (s : State) (h : s.sched = []) :
    ∃ t, scanSlots slots m s = .done (m.addAll s.eprAt (scannedSlots s slots)) t ∧ t = { s with epr := t.epr } ∧
      ∀ n, t.eprAt n = if n ∈ scannedSlots s slots then scannedWord (s.eprAt n) else s.eprAt n := by
  induction slots generalizing s m with
  | nil => exact ⟨s, rfl, rfl, fun n => rfl⟩
  | cons i rest ih =>
    obtain ⟨hni, hl⟩ := List.nodup_cons.mp hl
    by_cases hi : i ≤ s.maxIndex
    case pos =>
      have hvisit : scannedSlots s (i :: rest) = i :: scannedSlots s rest := List.takeWhile_cons_of_pos (by simpa using hi)
      have hni : i ∉ scannedSlots s rest := fun hmem => hni (List.takeWhile_subset _ hmem)
      obtain ⟨t, hloop, hframe, hepr⟩ := ih hl (m.add i (s.eprAt i)) (s.setEpr i (scannedWord (s.eprAt i))) h
      have hmasks : ∀ n ∈ scannedSlots s rest, (s.setEpr i (scannedWord (s.eprAt i))).eprAt n = s.eprAt n := fun n hn =>
        State.eprAt_setEpr_ne _ _ _ _ (ne_of_mem_of_not_mem hn hni).symm
      refine ⟨t, ?loop, hframe, fun n => ?word⟩
      case loop =>
        rw [scanSlots_cons_undisturbed h hi, hloop, hvisit, ScanMasks.addAll_cons, scannedSlots_setEpr,
          ScanMasks.addAll_congr hmasks]
      case word =>
        rw [hepr n, hvisit, scannedSlots_setEpr]
        by_cases hn : n = i
        · subst hn; simp [hni]
        · rw [State.eprAt_setEpr_ne _ _ _ _ (Ne.symm hn)]; simp [hn]
    case neg =>
      have hvisit : scannedSlots s (i :: rest) = [] := List.takeWhile_cons_of_neg (by simpa using hi)
      refine ⟨s, ?_, rfl, fun n => ?_⟩
      · rw [scanSlots, if_neg hi, hvisit, ScanMasks.addAll_nil]
      · rw [hvisit, if_neg List.not_mem_nil]

/-- The masks the scan returns. -/
def State.scanMasks (s : State) : ScanMasks := ScanMasks.addAll ⟨0, 0, 0⟩ s.eprAt (scannedSlots s allSlots)

/-- A mask of the scan shows the slots up to `max_index` whose words meet its condition. -/
theorem State.getLsbD_scanMasks (mask : ScanMasks → Word) (shows : Word → Prop) (s : State) {b : Nat}
    (hzero : mask ⟨0, 0, 0⟩ = 0)
    (hadd : ∀ m i r, (mask (m.add i r)).getLsbD b = true ↔ (mask m).getLsbD b = true ∨ (i.val = b ∧ shows r)) :
    (mask s.scanMasks).getLsbD b = true ↔ ∃ n : Slot, n.val = b ∧ n ≤ s.maxIndex ∧ shows (s.eprAt n) := by
  rw [State.scanMasks, ScanMasks.getLsbD_addAll hadd, hzero]
  simp [mem_scannedSlots_allSlots, and_left_comm]

theorem scan_undisturbed {s : State} (h : s.sched = []) :
    ∃ t, scan s = .done s.scanMasks t ∧ t = { s with epr := t.epr } ∧
      ∀ n, t.eprAt n = if n ≤ s.maxIndex then scannedWord (s.eprAt n) else s.eprAt n := by
  obtain ⟨t, hloop, hframe, hepr⟩ := scanSlots_undisturbed allSlots (by decide) ⟨0, 0, 0⟩ s h
  exact ⟨t, hloop, hframe, fun n => by simp only [hepr n, mem_scannedSlots_allSlots]⟩

end Sys2Proof.Machine

section Poll

open Sys2Proof Sys2Proof.Machine

/-- Settles O42: each branch of `poll` is one write of ISTR at most, and the first `poll` leaves RESET for the next. -/
theorem pollPriority : Obligations.PollPriority := by
  refine fun s hs => ⟨exec_poll_wkup hs, fun hw hr => ?both, exec_poll_reset hs, exec_poll_susp hs, exec_poll_none hs⟩
  case both =>
    have hw' : (s.istr &&& 0x6F00).getLsbD 12 = false := by simp [-BitVec.getLsbD_eq_getElem]
    have hr' : (s.istr &&& 0x6F00).getLsbD 10 = true := by simp [hr, -BitVec.getLsbD_eq_getElem]
    refine ⟨_, _, exec_poll_wkup hs hw, exec_poll_reset (by exact hs) (by exact hw') (by exact hr'), ?event, rfl⟩
    case event =>
      rw [State.setResult_result]
      cases s.fnr.getLsbD 15
      · exact .inl rfl
      · exact .inr rfl

/-- Settles O43: the loop visits the slots up to `max_index`, its masks show their words, and it clears CTR_TX in them. -/
theorem pollScan : Obligations.PollScan := by
  intro s hs hw hr hp hc
  obtain ⟨t, hscan, hframe, hepr⟩ := scan_undisturbed (s := s.bumpDraws) hs
  refine ⟨_, s.scanMasks.out, s.scanMasks.inn, s.scanMasks.setup, exec_poll_ctr hs hw hr hp hc hscan, ?frame,
    fun b => ?out, fun b => ?inn, fun b => ?setup, fun n => ⟨fun hn => ?above, fun hn => ?upTo⟩⟩
  case frame => rw [hframe]; rfl
  case out => exact s.getLsbD_scanMasks (·.out) (ctrOf .out · = true) rfl fun m i r => (getLsbD_add m i r b).1
  case inn => exact s.getLsbD_scanMasks (·.inn) (ctrOf .inn · = true) rfl fun m i r => (getLsbD_add m i r b).2.1
  case setup =>
    exact s.getLsbD_scanMasks (·.setup) (fun r => ctrOf .out r = true ∧ setupOf r = true) rfl
      fun m i r => (getLsbD_add m i r b).2.2
  case above => rw [State.eprAt_setResult, hepr, if_neg (by exact not_le.mpr hn), State.eprAt_bumpDraws]
  case upTo =>
    rw [State.eprAt_setResult, hepr, if_pos (by exact hn), State.eprAt_bumpDraws]
    exact fields_scannedWord _

end Poll

namespace Sys2Proof.Machine

/-! Proofs about the bus engine (file 45_bus_engine.md): the events and the two ways a step has no effect, the slot a
transaction reaches, and what OUT, SETUP and IN do there. -/

/-! ## While the engine runs, and while it does not (R301, R314) -/

theorem whileOn_of_busOn {s : State} (h : s.busOn = true) (t : State) : whileOn s t = .done () t := if_pos h

theorem busOn_eq_false_iff {s : State} : s.busOn = false ↔ s.cntr.getLsbD 1 = true ∨ s.cntr.getLsbD 0 = true := by
  rw [State.busOn, Bool.and_eq_false_iff, Bool.not_eq_false', Bool.not_eq_false', pdwn, fres]

theorem answering_eq_false_of_busOff {s : State} (h : s.busOn = false) : s.answering = false := by
  rw [State.answering, h, Bool.false_and]

/-- A transaction the device does not answer, or to a number no slot has, has no effect (R301; log entry 8). -/
theorem transaction_unanswered {s : State} {e : BitVec 4} (h : s.answering = false ∨ s.route e = none)
    (k : Slot → Act Unit) : transaction e s k = .done () s := by
  rw [transaction_eq_done]
  cases ha : s.answering with
  | false => exact .inl ⟨rfl, rfl⟩
  | true =>
    rw [ha] at h
    exact .inr (.inl ⟨rfl, h.resolve_left nofun, rfl⟩)

theorem busStep_off {s : State} (h : s.busOn = false) (b : BusStep) (hb : ∀ dp dm, b ≠ .line dp dm) :
    busStep b s = .done () s := by
  have hWhile : ∀ t, whileOn s t = .done () s := fun t => if_neg (by simp [h])
  have hTransaction : ∀ e k, transaction e s k = .done () s := fun e k =>
    transaction_unanswered (.inl (answering_eq_false_of_busOff h)) k
  cases b with
  | reset | suspend | wakeup _ _ | other _ => exact hWhile _
  | out _ _ _ | setup _ _ | inn _ _ => exact hTransaction _ _
  | line dp dm => exact absurd rfl (hb dp dm)

theorem silent_busStep_off {s : State} (h : s.busOn = false) (b : BusStep) (hb : ∀ dp dm, b ≠ .line dp dm) :
    (busStep b s).silent = .next s := by
  rw [busStep_off h b hb, Act.silent_done]

theorem exec_off {s : State} (h : s.busOn = false) :
    ∀ {i : Instr}, isBusStep i = true → (∀ dp dm, i ≠ .busLine dp dm) → exec i s = .next s
  | .busReset, _, _ => silent_busStep_off h .reset nofun
  | .busOut e data fresh, _, _ => silent_busStep_off h (.out e data fresh) nofun
  | .busSetup e data, _, _ => silent_busStep_off h (.setup e data) nofun
  | .busIn e acked, _, _ => silent_busStep_off h (.inn e acked) nofun
  | .busSuspend, _, _ => silent_busStep_off h .suspend nofun
  | .busWakeup dp dm, _, _ => silent_busStep_off h (.wakeup dp dm) nofun
  | .busOtherEvent which, _, _ => silent_busStep_off h (.other which) nofun
  | .busLine dp dm, _, hi => absurd rfl (hi dp dm)

/-! ## The bus events (R309 to R313) -/

theorem exec_busReset_on {s : State} (h : s.busOn = true) :
    exec .busReset s = .next (((s.setIstr (s.istr ||| resetFlag)).setAllEpr 0x0000).setDaddr 0x0000) := by
  rw [exec, execBusReset, busStep, whileOn_of_busOn h]
  rfl

theorem exec_busSuspend_on {s : State} (h : s.busOn = true) :
    exec .busSuspend s = .next (s.setIstr (s.istr ||| suspFlag)) := by
  rw [exec, execBusSuspend, busStep, whileOn_of_busOn h, Act.silent_done]

theorem exec_busOtherEvent_on {s : State} (h : s.busOn = true) (which : OtherEvent) :
    exec (.busOtherEvent which) s = .next (s.setIstr (s.istr ||| otherFlag which)) := by
  rw [exec, execBusOtherEvent, busStep, whileOn_of_busOn h, Act.silent_done]

theorem exec_busWakeup_on {s : State} (h : s.busOn = true) (dp dm : Bool) : exec (.busWakeup dp dm) s =
    .next (((s.setIstr (s.istr ||| wkupFlag)).setCntr (s.cntr &&& 0xFFFB)).setFnr (withLines s.fnr dp dm)) := by
  rw [exec, execBusWakeup, busStep, whileOn_of_busOn h, Act.silent_done]

/-- Bits outside a mask do not show under it. -/
theorem or_and_of_and_eq_zero {x y m : Word} (h : y &&& m = 0x0000) : (x ||| y) &&& m = x &&& m := by
  rw [BitVec.and_comm, BitVec.and_or_distrib_left, BitVec.and_comm m y, h, BitVec.and_comm m x]
  exact BitVec.or_zero

/-- The line state replaced: RXDP, RXDM, and the bits below them as they were (R43). -/
theorem fields_withLines (f : Word) (dp dm : Bool) :
    (withLines f dp dm).getLsbD 15 = dp ∧ (withLines f dp dm).getLsbD 14 = dm ∧
      withLines f dp dm &&& 0x3FFF = f &&& 0x3FFF := by
  refine ⟨?dp, ?dm, ?low⟩
  case dp => cases dp <;> cases dm <;> simp [-BitVec.getLsbD_eq_getElem, withLines]
  case dm => cases dp <;> cases dm <;> simp [-BitVec.getLsbD_eq_getElem, withLines]
  case low =>
    rw [withLines, or_and_of_and_eq_zero (by cases dm <;> rfl), or_and_of_and_eq_zero (by cases dp <;> rfl),
      BitVec.and_assoc, BitVec.and_self]

/-! ## The slot a transaction reaches (R301) -/

/-- The handshake a direction that takes no packet answers with (R302). -/
def turnedAway : Status → Option Handshake
  | .disabled => some .none
  | .stall => some .stall
  | .nak => some .nak
  | .valid => none

section AtSlot

variable {s : State} {n : Slot} {data : List Byte} {fresh acked : Bool}

theorem busOutAt_turnedAway {a : Handshake} (h : turnedAway (statusOf .out (s.eprAt n)) = some a) :
    busOutAt n data fresh s = .done () (s.answer n .out a) := by
  cases hst : statusOf .out (s.eprAt n) <;> rw [hst] at h
  case valid => cases h
  all_goals cases h; rw [busOutAt, hst]

theorem busInAt_turnedAway {a : Handshake} (h : turnedAway (statusOf .inn (s.eprAt n)) = some a) :
    busInAt n acked s = .done () (s.answer n .inn a) := by
  cases hst : statusOf .inn (s.eprAt n) <;> rw [hst] at h
  case valid => cases h
  all_goals cases h; rw [busInAt, hst]

theorem busOutAt_valid (h : statusOf .out (s.eprAt n) = .valid) : busOutAt n data fresh s = withCapacity n s fun cnt =>
    if fresh then receive n data cnt eprAfterOut s else .done () (s.answer n .out .ack) := by
  rw [busOutAt, h]

theorem busInAt_valid (h : statusOf .inn (s.eprAt n) = .valid) : busInAt n acked s = transmit n acked s := by
  rw [busInAt, h]

variable {pkt : Vector Byte 8}

theorem busSetupAt_of_ne_control (h : typeOf (s.eprAt n) ≠ .control) :
    busSetupAt n pkt s = busOutAt n pkt.toList true s := if_neg h

theorem busSetupAt_disabled (hc : typeOf (s.eprAt n) = .control) (h : statusOf .out (s.eprAt n) = .disabled) :
    busSetupAt n pkt s = .done () (s.answer n .out .none) := by
  rw [busSetupAt, if_pos hc, if_pos h]

theorem busSetupAt_control (hc : typeOf (s.eprAt n) = .control) (h : statusOf .out (s.eprAt n) ≠ .disabled) :
    busSetupAt n pkt s = withCapacity n s fun cnt => receive n pkt.toList cnt eprAfterSetup s := by
  rw [busSetupAt, if_pos hc, if_neg h]

variable {cnt : Word} (hcnt : s.busBd n .countRx = .ok cnt) (k : Word → Act Unit)
include hcnt

theorem withCapacity_zero (h : capacity cnt = 0) : withCapacity n s k = .fault .zeroCapacityReceive := by
  simp [withCapacity, hcnt, h]

theorem withCapacity_pos (h : capacity cnt ≠ 0) : withCapacity n s k = k cnt := by
  simp [withCapacity, hcnt, h]

end AtSlot

theorem answering_iff {s : State} : s.answering = true ↔ s.busOn = true ∧ s.daddr.getLsbD 7 = true := Bool.and_eq_true_iff

theorem transaction_isochronous {s : State} {e : BitVec 4} {n : Slot} (ha : s.answering = true)
    (hr : s.route e = some n) (hi : typeOf (s.eprAt n) = .isochronous) (k : Slot → Act Unit) :
    transaction e s k = .fault .isochronousUnmodelled := by
  simp [transaction, ha, hr, hi]

/-- What is to be done matters at the slot reached only. -/
theorem transaction_congr {s : State} {e : BitVec 4} {n : Slot} (hr : s.route e = some n) {k l : Slot → Act Unit}
    (h : k n = l n) : transaction e s k = transaction e s l := by
  simp only [transaction, hr, h]

section Reached

variable {s : State} {e : BitVec 4} {n : Slot} (ha : s.answering = true) (hr : s.route e = some n)
  (hi : typeOf (s.eprAt n) ≠ .isochronous)
include ha hr hi

theorem exec_busOut_reached (data : List Byte) (fresh : Bool) :
    exec (.busOut e data fresh) s = (busOutAt n data fresh s).silent := by
  rw [exec, execBusOut, busStep, transaction_reaches ha hr hi]

theorem exec_busSetup_reached (data : Vector Byte 8) : exec (.busSetup e data) s = (busSetupAt n data s).silent := by
  rw [exec, execBusSetup, busStep, transaction_reaches ha hr hi]

theorem exec_busIn_reached (acked : Bool) : exec (.busIn e acked) s = (busInAt n acked s).silent := by
  rw [exec, execBusIn, busStep, transaction_reaches ha hr hi]

theorem exec_busOut_turnedAway {a : Handshake} (h : turnedAway (statusOf .out (s.eprAt n)) = some a) (data : List Byte)
    (fresh : Bool) : exec (.busOut e data fresh) s = .next (s.answer n .out a) := by
  rw [exec_busOut_reached ha hr hi, busOutAt_turnedAway h, Act.silent_done]

theorem exec_busIn_turnedAway {a : Handshake} (h : turnedAway (statusOf .inn (s.eprAt n)) = some a) (acked : Bool) :
    exec (.busIn e acked) s = .next (s.answer n .inn a) := by
  rw [exec_busIn_reached ha hr hi, busInAt_turnedAway h, Act.silent_done]

end Reached

/-! ## The packet in packet memory, and the endpoint register after a transaction (R304 to R306) -/

theorem receive_too_long {n : Slot} {data : List Byte} {cnt : Word} (h : capacity cnt < data.length)
    (after : Word → Word) (s : State) : receive n data cnt after s = .refused .hostDutyBroken := if_pos h

/-- The COUNT_RX word after a reception: the packet's length, the declared capacity as it was. -/
theorem countWord_receivedPma (s : State) (n : Slot) {data : List Byte} (cnt : Word) {a : Word}
    (hl : data.length ≤ capacity cnt) (hf : bufferOffset a + capacity cnt ≤ 512) :
    ∃ w, Memory.wordAt (receivedPma s n data cnt a) (s.btable.toNat + 8 * n.val + 6) = some w ∧
      countField w = data.length ∧ w.extractLsb' 10 6 = cnt.extractLsb' 10 6 :=
  ⟨_, wordAt_putPmaWord_same _ _ _, countField_withCount cnt _ (by omega), blocks_withCount cnt _⟩

theorem fields_eprAfterOut (r : Word) :
    setupOf (eprAfterOut r) = false ∧ dtogOf .out (eprAfterOut r) = !dtogOf .out r ∧
      statusOf .out (eprAfterOut r) = .nak ∧ ctrOf .out (eprAfterOut r) = true ∧ SameDir .inn r (eprAfterOut r) ∧
      typeOf (eprAfterOut r) = typeOf r ∧ kindOf (eprAfterOut r) = kindOf r ∧ eaOf (eprAfterOut r) = eaOf r := by
  simp [eprAfterOut, SameDir, statusOf_eq_iff]

theorem fields_eprAfterSetup (r : Word) :
    setupOf (eprAfterSetup r) = true ∧ ctrOf .out (eprAfterSetup r) = true ∧
      (∀ d, dtogOf d (eprAfterSetup r) = true ∧ statusOf d (eprAfterSetup r) = .nak) ∧
      ctrOf .inn (eprAfterSetup r) = ctrOf .inn r ∧ typeOf (eprAfterSetup r) = typeOf r ∧
      kindOf (eprAfterSetup r) = kindOf r ∧ eaOf (eprAfterSetup r) = eaOf r := by
  refine ⟨?setup, ?ctrRx, fun d => ?direction, ?ctrTx, ?type, ?kind, ?ea⟩
  case direction => cases d <;> simp [eprAfterSetup, statusOf_eq_iff]
  all_goals simp [eprAfterSetup]

theorem fields_eprAfterIn (r : Word) :
    dtogOf .inn (eprAfterIn r) = !dtogOf .inn r ∧ statusOf .inn (eprAfterIn r) = .nak ∧
      ctrOf .inn (eprAfterIn r) = true ∧ SameDir .out r (eprAfterIn r) ∧ SameConfig r (eprAfterIn r) := by
  simp [eprAfterIn, SameDir, SameConfig, statusOf_eq_iff]

end Sys2Proof.Machine

section BusEngine

open Sys2Proof Sys2Proof.Machine

/-- Settles O50: while the engine runs, the step is `busResetEffect` at the parameter's value. -/
theorem busResetEffect : Obligations.BusResetEffect :=
  fun _ => ⟨fun h => exec_busReset_on h, rfl⟩

/-- Settles O51: each event is one register write, guarded by the engine's enable but for `bus_line`. -/
theorem busEventsEffect : Obligations.BusEventsEffect :=
  fun s => ⟨fun dp dm => ⟨_, rfl, fields_withLines s.fnr dp dm⟩, fun h => ⟨exec_busSuspend_on h,
    exec_busOtherEvent_on h .pmaovr, exec_busOtherEvent_on h .err, exec_busOtherEvent_on h .sof,
    exec_busOtherEvent_on h .esof, fun dp dm => ⟨_, exec_busWakeup_on h dp dm, fields_withLines s.fnr dp dm⟩⟩⟩

/-- Settles O52: the events ask whether the engine runs, the transactions whether the device answers, which it does only
while the engine runs. -/
theorem busOffOnlyLine : Obligations.BusOffOnlyLine :=
  fun _ _ hoff hi hline => exec_off (busOn_eq_false_iff.mpr hoff) hi hline

/-- Settles O53: each transaction is `transaction` at its endpoint number, and `route` finds the lowest slot. -/
theorem transactionRouting : Obligations.TransactionRouting := by
  refine fun e data pkt fresh acked s => ⟨fun h => ?unanswered, fun n hon hef hea hlow => ?reached⟩
  case unanswered =>
    have hno : s.answering = false ∨ s.route e = none := h.imp
      (fun hef => by rw [State.answering, ef, hef, Bool.and_false]) route_eq_none
    have hstep : ∀ k, (transaction e s k).silent = .next s := fun k => by
      rw [transaction_unanswered hno, Act.silent_done]
    exact ⟨hstep _, hstep _, hstep _⟩
  case reached =>
    have ha : s.answering = true := answering_iff.mpr ⟨hon, hef⟩
    have hr : s.route e = some n := route_eq_some n hea hlow
    refine ⟨ha, hr, fun hi => ?isochronous, fun cnt hi hcnt hzero => ⟨fun hv => ?out, fun hc hd => ?setup⟩⟩
    case isochronous =>
      have hstep : ∀ k, (transaction e s k).silent = .fault .isochronousUnmodelled := fun k => by
        rw [transaction_isochronous ha hr hi, Act.silent_fault]
      exact ⟨hstep _, hstep _, hstep _⟩
    case out =>
      rw [exec_busOut_reached ha hr hi, busOutAt_valid hv, withCapacity_zero hcnt _ hzero, Act.silent_fault]
    case setup =>
      rw [exec_busSetup_reached ha hr hi, busSetupAt_control hc hd, withCapacity_zero hcnt _ hzero, Act.silent_fault]

/-- Settles O54: on Valid the step is a reception of the new packet, or ACK alone for a retransmission. -/
theorem busOutEffect : Obligations.BusOutEffect := by
  intro e data fresh n s ha hr hi
  have haway {a : Handshake} (h : turnedAway (statusOf .out (s.eprAt n)) = some a) :=
    exec_busOut_turnedAway ha hr hi h data fresh
  refine ⟨fun h => haway (by rw [h]; rfl), fun h => haway (by rw [h]; rfl), fun h => haway (by rw [h]; rfl),
    fun cnt hv hcnt hpos => ?valid⟩
  have hexec (fresh : Bool) : exec (.busOut e data fresh) s =
      (if fresh then receive n data cnt eprAfterOut s else .done () (s.answer n .out .ack)).silent := by
    rw [exec_busOut_reached ha hr hi, busOutAt_valid hv, withCapacity_pos hcnt _ hpos]
  refine ⟨hexec false, fun hlong => ?long, fun a haddr hl hf => ?stored⟩
  case long => rw [hexec true, if_pos rfl, receive_too_long hlong, Act.silent_refused]
  case stored =>
    refine ⟨receivedPma s n data cnt a, eprAfterOut (s.eprAt n), ?next, countWord_receivedPma s n cnt hl hf,
      byte_receivedPma s n data cnt a hl, fields_eprAfterOut _⟩
    rw [hexec true, if_pos rfl, receive_eq_done.mpr ⟨hl, a, haddr, hf, rfl⟩, Act.silent_done]
    rfl

/-- Settles O55: on a Control slot that is not Disabled the step is a reception of the 8 bytes; on another type it is the
step of a new OUT packet. -/
theorem busSetupEffect : Obligations.BusSetupEffect := by
  refine fun e data n s ha hr => ⟨fun hc => ?other, fun hc hd => ?disabled, fun cnt a hc hd hcnt haddr hcap hf => ?stored⟩
  case other => exact congrArg Act.silent (transaction_congr hr (busSetupAt_of_ne_control hc))
  all_goals have hi : typeOf (s.eprAt n) ≠ .isochronous := by rw [hc]; decide
  case disabled =>
    rw [exec_busSetup_reached ha hr hi, busSetupAt_disabled hc hd, Act.silent_done]
    rfl
  case stored =>
    have hlen : data.toList.length = 8 := data.length_toList
    have hl : data.toList.length ≤ capacity cnt := hlen.trans_le hcap
    have hword := countWord_receivedPma s n cnt hl hf
    have hbytes := byte_receivedPma s n data.toList cnt a hl
    rw [hlen] at hword hbytes
    refine ⟨receivedPma s n data.toList cnt a, eprAfterSetup (s.eprAt n), ?next, hword, hbytes,
      hc ▸ fields_eprAfterSetup (s.eprAt n)⟩
    rw [exec_busSetup_reached ha hr hi, busSetupAt_control hc hd, withCapacity_pos hcnt _ (by omega),
      receive_eq_done.mpr ⟨hl, a, haddr, hf, rfl⟩, Act.silent_done]
    rfl

/-- Settles O56: on Valid the step is `transmit`, whose bytes are those COUNT_TX and ADDR_TX name. -/
theorem busInEffect : Obligations.BusInEffect := by
  intro e acked n s ha hr hi
  have haway {a : Handshake} (h : turnedAway (statusOf .inn (s.eprAt n)) = some a) :=
    exec_busIn_turnedAway ha hr hi h acked
  refine ⟨fun h => haway (by rw [h]; rfl), fun h => haway (by rw [h]; rfl), fun h => haway (by rw [h]; rfl),
    fun c a hv hc haddr hf => ?valid⟩
  have hexec (acked : Bool) :=
    (exec_busIn_reached ha hr hi acked).trans (congrArg Act.silent
      ((busInAt_valid hv).trans (transmit_eq_done.mpr ⟨c, a, hc, haddr, fun _ => hf, rfl⟩)))
  exact ⟨Memory.bytes s.pma (bufferOffset a) (countField c), Memory.length_bytes _ _ _,
    fun k hk => Memory.getElem?_bytes _ _ _ k hk, hexec false, eprAfterIn (s.eprAt n), hexec true, fields_eprAfterIn _⟩

end BusEngine

namespace Sys2Proof.Machine

/-! Proofs about peripheral control (file 46_peripheral_control.md): the words its writes leave in CNTR and DADDR, the cached
index, and each operation with no bus step between its accesses. -/

/-! ## The words in CNTR (R161, R331, R334 to R336) -/

theorem gateCntr_or (x y : Word) : gateCntr (x ||| y) = gateCntr x ||| gateCntr y := BitVec.and_or_distrib_right

theorem gateCntr_and (c m : Word) : gateCntr (c &&& m) = c &&& gateCntr m := BitVec.and_assoc c m _

theorem and_or_absorb (x y : Word) : x &&& y ||| y = y :=
  BitVec.eq_of_getLsbD_eq fun i _ => by rw [BitVec.getLsbD_or, BitVec.getLsbD_and]; cases y.getLsbD i <;> simp

/-- `enable` clears PDWN in one write, and FRES in a second one that sets the masks. -/
theorem gateCntr_enable (c : Word) :
    gateCntr (gateCntr (c &&& 0xFFFD) &&& 0xFFFE ||| Config.enableCntrMasks) = (c &&& 0xFF1C) ||| 0x9C00 := by
  rw [gateCntr_or, gateCntr_and, gateCntr_and, BitVec.and_assoc]
  rfl

theorem gateCntr_suspend (c : Word) : gateCntr (c ||| 0x000C) = (c &&& 0xFF13) ||| 0x000C := by
  calc gateCntr (c ||| 0x000C) = c &&& (0xFF13 ||| 0x000C) ||| 0x000C := gateCntr_or c 0x000C
    _ = c &&& 0xFF13 ||| 0x000C := by rw [BitVec.and_or_distrib_left, BitVec.or_assoc, and_or_absorb]

/-- `force_reset` sets PDWN, then puts its bit back as it was read. -/
theorem gateCntr_restorePdwn (c : Word) : gateCntr (restorePdwn c (gateCntr (c ||| 0x0002))) = c &&& 0xFF1F := by
  have others : gateCntr (c ||| 0x0002) &&& 0xFFFD = c &&& 0xFF1D := by
    rw [gateCntr, BitVec.and_assoc, BitVec.and_or_distrib_right]
    exact BitVec.or_zero
  calc gateCntr (restorePdwn c (gateCntr (c ||| 0x0002))) = gateCntr (c &&& 0xFF1D ||| c &&& 0x0002) := by
        rw [restorePdwn, others]
    _ = gateCntr (c &&& (0xFF1D ||| 0x0002)) := by rw [BitVec.and_or_distrib_left]
    _ = c &&& 0xFF1F := gateCntr_and c _

/-! ## The words in DADDR (R117, R161, R333) -/

theorem toNat_gateDaddr (w : Word) : (gateDaddr w).toNat = w.toNat % 256 := by
  rw [gateDaddr, BitVec.toNat_and]
  exact Nat.and_two_pow_sub_one_eq_mod w.toNat 8

/-- EF lies above the seven address bits, so the OR of the two is their sum. -/
theorem efBit_or {a : Nat} (h : a ≤ 127) : 0x0080 ||| a = 0x0080 + a :=
  (Nat.two_pow_add_eq_or_of_lt (i := 7) (by omega) 1).symm

theorem toNat_daddrwSetWord (a : BitVec 7) : (daddrwSetWord a).toNat = 0x0080 + a.toNat := by
  rw [daddrwSetWord, BitVec.toNat_append]
  exact efBit_or (by omega)

theorem toNat_deviceAddressWord {a : Byte} (h : a.toNat ≤ 127) :
    (0x0080#16 ||| a.setWidth 16).toNat = 0x0080 + a.toNat := by
  rw [BitVec.toNat_or, BitVec.toNat_setWidth, Nat.mod_eq_of_lt (by omega)]
  exact efBit_or h

/-- A word of EF and an address goes through the gate as it is. -/
theorem regWrite_daddr_address {s : State} {w : Word} {a : Nat} (hs : s.sched = []) (ha : a ≤ 127)
    (hw : w.toNat = 0x0080 + a) :
    ∃ q, (regWrite .daddr w s).returningUnit = .next ((s.setDaddr q).setResult .unit) ∧ q.toNat = 0x0080 + a := by
  refine ⟨gateDaddr w, by rw [regWrite_undisturbed hs, Act.returningUnit_done, State.storeReg], ?_⟩
  rw [toNat_gateDaddr, hw, Nat.mod_eq_of_lt (by omega)]

/-! ## The cached index (R50, R331) -/

/-- Along increasing slots the fold keeps the last one it takes, which is the highest, or its start. -/
theorem foldl_latest (takes : Slot → Bool) {start : Slot} {slots : List Slot} (hl : (start :: slots).Pairwise (· ≤ ·)) :
    let last := slots.foldl (fun m i => if takes i then i else m) start
    start ≤ last ∧ (∀ n ∈ slots, takes n = true → n ≤ last) ∧ (takes last = true ∨ last = start) := by
  induction slots generalizing start with
  | nil => exact ⟨le_rfl, nofun, .inr rfl⟩
  | cons i rest ih =>
    have hi : start ≤ i := List.rel_of_pairwise_cons hl List.mem_cons_self
    rw [List.foldl_cons]
    cases ht : takes i with
    | true =>
      obtain ⟨hge, hall, hlast⟩ := ih hl.of_cons
      refine ⟨hi.trans hge, List.forall_mem_cons.mpr ⟨fun _ => hge, hall⟩, .inl ?_⟩
      exact hlast.elim id fun h => by rw [if_pos rfl, h, ht]
    | false =>
      obtain ⟨hge, hall, hlast⟩ := ih (hl.sublist ((List.sublist_cons_self i rest).cons_cons start))
      exact ⟨hge, List.forall_mem_cons.mpr ⟨fun h => absurd h (by simp [ht]), hall⟩, hlast⟩

theorem hasDirection_iff {s : State} {n : Slot} :
    hasDirection s n = true ↔ (s.epAt n).out = true ∨ (s.epAt n).inn = true := Bool.or_eq_true_iff

theorem highestIndex_spec (s : State) :
    (∀ n, hasDirection s n = true → n ≤ highestIndex s) ∧
      (hasDirection s (highestIndex s) = true ∨ highestIndex s = 0) := by
  obtain ⟨-, hall, hlast⟩ := foldl_latest (hasDirection s) (start := 0) (slots := allSlots) (by decide)
  exact ⟨fun n => hall n (mem_allSlots n), hlast⟩

/-! ## The latched flags (R160, R331) -/

theorem regWrite_istr_zero {s : State} (h : s.sched = []) : regWrite .istr 0x0000 s = .done () (s.setIstr 0x0000) := by
  have hclear : s.istr &&& 0x0000 = 0x0000 := BitVec.and_zero
  rw [regWrite_istr_masks (m := 0x0000) h rfl, hclear]

/-! ## The operations with no bus step between their accesses -/

section Undisturbed

variable {s : State} (hs : s.sched = [])
include hs

theorem exec_enable_undisturbed : exec .enable s = .next { s with
    maxIndex := highestIndex s, cntr := (s.cntr &&& 0xFF1C) ||| 0x9C00, btable := 0x0000, istr := 0x0000,
    phase := .enabled, result := .unit } := by
  rw [exec, execEnable, cntrUpdate_undisturbed (by exact hs), Act.andThen_done, busyWait,
    regWrite_undisturbed (by exact hs), Act.andThen_done, cntrUpdate_undisturbed (by exact hs), Act.andThen_done,
    regWrite_istr_zero (by exact hs), Act.andThen_done, Act.returningUnit_done, ← gateCntr_enable]
  rfl

theorem exec_suspend_undisturbed :
    exec .suspend s = .next ((s.setCntr ((s.cntr &&& 0xFF13) ||| 0x000C)).setResult .unit) := by
  rw [exec, execSuspend, cntrUpdate_undisturbed hs, Act.returningUnit_done, gateCntr_suspend]

theorem exec_resume_undisturbed : exec .resume s = .next ((s.setCntr (s.cntr &&& 0xFF13)).setResult .unit) := by
  rw [exec, execResume, cntrUpdate_undisturbed hs, Act.returningUnit_done, gateCntr_and]
  rfl

theorem exec_forceReset_undisturbed {cap : ResetCap} (h : s.resetCap = some cap) : exec .forceReset s =
    .next (((s.setCntr (s.cntr &&& 0xFF1F)).setPinLevel .low).setResult .unit) := by
  rw [exec, execForceReset, h]
  dsimp only
  rw [regRead_undisturbed hs, Act.andThen_done, State.afterRead_cntr, regWrite_undisturbed hs, Act.andThen_done,
    cntrUpdate_undisturbed (by exact hs), Act.andThen_done, Act.returning_done, ← gateCntr_restorePdwn]
  rfl

end Undisturbed

theorem exec_forceReset_unsupported {s : State} (h : s.resetCap = none) :
    exec .forceReset s = .next (s.setResult (.error .unsupported)) := by
  rw [exec, execForceReset, h]
  rfl

theorem exec_setDeviceAddress_of_le {a : Byte} (h : a.toNat ≤ 127) (s : State) :
    exec (.setDeviceAddress a) s = (regWrite .daddr (0x0080#16 ||| a.setWidth 16) s).returningUnit := by
  rw [exec, execSetDeviceAddress, if_neg (by omega)]

theorem exec_setDeviceAddress_of_gt {a : Byte} (h : 127 < a.toNat) (s : State) :
    exec (.setDeviceAddress a) s = .fault .addressOutOfRange := by
  rw [exec, execSetDeviceAddress, if_pos h, Act.returningUnit_fault]

end Sys2Proof.Machine

section PeripheralControl

open Sys2Proof Sys2Proof.Machine

/-- Settles O44: the four writes of `enable`, and the fold that finds the highest slot with a direction. -/
theorem enableEffect : Obligations.EnableEffect := by
  intro s hs
  obtain ⟨hall, hlast⟩ := highestIndex_spec s
  refine ⟨highestIndex s, exec_enable_undisturbed hs, fun n h => hall n (hasDirection_iff.mpr h), ?_⟩
  exact or_assoc.mp (hlast.imp_left hasDirection_iff.mp)

/-- Settles O46: each of the two is one read-modify-write of CNTR. -/
theorem suspendResumeEffect : Obligations.SuspendResumeEffect :=
  fun _ hs => ⟨exec_suspend_undisturbed hs, exec_resume_undisturbed hs⟩

/-- Settles O48: the second write of CNTR takes PDWN from the word read before the first. -/
theorem forceResetEffect : Obligations.ForceResetEffect :=
  ⟨fun _ => exec_forceReset_unsupported, fun _ _ hs => exec_forceReset_undisturbed hs⟩

/-- Settles O45: both words are EF and the address, which the gate of DADDR lets through. -/
theorem setDeviceAddressEffect : Obligations.SetDeviceAddressEffect := by
  refine ⟨fun a s hs ha => ?address, fun a s ha => exec_setDeviceAddress_of_gt ha s, fun a s hs => ?word⟩
  case address =>
    rw [exec_setDeviceAddress_of_le ha]
    exact regWrite_daddr_address hs ha (toNat_deviceAddressWord ha)
  case word => exact regWrite_daddr_address hs (by omega) (toNat_daddrwSetWord a)

end PeripheralControl

namespace Sys2Proof.Machine

/-! Proofs about the interrupt line and about error results (file 60_exceptions.md). -/

/-! ## The interrupt line (R356) -/

theorem ne_zero_iff_getLsbD {n : Nat} {w : BitVec n} : w ≠ 0 ↔ ∃ b, w.getLsbD b = true := by
  refine not_iff_comm.mp ⟨fun h => BitVec.eq_of_getLsbD_eq fun b _ => ?_, ?_⟩
  · simpa using not_exists.mp h b
  · rintro rfl
    simp

theorem getLsbD_highByteMask (b : Nat) : (0xFF00 : Word).getLsbD b = true ↔ 8 ≤ b ∧ b ≤ 15 := by
  by_cases hb : b < 16
  case pos => interval_cases b <;> decide
  case neg => simp only [BitVec.getLsbD_of_ge _ b (not_lt.mp hb), Bool.false_eq_true, false_iff]; omega

/-- A pending and enabled source is a bit of both registers. -/
theorem usbIrq_iff (s : State) : s.usbIrq = true ↔
    ∃ b : Nat, 8 ≤ b ∧ b ≤ 15 ∧ s.istrFlags.getLsbD b = true ∧ s.cntr.getLsbD b = true := by
  rw [State.usbIrq, decide_eq_true_iff, ne_zero_iff_getLsbD]
  simp only [BitVec.getLsbD_and, Bool.and_eq_true, getLsbD_highByteMask]
  exact exists_congr fun b => by tauto

/-- Equal mask bytes of CNTR enable the same sources. -/
theorem getLsbD_of_maskByte {c m : Word} (h : c &&& 0xFF00 = m) {b : Nat} (h8 : 8 ≤ b) (h15 : b ≤ 15) :
    c.getLsbD b = m.getLsbD b := by
  rw [← h, BitVec.getLsbD_and, (getLsbD_highByteMask b).mpr ⟨h8, h15⟩, Bool.and_true]

/-- The sources the masks of `enable` let through. -/
theorem getLsbD_enabledMasks {b : Nat} (h8 : 8 ≤ b) (h15 : b ≤ 15) :
    (0x9C00 : Word).getLsbD b = true ↔ b = 10 ∨ b = 11 ∨ b = 12 ∨ b = 15 := by
  interval_cases b <;> decide

theorem usbIrq_iff_of_enabledMasks {s : State} (h : s.cntr &&& 0xFF00 = 0x9C00) :
    s.usbIrq = true ↔ s.anyCtr = true ∨ s.istr.getLsbD 12 = true ∨ s.istr.getLsbD 11 = true ∨ s.istr.getLsbD 10 = true := by
  have hsource : s.usbIrq = true ↔ ∃ b, (b = 10 ∨ b = 11 ∨ b = 12 ∨ b = 15) ∧ s.istrFlags.getLsbD b = true := by
    rw [usbIrq_iff]
    refine exists_congr fun b => ⟨fun ⟨h8, h15, hi, hc⟩ => ⟨?enabled, hi⟩, fun ⟨hb, hi⟩ => ⟨by omega, by omega, hi, ?mask⟩⟩
    case enabled => rwa [getLsbD_of_maskByte h h8 h15, getLsbD_enabledMasks h8 h15] at hc
    case mask => rwa [getLsbD_of_maskByte h (by omega) (by omega), getLsbD_enabledMasks (by omega) (by omega)]
  rw [hsource, ← getLsbD_istrFlags_ctr, ← getLsbD_istrFlags s 12 (by decide) (by decide),
    ← getLsbD_istrFlags s 11 (by decide) (by decide), ← getLsbD_istrFlags s 10 (by decide) (by decide)]
  simp only [or_and_right, exists_or, exists_eq_left]
  tauto

/-- With no flag latched, the summary flag CTR is the one source left. -/
theorem usbIrq_of_istr_zero {s : State} (hi : s.istr = 0x0000) (hc : s.cntr.getLsbD 15 = true) : s.usbIrq = s.anyCtr := by
  rw [Bool.eq_iff_iff, usbIrq_iff, ← getLsbD_istrFlags_ctr]
  refine ⟨fun ⟨b, h8, h15, hb, _⟩ => ?source, fun h => ⟨15, by decide, le_rfl, h, hc⟩⟩
  case source =>
    obtain rfl | hlt := h15.eq_or_lt
    · exact hb
    · rw [getLsbD_istrFlags s b h8 (by omega), hi] at hb
      simp at hb

end Sys2Proof.Machine

section InterruptLine

open Sys2Proof Sys2Proof.Machine

/-- Settles O59: the line tests the two registers bit by bit over the high byte; `enable` clears the latched flags and sets
the mask of CTR. -/
theorem interruptLine : Obligations.InterruptLine := by
  refine ⟨fun s => ?bits, fun s => usbIrq_iff_of_enabledMasks, fun s hs => ⟨_, exec_enable_undisturbed hs, ?enabled⟩⟩
  case bits =>
    rw [usbIrq_iff]
    refine exists_congr fun b => and_congr_right fun h8 => and_congr_right fun _ => ?_
    rw [getLsbD_regValue_istr_of_ge s b (by omega)]
  case enabled =>
    rw [usbIrq_of_istr_zero rfl (by rw [BitVec.getLsbD_or]; exact Bool.or_true _)]
    exact State.anyCtr_congr rfl

end InterruptLine

namespace Sys2Proof.Machine

/-! ## What an operation that ends in an error leaves (R350, R351) -/

/-- Wherever the part ends in an error, the state it ends in has the property. -/
def Act.FailsLeaving (a : Act Result) (P : State → Prop) : Prop := ∀ k t, a = .done (.error k) t → P t

namespace Act

variable {α : Type} {P Q : State → Prop} {s t : State} {k : ErrorKind}

theorem failsLeaving_raise (h : P s) : (raise k s).FailsLeaving P := by
  rintro _ _ ⟨⟩
  exact h

theorem failsLeaving_done {v : Result} (hv : ∀ k, v ≠ .error k) : (Act.done v s).FailsLeaving P := by
  rintro k _ ⟨⟩
  exact absurd rfl (hv k)

theorem failsLeaving_fault {f : Fault} : (Act.fault f).FailsLeaving P := nofun

/-- A part that is no result of its own fails only where what follows it does. -/
theorem failsLeaving_andThen {a : Act α} {next : α → State → Act Result} (h : ∀ v s, (next v s).FailsLeaving P) :
    (a.andThen next).FailsLeaving P := by
  intro k t e
  obtain ⟨v, s, -, e⟩ := andThen_eq_done.mp e
  exact h v s k t e

theorem failsLeaving_onSlot {n : Nat} {f : Fault} {next : Slot → Act Result} (h : ∀ i, (next i).FailsLeaving P) :
    (onSlot n f next).FailsLeaving P := by
  unfold onSlot
  split
  · exact h _
  · exact failsLeaving_fault

theorem FailsLeaving.mono {a : Act Result} (ha : a.FailsLeaving P) (h : ∀ s, P s → Q s) : a.FailsLeaving Q :=
  fun k t e => h t (ha k t e)

theorem FailsLeaving.returning {a : Act Result} (ha : a.FailsLeaving P) (he : a.returning = .next t)
    (hr : t.result = .error k) : ∃ u, P u ∧ t = u.setResult (.error k) := by
  obtain ⟨v, u, hdone, rfl⟩ := returning_eq_next.mp he
  obtain rfl : v = .error k := hr
  exact ⟨u, ha k u hdone, rfl⟩

/-- An operation that fails in the state it began in only changes the result. -/
theorem FailsLeaving.eq_setResult {a : Act Result} (ha : a.FailsLeaving (· = s)) (he : a.returning = .next t)
    (hr : t.result = .error k) : t = s.setResult (.error k) := by
  obtain ⟨u, rfl, ht⟩ := ha.returning he hr
  exact ht

/-- An operation that returns no value returns no error. -/
theorem returningUnit_result_ne_error {a : Act Unit} (he : a.returningUnit = .next t) : t.result ≠ .error k := by
  obtain ⟨u, -, rfl⟩ := returningUnit_eq_next.mp he
  exact nofun

end Act

/-! ## The operations that can fail, allocation apart -/

/-- Every check of `write` that answers with an error stands before its first access that changes anything (R242, R243). -/
theorem writeSlot_failsLeaving {s : State} (hs : s.sched = []) (i : Slot) (src : List Byte) :
    (writeSlot i src s).FailsLeaving (· = s) := by
  rw [writeSlot, regRead_epr_undisturbed hs, Act.andThen_done]
  split
  · exact Act.failsLeaving_raise rfl
  · split
    · exact Act.failsLeaving_raise rfl
    · split
      · exact Act.failsLeaving_fault
      · iterate 4 refine Act.failsLeaving_andThen fun _ _ => ?_
        exact Act.failsLeaving_done nofun

theorem takePacket_failsLeaving {P : State → Prop} (i : Slot) (count : Nat) (s : State) :
    (takePacket i count s).FailsLeaving P := by
  rw [takePacket]
  iterate 4 refine Act.failsLeaving_andThen fun _ _ => ?_
  exact Act.failsLeaving_done nofun

/-- Every check of `read` that answers with an error stands before its first access that changes anything (R250, R251). -/
theorem readSlot_failsLeaving {s : State} (hs : s.sched = []) (i : Slot) (len : Nat) :
    (readSlot i len s).FailsLeaving (· = s) := by
  by_cases hd : statusOf .out (s.eprAt i) = .disabled
  · rw [readSlot_disabled hs hd]
    exact Act.failsLeaving_raise rfl
  cases hc : ctrOf .out (s.eprAt i) with
  | false =>
    rw [readSlot_noData hs hd hc]
    exact Act.failsLeaving_raise rfl
  | true =>
    cases hw : Memory.wordAt s.pma (8 * i + 6) with
    | none =>
      rw [readSlot_count_undef hs hd hc hw]
      exact Act.failsLeaving_fault
    | some c =>
      rw [readSlot_pending hs hd hc hw]
      split
      · exact Act.failsLeaving_raise rfl
      · exact takePacket_failsLeaving i _ s

/-- But for an allocation, a driver operation that ends in an error changed the result only (R351). -/
theorem exec_error_eq_setResult {i : Instr} {s t : State} {k : ErrorKind} (hs : s.sched = []) (hb : isBusStep i = false)
    (hi : ∀ d req ty mps, i ≠ .allocateEndpoint d req ty mps) (he : exec i s = .next t) (hr : t.result = .error k) :
    t = s.setResult (.error k) := by
  cases i with
  | allocateEndpoint d req ty mps => exact absurd rfl (hi d req ty mps)
  | pmaAllocate _ | encodeReceiveSize _ =>
    refine Act.FailsLeaving.eq_setResult ?_ he hr
    split
    · exact Act.failsLeaving_raise rfl
    · exact Act.failsLeaving_done nofun
  | write addr src =>
    refine Act.FailsLeaving.eq_setResult ?_ he hr
    split
    · exact writeSlot_failsLeaving hs _ src
    · exact Act.failsLeaving_raise rfl
  | read addr len =>
    refine Act.FailsLeaving.eq_setResult ?_ he hr
    split
    · exact readSlot_failsLeaving hs _ len
    · exact Act.failsLeaving_raise rfl
  | forceReset =>
    refine Act.FailsLeaving.eq_setResult ?_ he hr
    split
    · exact Act.failsLeaving_raise rfl
    · iterate 3 refine Act.failsLeaving_andThen fun _ _ => ?_
      exact Act.failsLeaving_done nofun
  | pmaDescriptor _ =>
    refine Act.FailsLeaving.eq_setResult (Act.failsLeaving_onSlot fun _ => ?_) he hr
    exact Act.failsLeaving_done nofun
  | pmaRead _ _ | poll =>
    refine Act.FailsLeaving.eq_setResult (Act.failsLeaving_andThen fun _ _ => ?_) he hr
    exact Act.failsLeaving_done nofun
  | epSnapshot _ =>
    refine Act.FailsLeaving.eq_setResult (Act.failsLeaving_onSlot fun _ => Act.failsLeaving_andThen fun _ _ => ?_) he hr
    exact Act.failsLeaving_done nofun
  | construct _ =>
    rw [exec_construct_eq_next he] at hr
    cases hr
  | pmaWrite _ _ | epConfigure _ _ | epSetStatus _ _ _ | epClearCtr _ _ | eprWrite _ _ | istrWrite _ | reset
  | stall _ | unstall _ | enable | setDeviceAddress _ | suspend | resume | epwConfigure _ _ _
  | epwSetStatusOut _ _ _ _ _ | epwSetStatusIn _ _ _ _ _ | epwClearCtrOut _ _ _ _ | epwClearCtrIn _ _ _ _
  | istrwClearWkup | istrwClearReset | istrwClearSusp | istrwClearAll | daddrwSet _ =>
    exact absurd hr (Act.returningUnit_result_ne_error he)
  | busReset | busOut _ _ _ | busSetup _ _ | busIn _ _ | busSuspend | busWakeup _ _ | busLine _ _ | busOtherEvent _ =>
    cases hb

/-! ## A failed claim (R225, R226) -/

/-- A record took the type, where it had none, or stayed as it was (R225). -/
structure EpRecord.MayTake (ty : EpType) (r q : EpRecord) : Prop where
  out : q.out = r.out
  inn : q.inn = r.inn
  type : q.type = r.type ∨ (r.type = none ∧ q.type = some ty)

theorem EpRecord.MayTake.refl (ty : EpType) (r : EpRecord) : r.MayTake ty r := ⟨rfl, rfl, .inl rfl⟩

theorem EpRecord.MayTake.trans {ty : EpType} {r q p : EpRecord} (h : r.MayTake ty q) (k : q.MayTake ty p) :
    r.MayTake ty p := by
  refine ⟨k.out.trans h.out, k.inn.trans h.inn, ?type⟩
  case type =>
    rcases k.type with hp | ⟨hq, hp⟩
    · rw [hp]
      exact h.type
    · rcases h.type with hr | ⟨-, hr⟩
      · exact .inr ⟨hr ▸ hq, hp⟩
      · simp [hr] at hq

/-- The states differ at most in the types that untyped slots took. -/
structure TypesTaken (ty : EpType) (s t : State) : Prop where
  frame : t = { s with ep := t.ep }
  record : ∀ n, (s.epAt n).MayTake ty (t.epAt n)

theorem TypesTaken.refl (ty : EpType) (s : State) : TypesTaken ty s s := ⟨rfl, fun n => .refl ty (s.epAt n)⟩

theorem TypesTaken.trans {ty : EpType} {s t u : State} (h : TypesTaken ty s t) (k : TypesTaken ty t u) :
    TypesTaken ty s u where
  frame := k.frame.trans (congrArg (fun x : State => { x with ep := u.ep }) h.frame)
  record n := (h.record n).trans (k.record n)

theorem typesTaken_takeType (ty : EpType) (i : Slot) (s : State) : TypesTaken ty s (takeType i ty s) := by
  rcases takeType_cases i ty s with e | ⟨hnone, e⟩
  · rw [e]
    exact .refl ty s
  · rw [e]
    refine ⟨rfl, fun n => ?_⟩
    by_cases hn : i = n
    · subst hn
      rw [State.epAt_setEp_same]
      exact ⟨rfl, rfl, .inr ⟨hnone, rfl⟩⟩
    · rw [State.epAt_setEp_ne _ _ _ _ hn]
      exact .refl ty _

/-- Encoder and arena turn a claim away before it changes anything, and its stores do not fail (R229, R230). -/
theorem claim_failsLeaving (i : Slot) (d : Dir) (mps : Nat) (s : State) : (claim i d mps s).FailsLeaving (· = s) := by
  cases d with
  | out =>
    simp only [claim, claimOut]
    split
    · exact Act.failsLeaving_raise rfl
    · split
      · exact Act.failsLeaving_raise rfl
      · iterate 2 refine Act.failsLeaving_andThen fun _ _ => ?_
        exact Act.failsLeaving_done nofun
  | inn =>
    simp only [claim, claimIn]
    split
    · exact Act.failsLeaving_raise rfl
    · iterate 2 refine Act.failsLeaving_andThen fun _ _ => ?_
      exact Act.failsLeaving_done nofun

/-- The search changes nothing but the types it assigns on its way to the turn that fails (R220). -/
theorem allocSearch_failsLeaving (pin : Option Nat) (d : Dir) (ty : EpType) (mps : Nat) : ∀ (fuel i : Nat) (s : State),
    (allocSearch pin d ty mps fuel i s).FailsLeaving (TypesTaken ty s)
  | 0, _, s => Act.failsLeaving_raise (.refl ty s)
  | fuel + 1, i, s => by
    rw [allocSearch]
    split
    · exact Act.failsLeaving_raise (.refl ty s)
    · split
      · exact Act.failsLeaving_raise (.refl ty s)
      · rename_i n _
        have htake := typesTaken_takeType ty n s
        have hnext := (allocSearch_failsLeaving pin d ty mps fuel (i + 1) (takeType n ty s)).mono fun _ => htake.trans
        dsimp only
        split
        · exact hnext
        · split
          · exact hnext
          · exact (claim_failsLeaving n d mps _).mono fun _ h => h ▸ htake

theorem exec_allocateEndpoint_error {d : Dir} {req : Option Byte} {ty : EpType} {mps : Nat} {s t : State} {k : ErrorKind}
    (he : exec (.allocateEndpoint d req ty mps) s = .next t) (hr : t.result = .error k) :
    ∃ u, TypesTaken ty s u ∧ t = u.setResult (.error k) := by
  refine Act.FailsLeaving.returning ?_ he hr
  split
  · exact Act.failsLeaving_fault
  · exact allocSearch_failsLeaving _ d ty mps _ _ s

end Sys2Proof.Machine

section ErrorResults

open Sys2Proof Sys2Proof.Machine

/-- Settles O60: an error is answered before the first access that changes anything, and a search that fails has assigned
types only. -/
theorem errorLeavesState : Obligations.ErrorLeavesState := by
  intro i s t k hs hb he hr
  by_cases hi : ∃ d req ty mps, i = .allocateEndpoint d req ty mps
  case pos =>
    obtain ⟨d, req, ty, mps, rfl⟩ := hi
    obtain ⟨u, h, rfl⟩ := exec_allocateEndpoint_error he hr
    refine .inr ⟨d, req, ty, mps, rfl, congrArg (State.setResult · (.error k)) h.frame, fun n => ?_⟩
    obtain ⟨hout, hinn, htype⟩ := h.record n
    exact ⟨hout, hinn, htype⟩
  case neg => exact .inl (exec_error_eq_setResult hs hb (fun d req ty mps h => hi ⟨d, req, ty, mps, h⟩) he hr)

end ErrorResults

namespace Sys2Proof.Machine

/-! Proofs about reset and the hazards (file 70_reset_and_hazards.md): the state after a system reset, the two resets of
the block one after the other, and the read-modify-writes that a bus step falls into. -/

/-! ## The state after a system reset (R380) -/

@[simp] theorem State.eprAt_reset (n : Slot) : State.reset.eprAt n = 0x0000 := by simp [State.eprAt, State.reset]

@[simp] theorem State.epAt_reset (n : Slot) : State.reset.epAt n = ⟨none, false, false⟩ := by
  simp [State.epAt, State.reset]

@[simp] theorem State.capTotal_reset : State.reset.capTotal = 0 := by decide

theorem legalHardware_reset : LegalHardware State.reset where
  pma := rfl
  cntr := rfl
  istr := rfl
  fnr := rfl
  daddr := rfl
  btable := rfl

theorem legalRecords_reset : LegalRecords 0 State.reset where
  even := rfl
  lower := le_rfl
  upper := by decide
  typed n h := by simp at h
  caps := by rw [State.capTotal_reset, Nat.zero_add]; exact le_rfl

/-! ## A bus reset, then the driver's `reset` (R382) -/

/-- The state after a bus reset while the engine runs (R309). -/
def State.afterBusReset (s : State) : State := ((s.setIstr (s.istr ||| resetFlag)).setAllEpr 0x0000).setDaddr 0x0000

@[simp] theorem State.eprAt_afterBusReset (s : State) (n : Slot) : s.afterBusReset.eprAt n = 0x0000 := by
  simp [State.afterBusReset]

@[simp] theorem State.daddr_afterBusReset (s : State) : s.afterBusReset.daddr = 0x0000 := rfl

theorem ctrOf_zero (d : Dir) : ctrOf d 0x0000 = false := by cases d <;> rfl

theorem dtogOf_zero (d : Dir) : dtogOf d 0x0000 = false := by cases d <;> rfl

theorem statOf_zero (d : Dir) : statOf d 0x0000 = 0#2 := by cases d <;> rfl

theorem statusOf_zero (d : Dir) : statusOf d 0x0000 = .disabled := congrArg Status.ofCode (statOf_zero d)

theorem busStep_reset_on {s : State} (h : s.busOn = true) : busStep .reset s = .done () s.afterBusReset :=
  whileOn_of_busOn h _

theorem exec_busReset_afterBusReset {s : State} (h : s.busOn = true) : exec .busReset s = .next s.afterBusReset :=
  exec_busReset_on h

theorem answering_afterBusReset (s : State) : s.afterBusReset.answering = false := by
  simp [State.answering, ef]

/-- A latched flag is pending, whatever was latched before. -/
theorem getLsbD_latched (f : Word) {flag : Word} {b : Nat} (h : flag.getLsbD b = true) : (f ||| flag).getLsbD b = true := by
  rw [BitVec.getLsbD_or, h, Bool.or_true]

theorem getLsbD_istr_afterBusReset (s : State) : s.afterBusReset.istr.getLsbD 10 = true :=
  getLsbD_latched s.istr (flag := resetFlag) rfl

/-! ## One bus step between the two accesses of a read-modify-write (R390, R393) -/

/-- The read finds the state as it is, the write the state the bus step leaves. -/
theorem interleave_between {s u : State} {b : BusStep} (hs : s.sched = [[], [b]])
    (hb : busStep b (s.setSched []) = .done () u) :
    interleave s = .done () (s.setSched [[b]]) ∧ interleave (s.setSched [[b]]) = .done () u := by
  refine ⟨by rw [interleave, hs]; rfl, ?_⟩
  show (busStep b (s.setSched [])).andThen (fun _ t => .done () t) = .done () u
  rw [hb, Act.andThen_done]

/-- The toggle mask of `stall` is made from the status at the read and applied to the status at the write (R154). -/
theorem exec_stall_raced {s u v : State} (hu : interleave s = .done () u) (hv : interleave u = .done () v) (n : Slot)
    (d : Dir) : ∃ t, exec (.stall (epAddr n d)) s = .next t ∧
      statOf d (t.eprAt n) = statOf d (v.eprAt n) ^^^ statOf d (u.eprAt n) ^^^ Status.stall.code := by
  obtain ⟨hdir, hidx⟩ := addr_epAddr n d
  obtain ⟨-, -, hxor, -⟩ := fields_gate_set (u.eprAt n) (v.eprAt n) d .stall
  refine ⟨_, by rw [exec, execStall, hdir, hidx, onSlot_val, epSetStatus_eq hu hv, Act.returningUnit_done], ?_⟩
  rw [State.eprAt_setResult, State.eprAt_setEpr_same, hxor]

/-- `u` is the state at the read, `v` the state at the write. -/
theorem cntrUpdate_eq {s u v : State} (hu : interleave s = .done () u) (hv : interleave u = .done () v)
    (f : Word → Word) : cntrUpdate f s = .done () (v.setCntr (gateCntr (f u.cntr))) := by
  rw [cntrUpdate, regRead, hu, Act.andThen_done, Act.andThen_done, State.afterRead_cntr, regWrite, hv]
  rfl

theorem exec_suspend_raced {s u v : State} (hu : interleave s = .done () u) (hv : interleave u = .done () v) :
    exec .suspend s = .next ((v.setCntr (gateCntr (u.cntr ||| 0x000C))).setResult .unit) := by
  rw [exec, execSuspend, cntrUpdate_eq hu hv, Act.returningUnit_done]

/-- The write is the last access, so no bus step falls between it and the end of the update (R330). -/
theorem cntrUpdate_leaves (f : Word → Word) (s : State) :
    (cntrUpdate f s).Leaves fun t => ∃ c, t.cntr = gateCntr (f c) :=
  Act.leaves_andThen (P := fun _ => True) (fun _ _ _ => trivial) fun c _ _ =>
    leaves_regWrite (P := fun _ => True) .cntr _ (fun _ _ _ => trivial) fun _ _ => ⟨c, rfl⟩

/-- `suspend` sets LP_MODE and FSUSP from whatever CNTR word it read (R334). -/
theorem suspended_gateCntr (c : Word) :
    lpMode (gateCntr (c ||| 0x000C)) = true ∧ fsusp (gateCntr (c ||| 0x000C)) = true := by
  simp [-BitVec.getLsbD_eq_getElem, lpMode, fsusp, gateCntr]

/-- `resume` clears LP_MODE and FSUSP in whatever CNTR word it read (R335). -/
theorem resumed_gateCntr (c : Word) :
    lpMode (gateCntr (c &&& 0xFFF3)) = false ∧ fsusp (gateCntr (c &&& 0xFFF3)) = false := by
  simp [-BitVec.getLsbD_eq_getElem, lpMode, fsusp, gateCntr]

end Sys2Proof.Machine

section ResetAndHazards

open Sys2Proof Sys2Proof.Machine

/-- Settles O21: the status left is that at the write XOR that at the read XOR Stall; a bus reset makes the first 0. -/
theorem stallRaces : Obligations.StallRaces := by
  intro n d b s u hs hb
  obtain ⟨hread, hwrite⟩ := interleave_between hs hb
  obtain ⟨t, he, hxor⟩ := exec_stall_raced hread hwrite n d
  rw [State.eprAt_setSched] at hxor
  refine ⟨fun hvalid hnak => ⟨t, he, ?completed⟩, fun hreset hon => ⟨t, he, ?busReset⟩⟩
  case completed =>
    rw [statusOf_eq_iff, hxor, (statusOf_eq_iff d _ _).mp hvalid, (statusOf_eq_iff d _ _).mp hnak]
    rfl
  case busReset =>
    subst hreset
    obtain ⟨-, rfl⟩ := Act.done.inj ((busStep_reset_on (s := s.setSched []) hon).symm.trans hb)
    rw [hxor, State.eprAt_afterBusReset, statOf_zero, BitVec.zero_xor]
    rfl

/-- Settles O35: the bus reset leaves the records that say what `reset` restores, and the flags and toggles at 0. -/
theorem busResetThenReset : Obligations.BusResetThenReset := by
  intro s hs hon
  refine ⟨s.afterBusReset, s.afterBusReset.afterReset, exec_busReset_afterBusReset hon, exec_reset_undisturbed hs,
    answering_afterBusReset s, getLsbD_istr_afterBusReset s, rfl, fun n d => ?disabled, rfl, fun n => ?restored⟩
  case disabled =>
    rw [State.eprAt_afterBusReset]
    exact ⟨rfl, statusOf_zero d⟩
  case restored =>
    rw [State.eprAt_afterReset, State.eprAt_afterBusReset]
    refine ⟨fun h => resetWord_untyped (by exact h) _, fun ty h => ?typed⟩
    have k := resetsSlot_resetWord (s := s.afterBusReset) (by exact h) 0x0000
    exact ⟨k.type, k.ea, k.out, k.inn, fun d => ⟨(k.ctr d).trans (ctrOf_zero d), (k.dtog d).trans (dtogOf_zero d)⟩⟩

/-- Settles O47: `suspend` writes back the CNTR word it read before the wakeup; `resume` writes the two bits 0 whatever it
read. -/
theorem wakeupRace : Obligations.WakeupRace := by
  refine ⟨fun dp dm s hs hon => ?suspend, fun s t he => ?resume⟩
  case suspend =>
    obtain ⟨hread, hwrite⟩ := interleave_between hs (whileOn_of_busOn (s := s.setSched []) hon _)
    obtain ⟨hlp, hfsusp⟩ := suspended_gateCntr s.cntr
    exact ⟨_, exec_suspend_raced hread hwrite, hlp, hfsusp, getLsbD_latched s.istr (flag := wkupFlag) rfl⟩
  case resume =>
    obtain ⟨u, hu, rfl⟩ := Act.returningUnit_eq_next.mp he
    obtain ⟨c, hc⟩ := cntrUpdate_leaves _ s () u hu
    rw [State.setResult_cntr, hc]
    exact resumed_gateCntr c

/-- Settles O7: each row is read off the state after reset; with CNTR's masks 0 and no flag latched, no interrupt is
pending. -/
theorem systemResetValues : Obligations.SystemResetValues :=
  ⟨State.eprAt_reset, rfl, rfl, by decide, rfl, rfl, rfl, fun _ => rfl, by decide, rfl, rfl, rfl⟩

/-- Settles O8: the registers hold no reserved bit, and no slot has a direction or a buffer. -/
theorem resetStateIsLegal : Obligations.ResetStateIsLegal := inv_iff.mpr ⟨legalHardware_reset, legalRecords_reset⟩

/-- Settles O49: construction is the updates of the driver's records, none of a register or of packet memory. -/
theorem constructEffect : Obligations.ConstructEffect := by
  intro cap s
  rw [exec, execConstruct, Act.returningUnit_done, State.setAllEp, State.setAllRxCap, State.setAllTxCap,
    State.setNextFree, State.setMaxIndex, State.setPhase, State.setResetCap, State.setResult]

end ResetAndHazards
